-- ==== Sys2Proof/Word.lean ====
section
/-! DEFINITION. The word types of pyraw CORE (10_state.md, 20_memory.md R50): a byte of `IBUF`, a 16-bit
sample of `MOSAIC`, a 32-bit register or command word, and the 64-bit encoding of one `NUM.F` value. -/

namespace Sys2Proof

/-- One element of `IBUF`: a byte, unsigned (R22). -/
abbrev Byte := BitVec 8

/-- One element of `MOSAIC`: a 16-bit unsigned container of a 10-bit sample (R23). -/
abbrev Sample := BitVec 16

/-- A 32-bit control register, and the 32-bit word written to `CMD` (R31, R33). -/
abbrev Word := BitVec 32

/-- One value of `NUM.F` under the default instantiation `B64`: its IEEE 754 binary64 encoding, bit 63 the sign,
bits 62:52 the exponent, bits 51:0 the fraction (R104). `FW` is 64. -/
abbrev F64 := BitVec 64

end Sys2Proof
end

