-- ==== Sys2Proof/Config.lean ====
section
/-! DEFINITION. What an implementation of pyraw CORE fixes, and what its spec leaves open: the parameter record
`CFG` (00_scope.md R6 to R11) with the record `NUM` of scalar operations (40_numerics.md R100) in it, and the free
values of the model, each an opaque constant without a body, so that no proof can see what it is. -/

namespace Sys2Proof

/-- Three values, one per colour channel: `k = 0` red, `k = 1` green, `k = 2` blue (R12). -/
structure Rgb (α : Type) where
  r : α
  g : α
  b : α
  deriving DecidableEq, Repr, Inhabited

/-- The geometry parameters and the marker (R8). `W` and `H` are derived from them, see Machine/Operands.lean. -/
structure Geometry where
  /-- `DUMP_LEN`: length in bytes of the retained window. -/
  dumpLen : Nat
  /-- `MAGIC[0..3]`: the marker at the start of the retained window. -/
  magic : Vector Byte 4
  /-- `HDR_LEN`: length in bytes of the header, the marker included. -/
  hdrLen : Nat
  /-- `BUF_ROWS`: rows of the sensor readout buffer. -/
  bufRows : Nat
  /-- `STRIDE`: row length in bytes of the readout buffer. -/
  stride : Nat
  /-- `ACT_ROWS`, written `H`: rows of the active area. -/
  actRows : Nat
  /-- `ACT_BYTES`: bytes per row of the active area. -/
  actBytes : Nat
  /-- `IN_CAP`: capacity in bytes of `IBUF`. -/
  inCap : Nat
  deriving DecidableEq, Repr, Inhabited

/-- The numeric constants of the datapath, already converted to `NUM.F` (R9, R10, R103). -/
structure Consts (F : Type) where
  /-- `WR`, the red weight. -/
  wr : F
  /-- `WG`, the green weight. -/
  wg : F
  /-- `WB`, the blue weight. -/
  wb : F
  /-- `HALF`, the factor of the green mean. -/
  half : F
  /-- `LOG_OFFSET`, added to every value before the logarithm. -/
  logOffset : F
  /-- `CCM`: row `i` belongs to input channel `i`, column `j` to output channel `j` (R10, R161). -/
  ccm : Rgb (Rgb F)
  deriving DecidableEq, Repr, Inhabited

/-- The part of the parameter record `CFG` that is plain data, over the encodings of a `NUM` of `FW = fw` bits. The scalar operations `NUM` are functions and join it in `FullCfg`. -/
structure CfgOf (fw : Nat) where
  geom : Geometry
  consts : Consts (BitVec fw)
  deriving DecidableEq, Repr, Inhabited

/-- The plain data of `CFG` under the default `B64`, whose `FW` is 64 (R31, R104). -/
abbrev Cfg := CfgOf 64

/-- The record `NUM` of R100: the scalar operations of the three float stages over a set `F` of values. The stages
are written against it. The block's datapath is any `Num (BitVec fw)`, a value being its encoding (R11, R100); the
default one is `B64` (Machine/B64.lean), and the exact reference is `REAL` (Reference.lean). -/
structure Num (F : Type) where
  /-- `FW`: how many bits the encoding of one value has; none where it is not defined (R105). -/
  fw : Option Nat
  /-- `of_int`, asked of 0 to 2046 only. -/
  ofInt : Nat → F
  /-- `of_rat`, used on the constants at build time only. -/
  ofRat : Rat → F
  fadd : F → F → F
  fsub : F → F → F
  fmul : F → F → F
  fdiv : F → F → F
  /-- The tone mapper's log curve (R107). -/
  fln : F → F
  /-- Less-than. -/
  flt : F → F → Bool
  /-- Equal. -/
  feq : F → F → Bool
  isFinite : F → Bool

/-- The whole parameter record `CFG`, `NUM` included (R11, R20; 92_eei_decisions.md section 2): what a block is built
with (Machine/AnyNum.lean). -/
structure FullCfg (fw : Nat) where
  /-- Geometry, marker, weights, offset and matrix. -/
  params : CfgOf fw
  /-- The numeric type and its operations. -/
  num : Num (BitVec fw)

/-- The four rounded operations, to tell their free values apart. -/
inductive FloatOp where
  | add
  | sub
  | mul
  | div
  deriving DecidableEq, Repr

/-- FREE VALUE (log entry 2): the geometry with which the block was built. The spec withholds it (R7);
`Sys2Proof.Machine.builtCfgOf` turns it into an arbitrary geometry that meets R8. -/
opaque Config.rawGeometry : Geometry

/-- FREE VALUE (log entry 2): the colour matrix with which the block was built, for encodings of `fw` bits. The spec
gives no entry (R10); `Sys2Proof.Machine.builtCfgOf` turns it into an arbitrary matrix of finite entries. -/
opaque Config.rawMatrix (fw : Nat) : Rgb (Rgb (BitVec fw))

/-- FREE VALUE (log entry 5): which of the two binary64 neighbours of `ln s` the log curve returns, fixed per
argument (R107, U12): the upper one where true. -/
opaque Config.lnRoundsUp : F64 → Bool

/-- FREE VALUE (log entry 5): `fln` where it is never evaluated, on an argument that is not finite or not positive
(R107: "a model must give it no value there"). -/
opaque Config.lnOutside : F64 → F64

/-- FREE VALUE (log entry 21): `fln` under `REAL` where it is never evaluated, on an argument that is not positive (R105,
R107: "a model must give it no value there"). -/
noncomputable opaque Config.realLnOutside : ℝ → ℝ

/-- FREE VALUE (log entry 21): the quotient by 0 under `REAL`, "never evaluated" (R105), of the dividend. -/
noncomputable opaque Config.realDivByZero : ℝ → ℝ

/-- FREE VALUE (log entry 6): sign (bit 52) and fraction (bits 51:0) of a NaN result. The spec fixes no NaN
encoding (R108). -/
opaque Config.nanDraw : FloatOp → F64 → F64 → BitVec 53

/-- FREE VALUE (log entry 4): what the n-th read of an unspecified element returns, for an element of `w` bits (R65: "a
draw, a free input under no law, and two reads of the same element need not agree"). -/
opaque Config.freeRead (w n : Nat) : BitVec w

end Sys2Proof
end

