-- ==== Sys2Proof/Syntax.lean ====
section
/-! DEFINITION. The six commands of the block (30_encoding.md R82), which stand in the place of an instruction
set (R1). No command has an operand field: every operand is implicit (R81). -/

namespace Sys2Proof

/-- The commands of R82, one constructor per row of spec/opcode_table.json. -/
inductive Instr where
  /-- `0x00000001`: bytes of `IBUF` to the mosaic grid (R120). -/
  | unpack
  /-- `0x00000002`: mosaic grid to the raw-sensor-space image `F0` (R141). -/
  | demosaic
  /-- `0x00000003`: `F0` times the colour matrix, into `F1` (R160). -/
  | correct
  /-- `0x00000004`: logarithm and global min-max normalisation of `F1`, into `F2` (R170). -/
  | tonemap
  /-- `0x00000005`: the four stages in order (R190). -/
  | run
  /-- `0x00000006`: discard the frame and leave the fault state (R192). -/
  | clear
  deriving DecidableEq, Repr

end Sys2Proof
end

