-- ==== Sys2Proof/WellFormed.lean ====
section
/-! DEFINITION. What is well formed: a command (nothing to check: no operand fields, R81), a word written to `CMD`
(R82, R83), and the geometry of a valid `CFG` (R8). Each check has a name of its own. -/

namespace Sys2Proof

/-- A command has no operand field (R81), so every one is well formed. -/
def Instr.wellFormed : Instr → Bool
  | .unpack => true
  | .demosaic => true
  | .correct => true
  | .tonemap => true
  | .run => true
  | .clear => true

/-- Bits 31:8 of a command word are zero (R80, R83). -/
def Word.reservedBitsZero (w : Word) : Bool := w.extractLsb' 8 24 == 0

/-- Bits 7:0 of a command word are one of the six opcodes (R82). -/
def Word.opcodeAssigned (w : Word) : Bool :=
  decide (1 ≤ (w.extractLsb' 0 8).toNat) && decide ((w.extractLsb' 0 8).toNat ≤ 6)

/-- A word that is one of the six commands; every other word is reserved (R83). -/
def Word.isCommand (w : Word) : Bool := Word.reservedBitsZero w && Word.opcodeAssigned w

/-- `DUMP_LEN = HDR_LEN + BUF_ROWS * STRIDE` (R8, D4). -/
def Geometry.dumpLenExact (g : Geometry) : Bool := g.dumpLen == g.hdrLen + g.bufRows * g.stride

/-- The marker is four ASCII bytes, each in 0..127 (R8). -/
def Geometry.magicAscii (g : Geometry) : Bool := g.magic.toList.all fun b => decide (b.toNat ≤ 127)

/-- The header holds the marker: `HDR_LEN >= 4` (R8, D3). -/
def Geometry.headerHoldsMagic (g : Geometry) : Bool := decide (4 ≤ g.hdrLen)

/-- `BUF_ROWS >= ACT_ROWS` (R8). -/
def Geometry.rowsFit (g : Geometry) : Bool := decide (g.actRows ≤ g.bufRows)

/-- `STRIDE >= ACT_BYTES` (R8). -/
def Geometry.bytesFit (g : Geometry) : Bool := decide (g.actBytes ≤ g.stride)

/-- `ACT_ROWS >= 2` (R8, D31). -/
def Geometry.rowsEnough (g : Geometry) : Bool := decide (2 ≤ g.actRows)

/-- `ACT_BYTES mod 5 = 0` and `ACT_BYTES >= 5` (R8, D31). -/
def Geometry.wholeBlocks (g : Geometry) : Bool := g.actBytes % 5 == 0 && decide (5 ≤ g.actBytes)

/-- `IN_CAP >= DUMP_LEN` (R8, D6). -/
def Geometry.capacityEnough (g : Geometry) : Bool := decide (g.dumpLen ≤ g.inCap)

/-- `IN_CAP` fits the 32-bit register `IN_LEN`, whose range is `0 <= IN_LEN <= IN_CAP` (R26; DEDUCED, log entry 3). -/
def Geometry.capacityFits (g : Geometry) : Bool := decide (g.inCap < 2 ^ 32)

/-- The constraints a valid `CFG`'s geometry meets (R8). -/
def Geometry.wellFormed (g : Geometry) : Bool :=
  g.dumpLenExact && g.magicAscii && g.headerHoldsMagic && g.rowsFit && g.bytesFit && g.rowsEnough
    && g.wholeBlocks && g.capacityEnough && g.capacityFits

end Sys2Proof
end

