-- ==== Sys2Proof/Decode.lean ====
section
/-! DEFINITION. The decoder of the `CMD` word, total on all 2^32 words (30_encoding.md R82, R83, R85), and the
encoder, written from the same table (R82). A word is written whole to register 0: there is no byte order to choose
(R52, R80). -/

namespace Sys2Proof

/-- Why a word is reserved (R83). -/
inductive DecodeError where
  /-- Bits 31:8 are not all zero, whatever the opcode. -/
  | reservedBits (w : Word)
  /-- Bits 31:8 are zero and the opcode is 0x00 or in 0x07..0xFF. -/
  | reservedOpcode (w : Word)
  deriving DecidableEq, Repr

/-- The field `OPCODE`, bits 7:0 (R80). -/
def opcodeField (w : Word) : BitVec 8 := w.extractLsb' 0 8

/-- The field `RSVD`, bits 31:8 (R80). -/
def reservedField (w : Word) : BitVec 24 := w.extractLsb' 8 24

/-- The opcode map of R82. -/
def decodeOpcode (op : BitVec 8) : Option Instr :=
  if op = 0x01 then some .unpack
  else if op = 0x02 then some .demosaic
  else if op = 0x03 then some .correct
  else if op = 0x04 then some .tonemap
  else if op = 0x05 then some .run
  else if op = 0x06 then some .clear
  else none

/-- `decode(w)` of R85: one of the six commands, or reserved. -/
def decode (w : Word) : Except DecodeError Instr :=
  if reservedField w ≠ 0 then .error (.reservedBits w)
  else match decodeOpcode (opcodeField w) with
    | some i => .ok i
    | none => .error (.reservedOpcode w)

/-- The opcode byte of each command (R82). -/
def opcodeOf : Instr → BitVec 8
  | .unpack => 0x01
  | .demosaic => 0x02
  | .correct => 0x03
  | .tonemap => 0x04
  | .run => 0x05
  | .clear => 0x06

/-- The word of a command: the opcode in bits 7:0, zeros above (R80, R82). -/
def encode (i : Instr) : Word := (0 : BitVec 24) ++ opcodeOf i

/-- The `CMD` word whose low `nbits` bits are those of `w` and whose other bits are zero. -/
def tableWord (nbits w : Nat) : Word := BitVec.ofNat 32 (w % 2 ^ nbits)

/-- The command this decoder reads from the bits of a row of the opcode table (none where it is reserved). -/
def decodeTableWord (nbits w : Nat) : Option Instr :=
  match decode (tableWord nbits w) with
  | .ok i => some i
  | .error _ => none

end Sys2Proof
end

