-- ==== Sys2Proof/Machine/B64.lean ====
section
/-! DEFINITION. The default instantiation `B64` of `NUM` (40_numerics.md R102 to R104, R107): IEEE 754 binary64,
round to nearest ties to even, gradual underflow, no fused multiply-add, no flags; and the log curve `fln`,
faithfully rounded. Every operation is computed exactly on integers or rationals and rounded once at the end.

A finite magnitude is a whole number of UNITS of 2^-1074, the least positive value. The bits below the sign,
read as one number, are called the magnitude bits: they are ordered as the values are. -/

namespace Sys2Proof.Machine

namespace B64

/-- The sign bit, bit 63 (R104). -/
def sign (x : F64) : Bool := x.msb

/-- Bits 62:0 as a number. -/
def magBits (x : F64) : Nat := x.toNat % 2 ^ 63

/-- The magnitude bits of an infinity: exponent field all ones, fraction 0. -/
def infBits : Nat := 0x7FF * 2 ^ 52

/-- Neither an infinity nor a NaN (R104). -/
def isFinite (x : F64) : Bool := decide (magBits x < infBits)

/-- Exponent field all ones, fraction not 0. -/
def isNaN (x : F64) : Bool := decide (infBits < magBits x)

/-- Exponent field all ones, fraction 0. -/
def isInf (x : F64) : Bool := magBits x == infBits

/-- The magnitude of a finite value in units of 2^-1074: the fraction of a subnormal, the full significand of a
normal value shifted by its exponent less one. -/
def units (x : F64) : Nat :=
  let e := magBits x / 2 ^ 52
  let f := magBits x % 2 ^ 52
  if e = 0 then f else (2 ^ 52 + f) * 2 ^ (e - 1)

/-- A finite value in units of 2^-1074. -/
def value (x : F64) : Int := if sign x then -(units x : Int) else (units x : Int)

/-- A value from its sign and its magnitude bits. -/
def mk (neg : Bool) (mag : Nat) : F64 := BitVec.ofNat 64 (mag + if neg then 2 ^ 63 else 0)

/-- The rounding of a magnitude that lies between two neighbours of the format. -/
inductive Rounding where
  /-- To the nearest, ties to even (R104). -/
  | nearest
  /-- To the lower neighbour. -/
  | down
  /-- To the upper neighbour. -/
  | up
  deriving DecidableEq, Repr

/-- Whether the quotient `q` with remainder `r` of a division by `d` is rounded up. -/
def roundsUp (m : Rounding) (q r d : Nat) : Bool :=
  match m with
  | .nearest => decide (d < 2 * r) || (2 * r == d && q % 2 == 1)
  | .down => false
  | .up => decide (0 < r)

/-- How many low bits of a magnitude of `n` units lie below a 53-bit significand. -/
def spareBits (n : Nat) : Nat := Nat.log2 n + 1 - 53

/-- The magnitude bits of `num / den` units (`den` positive), rounded as `m` says; an infinity where that is too
large. The exponent field is one more than the spare bits once the significand has its leading bit, so shifted
spare bits plus the significand are the magnitude bits, the carry of a significand that rounds up to 2^53
included. -/
def roundMag (m : Rounding) (num den : Nat) : Nat :=
  let shift := spareBits (num / den)
  let d := den * 2 ^ shift
  let q := num / d
  let q' := if roundsUp m q (num % d) d then q + 1 else q
  min (shift * 2 ^ 52 + q') infBits

/-- A NaN result: its encoding is open, see log entry 6. -/
def nanResult (op : FloatOp) (a b : F64) : F64 :=
  let draw := Config.nanDraw op a b
  let frac := draw.toNat % 2 ^ 52
  mk draw.msb (infBits + if frac = 0 then 2 ^ 51 else frac)

/-- The sign changed. -/
def neg (x : F64) : F64 := x ^^^ (BitVec.ofNat 64 (2 ^ 63))

/-- The sum of two finite values (R104): an exact zero sum is `-0` only for two negative zeros. -/
def addFinite (a b : F64) : F64 :=
  let v := value a + value b
  if v = 0 then mk (sign a && sign b) 0
  else mk (decide (v < 0)) (roundMag .nearest v.natAbs 1)

/-- The sum of any two values; `onNaN` is the result where it is a NaN. -/
def sum (onNaN a b : F64) : F64 :=
  if isNaN a || isNaN b then onNaN
  else if isInf a then (if isInf b && (sign a != sign b) then onNaN else a)
  else if isInf b then b
  else addFinite a b

/-- `fadd` (R104). -/
def fadd (a b : F64) : F64 := sum (nanResult .add a b) a b

/-- `fsub` (R104): the sum with the second operand's sign changed. -/
def fsub (a b : F64) : F64 := sum (nanResult .sub a b) a (neg b)

/-- `fmul` (R104). -/
def fmul (a b : F64) : F64 :=
  let s := sign a != sign b
  if isNaN a || isNaN b then nanResult .mul a b
  else if isInf a || isInf b then
    (if magBits a = 0 || magBits b = 0 then nanResult .mul a b else mk s infBits)
  else mk s (roundMag .nearest (units a * units b) (2 ^ 1074))

/-- `fdiv` (R104). -/
def fdiv (a b : F64) : F64 :=
  let s := sign a != sign b
  if isNaN a || isNaN b then nanResult .div a b
  else if isInf a then (if isInf b then nanResult .div a b else mk s infBits)
  else if isInf b then mk s 0
  else if magBits b = 0 then (if magBits a = 0 then nanResult .div a b else mk s infBits)
  else mk s (roundMag .nearest (units a * 2 ^ 1074) (units b))

/-- The magnitude bits with the sign, a number ordered as the values are, the two zeros being equal. -/
def key (x : F64) : Int := if sign x then -(magBits x : Int) else (magBits x : Int)

/-- `flt`, the IEEE comparison: false where an operand is a NaN (R104). -/
def flt (a b : F64) : Bool := !isNaN a && !isNaN b && decide (key a < key b)

/-- `feq`, the IEEE comparison: `-0 = +0`, false where an operand is a NaN (R104). -/
def feq (a b : F64) : Bool := !isNaN a && !isNaN b && decide (key a = key b)

/-- The rational `q` rounded to the format. `.down` and `.up` here are towards zero and away from it. -/
def ofRatWith (m : Rounding) (q : Rat) : F64 :=
  mk (decide (q < 0)) (roundMag m (q.num.natAbs * 2 ^ 1074) q.den)

/-- `of_rat`: the nearest value, ties to even (R103). -/
def ofRat (q : Rat) : F64 := ofRatWith .nearest q

/-- `of_int`: exact for 0 to 2046 (R102); elsewhere log entry 13. -/
def ofInt (n : Nat) : F64 := mk false (roundMag .nearest (n * 2 ^ 1074) 1)

/-! The log curve (R107). For `s = u` units with leading bit `2^k`, `ln s = ln (u / 2^k) + (k - 1074) ln 2`, and
`ln ((1 + z) / (1 - z)) = 2 (z + z^3/3 + z^5/5 + …)`, whose tail after `n` terms is at most
`2 z^(2n+1) / (1 - z^2)` for `0 ≤ z < 1`. -/

/-- How many terms of the series are summed: with `z ≤ 1/3` the tail is below 2^-200. -/
def lnTerms : Nat := 64

/-- `z + z^3/3 + … + z^(2n-1)/(2n-1)`. -/
def atanhSum (z : Rat) : Nat → Rat
  | 0 => 0
  | n + 1 => atanhSum z n + z ^ (2 * n + 1) / (2 * n + 1 : Nat)

/-- A lower bound of `ln ((1 + z) / (1 - z))`. -/
def lnRatioLo (z : Rat) : Rat := 2 * atanhSum z lnTerms

/-- An upper bound of `ln ((1 + z) / (1 - z))`. -/
def lnRatioHi (z : Rat) : Rat := 2 * (atanhSum z lnTerms + z ^ (2 * lnTerms + 1) / (1 - z ^ 2))

/-- The exponent of the leading bit of a positive value. -/
def lnExponent (s : F64) : Int := (Nat.log2 (units s) : Int) - 1074

/-- The `z` of a positive value's significand `m` in [1, 2): `(m - 1) / (m + 1)`. -/
def lnArg (s : F64) : Rat :=
  let u := units s
  let p := 2 ^ Nat.log2 u
  ((u : Rat) - (p : Rat)) / ((u : Rat) + (p : Rat))

/-- A rational lower bound of `ln s`. -/
def lnLo (s : F64) : Rat :=
  let e := lnExponent s
  lnRatioLo (lnArg s) + e * (if 0 ≤ e then lnRatioLo (1 / 3) else lnRatioHi (1 / 3))

/-- A rational upper bound of `ln s`. -/
def lnHi (s : F64) : Rat :=
  let e := lnExponent s
  lnRatioHi (lnArg s) + e * (if 0 ≤ e then lnRatioHi (1 / 3) else lnRatioLo (1 / 3))

/-- The greatest value at most `q`. -/
def floorRat (q : Rat) : F64 := ofRatWith (if q < 0 then .up else .down) q

/-- The least value at least `q`. -/
def ceilRat (q : Rat) : F64 := ofRatWith (if q < 0 then .down else .up) q

/-- The lower faithful value of `ln s`. -/
def lnBelow (s : F64) : F64 := floorRat (lnHi s)

/-- The upper faithful value of `ln s`. -/
def lnAbove (s : F64) : F64 := ceilRat (lnLo s)

/-- `fln`: one of the two faithful values of `ln s`, which one a free value of the argument; no known value outside
its domain (R107). -/
def fln (s : F64) : F64 :=
  if isFinite s && flt (ofInt 0) s then (if Config.lnRoundsUp s then lnAbove s else lnBelow s)
  else Config.lnOutside s

end B64

/-- The record `NUM` under `B64` (R104), the default for the hardware (R11; log entry 11). -/
def b64 : Num F64 where
  fw := some 64
  ofInt := B64.ofInt
  ofRat := B64.ofRat
  fadd := B64.fadd
  fsub := B64.fsub
  fmul := B64.fmul
  fdiv := B64.fdiv
  fln := B64.fln
  flt := B64.flt
  feq := B64.feq
  isFinite := B64.isFinite

end Sys2Proof.Machine
end

