-- ==== Sys2Proof/Machine/Params.lean ====
section
/-! DEFINITION. The parameter record `CFG` with which a block is built (00_scope.md R6 to R11): the constants the
source fixes, what makes a whole record valid, and an arbitrary valid record for the block after reset. -/

namespace Sys2Proof.Machine

/-- The five constants the source settles, converted once (R9, R103), beside a colour matrix. -/
def sourceConsts {F : Type} (n : Num F) (ccm : Rgb (Rgb F)) : Consts F where
  wr := n.ofRat 1
  wg := n.ofRat (7 / 10)
  wb := n.ofRat (9 / 10)
  half := n.ofRat (1 / 2)
  logOffset := n.ofRat 80
  ccm := ccm

/-- Every channel satisfies `p`. -/
def rgbAll {α : Type} (p : α → Bool) (x : Rgb α) : Bool := p x.r && p x.g && p x.b

/-- Every entry of `CCM` is finite (R10). -/
def ccmFinite {F : Type} (n : Num F) (m : Rgb (Rgb F)) : Bool := rgbAll (rgbAll n.isFinite) m

/-- The plain data of a valid `CFG` with the given `NUM`: its geometry meets R8, its matrix is finite (R10) and its
constants are the source's (R9). -/
def cfgValid {fw : Nat} (n : Num (BitVec fw)) (c : CfgOf fw) : Bool :=
  c.geom.wellFormed && ccmFinite n c.consts.ccm && c.consts == sourceConsts n c.consts.ccm

/-- The smallest legal geometry (95_test_vectors.md TCFG2, with a marker of zeros): no padding, the header is the
marker alone. -/
def smallestGeometry : Geometry where
  dumpLen := 14
  magic := Vector.replicate 4 0
  hdrLen := 4
  bufRows := 2
  stride := 5
  actRows := 2
  actBytes := 5
  inCap := 14

/-- A value made finite: zero in the place of one that is not. -/
def finiteOrZero {F : Type} (n : Num F) (x : F) : F := if n.isFinite x then x else n.ofInt 0

/-- A function applied to every channel. -/
def rgbMap {α β : Type} (f : α → β) (x : Rgb α) : Rgb β := ⟨f x.r, f x.g, f x.b⟩

/-- The plain data a block with the given `NUM` was built with: arbitrary valid data (log entry 2). All valid data with
the source's constants are its value for some values of `Config.rawGeometry` and `Config.rawMatrix`. -/
def builtCfgOf {fw : Nat} (n : Num (BitVec fw)) : CfgOf fw where
  geom := if Config.rawGeometry.wellFormed then Config.rawGeometry else smallestGeometry
  consts := sourceConsts n (rgbMap (rgbMap (finiteOrZero n)) (Config.rawMatrix fw))

/-- The plain data of the block with the default `NUM` (R11). -/
def builtCfg : Cfg := builtCfgOf b64

end Sys2Proof.Machine
end

