-- ==== Sys2Proof/Machine/State.lean ====
section
/-! DEFINITION. The state of pyraw CORE (10_state.md R20 to R40) as plain data, the host transactions that act on it
(20_memory.md R60 to R68, 30_encoding.md R90), what the host gets back, and the state right after reset (R40). -/

namespace Sys2Proof.Machine

/-- The six address spaces, each indexed by element number (R50). -/
inductive Space where
  /-- The six registers (R31). -/
  | csr
  /-- The input buffer, one byte an element (R22). -/
  | ibuf
  /-- The mosaic grid, one 16-bit sample an element (R23). -/
  | mosaic
  /-- The image in raw sensor space (R24). -/
  | f0
  /-- The image in corrected space (R24). -/
  | f1
  /-- The normalised image (R24). -/
  | f2
  deriving DecidableEq, Repr

/-- One host transaction: one line of a host script (R90). Its data are values, not text (log entry 14); a
float is its encoding of `FW = fw` bits (R100). -/
inductive TransactionOf (fw : Nat) where
  /-- `RESET`, the reset event (R230). -/
  | reset
  /-- `LOAD IBUF, bytes` (R62). -/
  | loadIbuf (bytes : List Byte)
  /-- `LOAD MOSAIC, values`, in element order; a value may be outside 0..1023, the block then refuses it (R63). -/
  | loadMosaic (values : List Nat)
  /-- `LOAD F0, values`, in element order (R64). -/
  | loadF0 (values : List (BitVec fw))
  /-- `LOAD F1, values`, in element order (R64). -/
  | loadF1 (values : List (BitVec fw))
  /-- `LOAD F2, values`: there is no such transaction and an attempt is refused (R64). -/
  | loadF2 (values : List (BitVec fw))
  /-- `WRITE CSR[n], w`; `CMD <mnemonic>` is `WRITE CSR[0], <its word>` (R32, R33). -/
  | writeCsr (n : Nat) (w : Word)
  /-- `READ <space>[index]`, `READ CSR[index]` (R60). -/
  | read (space : Space) (index : Nat)
  deriving DecidableEq, Repr

/-- A transaction of the block with the default `NUM`, whose `FW` is 64 (R11). -/
abbrev Transaction := TransactionOf 64

/-- What the host got back from the last transaction. -/
inductive ResponseOf (fw : Nat) where
  /-- No transaction yet. -/
  | none
  /-- It was accepted and returns no data: a LOAD, a command, the reset event. -/
  | done
  /-- It was refused: no state change, no fault, no data (R66). -/
  | refused
  /-- An element of `IBUF`. -/
  | byte (v : Byte)
  /-- An element of `MOSAIC`. -/
  | sample (v : Sample)
  /-- An element of a float image, or `MIN` or `MAX` (R37). -/
  | float (v : BitVec fw)
  /-- One of the 32-bit registers 0 to 3. -/
  | word (v : Word)
  deriving DecidableEq, Repr

/-- An answer of the block with the default `NUM`. -/
abbrev Response := ResponseOf 64

/-- The causes of the faults the block takes (R201). A fault of the block is no stop of the model: it is a next
state with `ERR` written (R210). -/
inductive Cause where
  /-- `FormatError` SHORT (R202). -/
  | short
  /-- `FormatError` MAGIC (R203). -/
  | magic
  /-- `ArithmeticError` LOG_DOMAIN (R204). -/
  | logDomain
  /-- `ArithmeticError` ZERO_RANGE (R205). -/
  | zeroRange
  /-- `SizeMismatch` (R206). -/
  | sizeMismatch
  /-- `IllegalCommand` (R207). -/
  | illegalCommand
  deriving DecidableEq, Repr

/-- Why the model would stop with a fault: there is no constructor, because the spec gives every transaction an
effect and says that the block never gets stuck (R241, U14; log entry 15). Nothing raises one. -/
inductive Fault where
  deriving DecidableEq, Repr

/-- Why the model would give a command no meaning. -/
inductive Refusal where
  /-- The form the host asks for; raised by no arm, since every command has its meaning (safe: it only stops). -/
  | notModelled (mnemonic : String)
  deriving DecidableEq, Repr

/-- The five VALID flags, `V.X` of R27. -/
structure ValidFlags where
  ibuf : Bool
  mosaic : Bool
  f0 : Bool
  f1 : Bool
  f2 : Bool
  deriving DecidableEq, Repr

/-- A memory of `w`-bit elements, as (element number, element) pairs in one canonical form, `Memory.wf` of
Machine/Ops.lean: element numbers strictly rising, and no element equal to what an unlisted one reads as. For `w = 8`
it is a list of `Host.Cell`. -/
abbrev Memory (w : Nat) := List (Nat × BitVec w)

end Sys2Proof.Machine

namespace Sys2Proof.Machine.Block

/-- The state of a block whose `NUM` has encodings of `FW = fw` bits (R100). The fields from `ibuf` to `busy` are the
block's; `cfg` and the last three are the model's own. -/
structure State (fw : Nat) where
  /-- The plain data of the parameter record `CFG` the block was built with. It is no state of the block (R6, R20): the
  fixed form of `exec` and `step` has no other place for an argument, and no step changes it (log entry 1). `NUM`, the
  rest of `CFG`, is functions and so an argument of the machine (log entry 11). -/
  cfg : CfgOf fw
  /-- `IBUF` (R22). -/
  ibuf : Memory 8
  /-- `IN_LEN`, 32 bits (R26). -/
  inLen : Word
  /-- `MOSAIC` (R23). -/
  mosaic : Memory 16
  /-- `F0` (R24). -/
  f0 : Memory fw
  /-- `F1` (R24). -/
  f1 : Memory fw
  /-- `F2` (R24). -/
  f2 : Memory fw
  /-- `MIN` (R25). -/
  minReg : BitVec fw
  /-- `MAX` (R25). -/
  maxReg : BitVec fw
  /-- `V.IBUF`, `V.MOSAIC`, `V.F0`, `V.F1`, `V.F2` (R27). -/
  valid : ValidFlags
  /-- `ERR`, 8 bits (R28). -/
  err : BitVec 8
  /-- `BUSY` (R29). -/
  busy : Bool
  /-- The transactions the host will issue, the next one first (R3, R70; log entry 8). -/
  script : List (TransactionOf fw)
  /-- What the last transaction returned (log entry 10). -/
  response : ResponseOf fw
  /-- How many reads of unspecified elements there have been, so that each is a free value of its own (log entry 4). -/
  draws : Nat
  deriving DecidableEq, Repr

end Sys2Proof.Machine.Block

namespace Sys2Proof.Machine

/-- The state of the block with the default `NUM`, `B64`, whose `FW` is 64 (R11, R31). -/
abbrev State := Block.State 64

/-- All five VALID flags 0 (R27, R40). -/
def ValidFlags.none : ValidFlags := ⟨false, false, false, false, false⟩

/-- A block built with the given plain data, right after reset (R40, R230): flags, `ERR`, `IN_LEN` and `BUSY` are 0; the
buffers, `MIN` and `MAX` are unspecified there, and hold here a value that no read shows and no stage consumes (log
entry 7). The host has issued nothing. -/
def Block.State.resetWith {fw : Nat} (c : CfgOf fw) : Block.State fw where
  cfg := c
  ibuf := []
  inLen := 0
  mosaic := []
  f0 := []
  f1 := []
  f2 := []
  minReg := 0
  maxReg := 0
  valid := ValidFlags.none
  err := 0
  busy := false
  script := []
  response := .none
  draws := 0

/-- The machine right after reset: the block with the default `NUM` and arbitrary valid data (log entry 2). -/
def State.reset : State := Block.State.resetWith builtCfg

end Sys2Proof.Machine
end

