-- ==== Sys2Proof/Machine/Flags.lean ====
section
/-! DEFINITION. The flags: fault codes (60_exceptions.md R201), chain invalidation of the VALID flags (10_state.md R27)
and the register words made of flags (R34 to R36). -/

namespace Sys2Proof.Machine

variable {fw : Nat}

/-- The value written to `ERR` (R201). -/
def causeCode : Cause → BitVec 8
  | .short => 0x10
  | .magic => 0x11
  | .logDomain => 0x20
  | .zeroRange => 0x21
  | .sizeMismatch => 0x30
  | .illegalCommand => 0x40

/-- The flag of a buffer; the register space has none. -/
def validOf (v : ValidFlags) : Space → Bool
  | .csr => false
  | .ibuf => v.ibuf
  | .mosaic => v.mosaic
  | .f0 => v.f0
  | .f1 => v.f1
  | .f2 => v.f2

/-- Chain invalidation: the flag of a buffer and of every buffer downstream of it set to 0 (R27 clause 2). -/
def invalidateFrom (v : ValidFlags) : Space → ValidFlags
  | .csr => v
  | .ibuf => ValidFlags.none
  | .mosaic => { v with mosaic := false, f0 := false, f1 := false, f2 := false }
  | .f0 => { v with f0 := false, f1 := false, f2 := false }
  | .f1 => { v with f1 := false, f2 := false }
  | .f2 => { v with f2 := false }

/-- The flag of a buffer set to 1 (R27 clause 3). -/
def setValid (v : ValidFlags) : Space → ValidFlags
  | .csr => v
  | .ibuf => { v with ibuf := true }
  | .mosaic => { v with mosaic := true }
  | .f0 => { v with f0 := true }
  | .f1 => { v with f1 := true }
  | .f2 => { v with f2 := true }

/-- A flag in bit `n` of a register word. -/
def flagBit (b : Bool) (n : Nat) : Word := if b then BitVec.ofNat 32 (2 ^ n) else 0

/-- `STATUS`: every field a live copy of a flag, the reserved bits 0 (R34). -/
def statusWord (s : Block.State fw) : Word :=
  flagBit s.busy 0 ||| flagBit (s.err != 0) 1 ||| flagBit s.valid.ibuf 4 ||| flagBit s.valid.mosaic 5
    ||| flagBit s.valid.f0 6 ||| flagBit s.valid.f1 7 ||| flagBit s.valid.f2 8

/-- `ERR` as a register word: the code in bits 7:0, zeros above (R35). -/
def errWord (s : Block.State fw) : Word := s.err.setWidth 32

end Sys2Proof.Machine
end

