-- ==== Sys2Proof/Machine/Operands.lean ====
section
/-! DEFINITION. Element numbers and the implicit operands of the commands (20_memory.md R50, R51, R53; 30_encoding.md
R81): the sizes of the spaces, row-major element numbers, and the reads a stage makes of its input buffer. -/

namespace Sys2Proof

/-- Channel `k` of a pixel: 0 red, 1 green, 2 blue (R12). -/
def Rgb.chan {α : Type} (x : Rgb α) : Nat → α
  | 0 => x.r
  | 1 => x.g
  | _ => x.b

/-- `H`, the mosaic rows (R8). -/
def Geometry.h (g : Geometry) : Nat := g.actRows

/-- `W`, the mosaic columns: `ACT_BYTES * 4 / 5` (R8). -/
def Geometry.w (g : Geometry) : Nat := g.actBytes * 4 / 5

/-- The number of mosaic elements, `H * W` (R50). -/
def Geometry.mosaicCount (g : Geometry) : Nat := g.h * g.w

/-- The number of elements of a float image, `(H-1) * (W-1) * 3` (R50). -/
def Geometry.imageCount (g : Geometry) : Nat := (g.h - 1) * (g.w - 1) * 3

/-- The element number of `MOSAIC[r][c]` (R51). -/
def Geometry.mosaicIndex (g : Geometry) (r c : Nat) : Nat := r * g.w + c

/-- The element number of `Fn[r][c][k]` (R51). -/
def Geometry.imageIndex (g : Geometry) (r c k : Nat) : Nat := (r * (g.w - 1) + c) * 3 + k

end Sys2Proof

namespace Sys2Proof.Machine

/-- How many elements a space has (R50); element numbers from there on name nothing (R53). -/
def spaceSize (g : Geometry) : Space → Nat
  | .csr => 6
  | .ibuf => g.inCap
  | .mosaic => g.mosaicCount
  | .f0 => g.imageCount
  | .f1 => g.imageCount
  | .f2 => g.imageCount

/-- An element of a memory; one that is not listed is 0 (log entry 7). -/
def Memory.read {w : Nat} : Memory w → Nat → BitVec w
  | [], _ => 0
  | (a, v) :: rest, i => if a = i then v else Memory.read rest i

/-- The mosaic as a function of row and column, each sample a number (R51). -/
def mosaicAt (g : Geometry) (m : Memory 16) (r c : Nat) : Nat := (Memory.read m (g.mosaicIndex r c)).toNat

/-- The three channels of one pixel of a float image (R51). -/
def pixelAt {fw : Nat} (g : Geometry) (m : Memory fw) (r c : Nat) : Rgb (BitVec fw) :=
  ⟨Memory.read m (g.imageIndex r c 0), Memory.read m (g.imageIndex r c 1), Memory.read m (g.imageIndex r c 2)⟩

/-- A whole float image in element order (R51). -/
def imageElems {fw : Nat} (g : Geometry) (m : Memory fw) : List (BitVec fw) := (List.range g.imageCount).map (Memory.read m)

/-- A whole mosaic in element order, from its value at each row and column (R51). -/
def mosaicOf {α : Type} (g : Geometry) (f : Nat → Nat → α) : List α :=
  (List.range g.mosaicCount).map fun e => f (e / g.w) (e % g.w)

/-- A whole image in element order, from its pixel at each row and column (R51). -/
def imageOf {α : Type} (g : Geometry) (f : Nat → Nat → Rgb α) : List α :=
  (List.range g.imageCount).map fun e => (f (e / 3 / (g.w - 1)) (e / 3 % (g.w - 1))).chan (e % 3)

end Sys2Proof.Machine
end

