-- ==== Sys2Proof/Machine/Ops.lean ====
section
/-! DEFINITION. The shared operations over memory, registers and flags: element writes (20_memory.md R61), fault entry
and the way out of the faulted state (60_exceptions.md R210, R212), refusal (R66), and the frame that every command
runs in (30_encoding.md R84, 10_state.md R29). -/

namespace Sys2Proof.Machine

variable {fw : Nat}

/-- The canonical form of a memory: element numbers strictly rising, no element that an unlisted one would read as. -/
abbrev Memory.wf {w : Nat} (m : Memory w) : Prop :=
  m.Pairwise (fun a b => a.1 < b.1) ∧ ∀ c ∈ m, c.2 ≠ 0

/-- `MemWrite(space, index, v)`: element `i` set to `v` and nothing else (R61), in canonical form. -/
def Memory.write {w : Nat} : Memory w → Nat → BitVec w → Memory w
  | [], i, v => if v = 0 then [] else [(i, v)]
  | (a, x) :: rest, i, v =>
    if a < i then (a, x) :: Memory.write rest i v
    else if a = i then (if v = 0 then rest else (i, v) :: rest)
    else (if v = 0 then (a, x) :: rest else (i, v) :: (a, x) :: rest)

/-- Consecutive elements written in element order, from element `i` on. -/
def Memory.writeFrom {w : Nat} (m : Memory w) (i : Nat) : List (BitVec w) → Memory w
  | [] => m
  | v :: vs => Memory.writeFrom (Memory.write m i v) (i + 1) vs

/-- A whole buffer written, from element 0 on (R62 to R64). -/
def Memory.writeAll {w : Nat} (m : Memory w) (vs : List (BitVec w)) : Memory w := Memory.writeFrom m 0 vs

/-- Fault entry (R210): the code goes to `ERR` and the block is idle again; nothing else happens. The output flag is
already 0 by the command's chain invalidation. -/
def faultEntry (c : Cause) (s : Block.State fw) : Block.State fw := { s with err := causeCode c, busy := false }

/-- The only way out of the faulted state, by CLEAR or reset (R192, R212, R230): the frame is discarded. The contents
of the buffers, `MIN` and `MAX` stay, and are unspecified to the host from here on. -/
def discardFrame (s : Block.State fw) : Block.State fw :=
  { s with valid := ValidFlags.none, inLen := 0, err := 0, busy := false }

/-- What the host gets back. -/
def respond (r : ResponseOf fw) (s : Block.State fw) : Block.State fw := { s with response := r }

/-- A refused transaction: no state of the block changes, no fault, no data (R66; log entry 9). -/
def refuse (s : Block.State fw) : Block.State fw := respond .refused s

/-- The chain invalidation with which an accepted LOAD or stage begins (R27). -/
def beginWrite (b : Space) (s : Block.State fw) : Block.State fw := { s with valid := invalidateFrom s.valid b }

/-- The flag with which a completed LOAD or stage ends (R27). -/
def endWrite (b : Space) (s : Block.State fw) : Block.State fw := { s with valid := setValid s.valid b }

/-- A command is accepted: `BUSY` goes to 1 (R29; log entry 12). -/
def startCommand (s : Block.State fw) : Block.State fw := { s with busy := true }

/-- A command has completed or faulted: `BUSY` goes to 0 (R29). -/
def endCommand (s : Block.State fw) : Block.State fw := respond .done { s with busy := false }

/-- A LOAD, a stage command, RUN or a reserved word is accepted in this state: idle and not faulted (R62 to R64,
R84). -/
abbrev Block.State.accepts (s : Block.State fw) : Prop := s.busy = false ∧ s.err = 0

/-- A command other than CLEAR: its body where it is accepted, a refusal where it is not (R84). -/
def command (body : Block.State fw → Block.State fw) (s : Block.State fw) : Block.State fw :=
  if s.accepts then endCommand (body (startCommand s)) else refuse s

/-- CLEAR's acceptance: whenever `BUSY = 0`, whatever `ERR` holds (R84, R192). -/
def clearCommand (body : Block.State fw → Block.State fw) (s : Block.State fw) : Block.State fw :=
  if s.busy = false then endCommand (body (startCommand s)) else refuse s

/-- The next stage of RUN, unless an earlier one raised a fault (R190). -/
def thenStage (body : Block.State fw → Block.State fw) (s : Block.State fw) : Block.State fw := if s.err = 0 then body s else s

end Sys2Proof.Machine
end

