-- ==== Sys2Proof/Machine/Correct.lean ====
section
/-! DEFINITION. The Color Corrector and the command CORRECT (43_correct.md R160 to R164). -/

namespace Sys2Proof.Machine

variable {fw : Nat}

/-- Output channel `j`: the three products rounded, then added left to right (R161). -/
def correctChannel {F : Type} (n : Num F) (m : Rgb (Rgb F)) (x : Rgb F) (j : Nat) : F :=
  n.fadd (n.fadd (n.fmul x.r (m.r.chan j)) (n.fmul x.g (m.g.chan j))) (n.fmul x.b (m.b.chan j))

/-- A pixel as a row vector times the matrix (R161). -/
def correctPixel {F : Type} (n : Num F) (m : Rgb (Rgb F)) (x : Rgb F) : Rgb F :=
  ⟨correctChannel n m x 0, correctChannel n m x 1, correctChannel n m x 2⟩

/-- The stage, from its chain invalidation on, for a block with the given `NUM` (R160); it makes no check of the values (R163). -/
def correctBody (n : Num (BitVec fw)) (s₀ : Block.State fw) : Block.State fw :=
  let s := beginWrite .f1 s₀
  if s.valid.f0 = false then faultEntry .sizeMismatch s
  else endWrite .f1 { s with
    f1 := Memory.writeAll s.f1
      (imageOf s.cfg.geom fun r c => correctPixel n s.cfg.consts.ccm (pixelAt s.cfg.geom s.f0 r c)) }

/-- CORRECT for a block with the given `NUM`: the stage where the command is accepted (R160). -/
def doCorrect (n : Num (BitVec fw)) (s : Block.State fw) : Block.State fw := command (correctBody n) s

/-- CORRECT (R160), under the default `NUM` (R11). -/
def execCorrect (s : State) : Host.Outcome State Fault Refusal := .next (doCorrect b64 s)

end Sys2Proof.Machine
end

