-- ==== Sys2Proof/Machine/Demosaic.lean ====
section
/-! DEFINITION. The Bayer Demosaicer and the command DEMOSAIC (42_demosaic.md R140 to R147). -/

namespace Sys2Proof.Machine

variable {fw : Nat}

/-- The colour a photosite records. -/
inductive SiteColour where
  | red
  | green
  | blue
  deriving DecidableEq, Repr

/-- The mosaic layout: even rows G,B,G,B,…, odd rows R,G,R,G,… (R140). -/
def siteColour (r c : Nat) : SiteColour :=
  if (r + c) % 2 = 0 then .green else if r % 2 = 1 then .red else .blue

/-- The one red site of the window of pixel `(r, c)` (R141, R144). -/
def redSite (r c : Nat) : Nat × Nat := (r + 1 - r % 2, c + c % 2)

/-- The one blue site of the window (R141, R144). -/
def blueSite (r c : Nat) : Nat × Nat := (r + r % 2, c + 1 - c % 2)

/-- The two green sites of the window, on the main diagonal where the parities agree, else on the other one (R141,
R144). -/
def greenSites (r c : Nat) : (Nat × Nat) × (Nat × Nat) :=
  if r % 2 = c % 2 then ((r, c), (r + 1, c + 1)) else ((r, c + 1), (r + 1, c))

/-- The sample of a site. -/
def sampleOf (m : Nat → Nat → Nat) (site : Nat × Nat) : Nat := m site.1 site.2

/-- One pixel: the two greens are added as integers, then one conversion and one multiplication a channel (R143). -/
def demosaicPixel {F : Type} (n : Num F) (k : Consts F) (m : Nat → Nat → Nat) (r c : Nat) : Rgb F where
  r := n.fmul k.wr (n.ofInt (sampleOf m (redSite r c)))
  g := n.fmul (n.fmul k.half k.wg) (n.ofInt (sampleOf m (greenSites r c).1 + sampleOf m (greenSites r c).2))
  b := n.fmul k.wb (n.ofInt (sampleOf m (blueSite r c)))

/-- The stage, from its chain invalidation on, for a block with the given `NUM` (R141). -/
def demosaicBody (n : Num (BitVec fw)) (s₀ : Block.State fw) : Block.State fw :=
  let s := beginWrite .f0 s₀
  if s.valid.mosaic = false then faultEntry .sizeMismatch s
  else endWrite .f0 { s with
    f0 := Memory.writeAll s.f0
      (imageOf s.cfg.geom (demosaicPixel n s.cfg.consts (mosaicAt s.cfg.geom s.mosaic))) }

/-- DEMOSAIC for a block with the given `NUM`: the stage where the command is accepted (R141). -/
def doDemosaic (n : Num (BitVec fw)) (s : Block.State fw) : Block.State fw := command (demosaicBody n) s

/-- DEMOSAIC (R141), under the default `NUM` (R11). -/
def execDemosaic (s : State) : Host.Outcome State Fault Refusal := .next (doDemosaic b64 s)

end Sys2Proof.Machine
end

