-- ==== Sys2Proof/Machine/Tonemap.lean ====
section
/-! DEFINITION. The Tone Mapper and the command TONEMAP (44_tonemap.md R170 to R181). -/

namespace Sys2Proof.Machine

variable {fw : Nat}

/-- What the two passes give: the reducer's outputs and the normalised image (R25, R170). -/
structure Toned (F : Type) where
  mn : F
  mx : F
  out : List F

/-- The sum whose logarithm is taken (R172). -/
def logArgument {F : Type} (n : Num F) (offset v : F) : F := n.fadd v offset

/-- The domain test: finite and strictly positive (R173). -/
def inLogDomain {F : Type} (n : Num F) (s : F) : Bool := n.isFinite s && n.flt (n.ofInt 0) s

/-- The least of some values by `flt`, the first of several that tie (R174; log entry 18); 0 where there are none, which
a valid `CFG` rules out (R170; log entry 13). -/
def leastOf {F : Type} (n : Num F) : List F → F
  | [] => n.ofInt 0
  | x :: xs => xs.foldl (fun m y => if n.flt y m then y else m) x

/-- The greatest of some values by `flt`, the first of several that tie (R174; log entries 13 and 18). -/
def greatestOf {F : Type} (n : Num F) : List F → F
  | [] => n.ofInt 0
  | x :: xs => xs.foldl (fun m y => if n.flt m y then y else m) x

/-- Pass 2 of one element: subtract, then divide (R177). -/
def normalise {F : Type} (n : Num F) (mn mx v : F) : F := n.fdiv (n.fsub v mn) (n.fsub mx mn)

/-- The log-compressed image of pass 1 (R172). -/
def logImage {F : Type} (n : Num F) (offset : F) (xs : List F) : List F :=
  xs.map fun v => n.fln (logArgument n offset v)

/-- The pass 1 domain test of a whole image (R173, R176). -/
def allInDomain {F : Type} (n : Num F) (offset : F) (xs : List F) : Bool :=
  xs.all fun v => inLogDomain n (logArgument n offset v)

/-- TONEMAP as one function of its input image (R71): LOG_DOMAIN if any element fails, then ZERO_RANGE, else the
result (R170, R180). Pass 2 reads the two global scalars, so it comes after all of pass 1 (R176). -/
def tonemapImage {F : Type} (n : Num F) (offset : F) (xs : List F) : Except Cause (Toned F) :=
  if allInDomain n offset xs then
    let l := logImage n offset xs
    let mn := leastOf n l
    let mx := greatestOf n l
    if n.feq mx mn then .error .zeroRange
    else .ok ⟨mn, mx, l.map (normalise n mn mx)⟩
  else .error .logDomain

/-- The stage, from its chain invalidation on, for a block with the given `NUM` (R170). -/
def tonemapBody (n : Num (BitVec fw)) (s₀ : Block.State fw) : Block.State fw :=
  let s := beginWrite .f2 s₀
  if s.valid.f1 = false then faultEntry .sizeMismatch s
  else match tonemapImage n s.cfg.consts.logOffset (imageElems s.cfg.geom s.f1) with
    | .error c => faultEntry c s
    | .ok t => endWrite .f2 { s with
        minReg := t.mn, maxReg := t.mx, f2 := Memory.writeAll s.f2 t.out }

/-- TONEMAP for a block with the given `NUM`: the stage where the command is accepted (R170). -/
def doTonemap (n : Num (BitVec fw)) (s : Block.State fw) : Block.State fw := command (tonemapBody n) s

/-- TONEMAP (R170), under the default `NUM` (R11). -/
def execTonemap (s : State) : Host.Outcome State Fault Refusal := .next (doTonemap b64 s)

end Sys2Proof.Machine
end

