-- ==== Sys2Proof/Machine/Unpack.lean ====
section
/-! DEFINITION. The Raw Unpacker and the command UNPACK (41_unpack.md R120 to R130). -/

namespace Sys2Proof.Machine

variable {fw : Nat}

/-- Step (a): a byte widened to 16 bits, then shifted left by 2 (R125). -/
def widenShift (b : Byte) : Sample := b.setWidth 16 <<< 2

/-- Step (b): the 2-bit field of position `p`, from the fifth value after step (a) (R126). -/
def lowField (e4 : Sample) (p : Nat) : Sample := (e4 >>> ((4 - p) * 2)) &&& 0b11

/-- The sample of position `p` of a block, from its data byte and the block's fifth byte (R126). -/
def unpackSample (b b4 : Byte) (p : Nat) : Sample := widenShift b ||| lowField (widenShift b4) p

/-- The byte grid `G[i][j]` of the retained window that starts at `base` (R123). -/
def byteGrid (g : Geometry) (ib : Nat → Byte) (base i j : Nat) : Byte := ib (base + g.hdrLen + i * g.stride + j)

/-- The sample at row `r`, column `c = 4q + p`: from byte columns `5q + p` and `5q + 4` (R124, R126). -/
def unpackAt (g : Geometry) (ib : Nat → Byte) (base r c : Nat) : Sample :=
  unpackSample (byteGrid g ib base r (5 * (c / 4) + c % 4)) (byteGrid g ib base r (5 * (c / 4) + 4)) (c % 4)

/-- The marker stands at the start of the retained window: four bytes compared in order (R122). -/
def magicMatches (g : Geometry) (ib : Nat → Byte) (base : Nat) : Bool :=
  (List.range 4).map (fun k => ib (base + k)) == g.magic.toList

/-- UNPACK as one function of the RawBuffer (R71): the length test, then the marker test, then the grid. -/
def unpackGrid (g : Geometry) (ib : Nat → Byte) (len : Nat) : Except Cause (List Sample) :=
  if len < g.dumpLen then .error .short
  else if magicMatches g ib (len - g.dumpLen) then .ok (mosaicOf g (unpackAt g ib (len - g.dumpLen)))
  else .error .magic

/-- The stage, from its chain invalidation on (R120). -/
def unpackBody (s₀ : Block.State fw) : Block.State fw :=
  let s := beginWrite .mosaic s₀
  if s.valid.ibuf = false then faultEntry .sizeMismatch s
  else match unpackGrid s.cfg.geom (Memory.read s.ibuf) s.inLen.toNat with
    | .error c => faultEntry c s
    | .ok samples => endWrite .mosaic { s with mosaic := Memory.writeAll s.mosaic samples }

/-- UNPACK for a block of any `FW`: the stage where the command is accepted (R120). -/
def doUnpack (s : Block.State fw) : Block.State fw := command unpackBody s

/-- UNPACK (R120). -/
def execUnpack (s : State) : Host.Outcome State Fault Refusal := .next (doUnpack s)

end Sys2Proof.Machine
end

