-- ==== Sys2Proof/Machine/Control.lean ====
section
/-! DEFINITION. Sequencing and control: RUN, CLEAR and the reserved command words (45_control.md R190 to R194). -/

namespace Sys2Proof.Machine

variable {fw : Nat}

/-- The four stages in their fixed order, stopping at the first fault (R190), for a block with the given `NUM`. -/
def runBody (n : Num (BitVec fw)) (s : Block.State fw) : Block.State fw :=
  thenStage (tonemapBody n) (thenStage (correctBody n) (thenStage (demosaicBody n) (unpackBody s)))

/-- RUN for a block with the given `NUM` (R190). -/
def doRun (n : Num (BitVec fw)) (s : Block.State fw) : Block.State fw := command (runBody n) s

/-- RUN (R190), under the default `NUM` (R11). -/
def execRun (s : State) : Host.Outcome State Fault Refusal := .next (doRun b64 s)

/-- CLEAR for a block of any `FW` (R192). -/
def doClear (s : Block.State fw) : Block.State fw := clearCommand discardFrame s

/-- CLEAR (R192). -/
def execClear (s : State) : Host.Outcome State Fault Refusal := .next (doClear s)

/-- A reserved word written to `CMD`: `IllegalCommand` where the write is accepted (R83, R194, R207). -/
def reservedCommand (s : Block.State fw) : Block.State fw := command (faultEntry .illegalCommand) s

end Sys2Proof.Machine
end

