-- ==== Sys2Proof/Machine/Dispatch.lean ====
section
/-! DEFINITION. The meaning of every command of 30_encoding.md R82: one arm per constructor of Instr. -/

namespace Sys2Proof.Machine

def exec (i : Instr) (s : State) : Host.Outcome State Fault Refusal :=
  match i with
  | .unpack => Sys2Proof.Machine.execUnpack s
  | .demosaic => Sys2Proof.Machine.execDemosaic s
  | .correct => Sys2Proof.Machine.execCorrect s
  | .tonemap => Sys2Proof.Machine.execTonemap s
  | .run => Sys2Proof.Machine.execRun s
  | .clear => Sys2Proof.Machine.execClear s

end Sys2Proof.Machine
end

