-- ==== Sys2Proof/Machine/HostAccess.lean ====
section
/-! DEFINITION. The host transactions other than commands: the reset event (70_reset_and_hazards.md R230), whole-buffer
LOADs (20_memory.md R62 to R64) and element READs (R60, R65 to R67; 10_state.md R32 to R37). -/

namespace Sys2Proof.Machine

variable {fw : Nat}

/-- The reset event, at any time (R230; log entry 17): it leaves what CLEAR leaves (R231). -/
def resetEvent (s : Block.State fw) : Block.State fw := respond .done (discardFrame s)

/-- A LOAD: refused where the block does not accept it or its data breaks the rule's conditions, else the effect
(R62 to R64, R66). -/
def load (dataOk : Bool) (effect : Block.State fw → Block.State fw) (s : Block.State fw) : Block.State fw :=
  if s.accepts ∧ dataOk = true then respond .done (effect s) else refuse s

/-- The data of `LOAD IBUF` fit the buffer (R62). -/
def ibufDataOk (g : Geometry) (bytes : List Byte) : Bool := decide (bytes.length ≤ g.inCap)

/-- The data of `LOAD MOSAIC`: exactly `H * W` values, each in 0..1023 (R63). -/
def mosaicDataOk (g : Geometry) (values : List Nat) : Bool :=
  values.length == g.mosaicCount && values.all fun v => decide (v ≤ 1023)

/-- The data of `LOAD F0` and `LOAD F1`: exactly `(H-1) * (W-1) * 3` finite values of the block's `NUM` (R64). -/
def imageDataOk {F : Type} (n : Num F) (g : Geometry) (values : List F) : Bool :=
  values.length == g.imageCount && values.all n.isFinite

/-- `LOAD IBUF, bytes` (R62). -/
def loadIbuf (bytes : List Byte) (s : Block.State fw) : Block.State fw :=
  load (ibufDataOk s.cfg.geom bytes)
    (fun s => endWrite .ibuf
      { beginWrite .ibuf s with
        ibuf := Memory.writeAll s.ibuf bytes, inLen := BitVec.ofNat 32 bytes.length }) s

/-- `LOAD MOSAIC, values` (R63). -/
def loadMosaic (values : List Nat) (s : Block.State fw) : Block.State fw :=
  load (mosaicDataOk s.cfg.geom values)
    (fun s => endWrite .mosaic
      { beginWrite .mosaic s with mosaic := Memory.writeAll s.mosaic (values.map (BitVec.ofNat 16)) }) s

/-- `LOAD F0, values` (R64). -/
def loadF0 (n : Num (BitVec fw)) (values : List (BitVec fw)) (s : Block.State fw) : Block.State fw :=
  load (imageDataOk n s.cfg.geom values)
    (fun s => endWrite .f0 { beginWrite .f0 s with f0 := Memory.writeAll s.f0 values }) s

/-- `LOAD F1, values` (R64). -/
def loadF1 (n : Num (BitVec fw)) (values : List (BitVec fw)) (s : Block.State fw) : Block.State fw :=
  load (imageDataOk n s.cfg.geom values)
    (fun s => endWrite .f1 { beginWrite .f1 s with f1 := Memory.writeAll s.f1 values }) s

/-- A read that answers an unspecified value of `w` bits: the next free value (R65). -/
def drawRead {w : Nat} (form : BitVec w → ResponseOf fw) (s : Block.State fw) : Block.State fw :=
  respond (form (Config.freeRead w s.draws)) { s with draws := s.draws + 1 }

/-- A read of an element of `w` bits, meaningful where `ok` holds, and of an unspecified value elsewhere (R60, R65). -/
def readElement {w : Nat} (ok : Bool) (v : BitVec w) (form : BitVec w → ResponseOf fw) (s : Block.State fw) : Block.State fw :=
  if ok then respond (form v) s else drawRead form s

/-- A register read, `n` in 0..5: `CMD` reads 0 (R32), `MIN` and `MAX` are meaningful exactly when `V.F2 = 1` (R25). -/
def readRegister (n : Nat) (s : Block.State fw) : Block.State fw :=
  match n with
  | 0 => respond (.word 0) s
  | 1 => respond (.word (statusWord s)) s
  | 2 => respond (.word (errWord s)) s
  | 3 => respond (.word s.inLen) s
  | 4 => readElement s.valid.f2 s.minReg .float s
  | _ => readElement s.valid.f2 s.maxReg .float s

/-- An element read of a space, the index being inside it (R60). -/
def readInside (sp : Space) (i : Nat) (s : Block.State fw) : Block.State fw :=
  match sp with
  | .csr => readRegister i s
  | .ibuf => readElement (s.valid.ibuf && decide (i < s.inLen.toNat)) (Memory.read s.ibuf i) .byte s
  | .mosaic => readElement s.valid.mosaic (Memory.read s.mosaic i) .sample s
  | .f0 => readElement s.valid.f0 (Memory.read s.f0 i) .float s
  | .f1 => readElement s.valid.f1 (Memory.read s.f1 i) .float s
  | .f2 => readElement s.valid.f2 (Memory.read s.f2 i) .float s

/-- A read is not refused: the index is inside the space, and the block is idle or `STATUS` is read (R60, R66). -/
abbrev Block.State.readable (s : Block.State fw) (sp : Space) (i : Nat) : Prop :=
  i < spaceSize s.cfg.geom sp ∧ (s.busy = false ∨ (sp = .csr ∧ i = 1))

/-- `READ <space>[i]` (R60), whatever `ERR` holds (R67). -/
def hostRead (sp : Space) (i : Nat) (s : Block.State fw) : Block.State fw :=
  if s.readable sp i then readInside sp i s else refuse s

end Sys2Proof.Machine
end

