-- ==== Sys2Proof/Machine/Transact.lean ====
section
/-! DEFINITION. One host transaction (00_scope.md R3, 20_memory.md R70), the write to `CMD` that issues a command
(30_encoding.md R85), the next transaction of the host's script, and the pseudo-statements of R91. -/

namespace Sys2Proof.Machine

variable {fw : Nat}

/-- A write of `w` to `CMD` (R33, R85): the decoded command, run as `run` says, or `IllegalCommand` for a reserved word.
Acceptance is tested in each (R84). -/
def writeCmdWith (run : Instr → Block.State fw → Host.Outcome (Block.State fw) Fault Refusal) (w : Word) (s : Block.State fw) :
    Host.Outcome (Block.State fw) Fault Refusal :=
  match decode w with
  | .ok i => run i s
  | .error _ => .next (reservedCommand s)

/-- One transaction, for a block with the given `NUM` whose commands run as `run` says. A write to a read-only register
or to a register number above 5, and `LOAD F2`, are refused (R32, R64, R66). -/
def transactWith (n : Num (BitVec fw)) (run : Instr → Block.State fw → Host.Outcome (Block.State fw) Fault Refusal)
    (t : TransactionOf fw) (s : Block.State fw) : Host.Outcome (Block.State fw) Fault Refusal :=
  match t with
  | .reset => .next (resetEvent s)
  | .loadIbuf bytes => .next (loadIbuf bytes s)
  | .loadMosaic values => .next (loadMosaic values s)
  | .loadF0 values => .next (loadF0 n values s)
  | .loadF1 values => .next (loadF1 n values s)
  | .loadF2 _ => .next (refuse s)
  | .writeCsr k w => if k = 0 then writeCmdWith run w s else .next (refuse s)
  | .read sp i => .next (hostRead sp i s)

/-- The next transaction of the script; where the host issues nothing the block keeps all its state (R225; log
entry 16). -/
def nextTransactionWith (n : Num (BitVec fw)) (run : Instr → Block.State fw → Host.Outcome (Block.State fw) Fault Refusal)
    (s : Block.State fw) : Host.Outcome (Block.State fw) Fault Refusal :=
  match s.script with
  | [] => .next s
  | t :: rest => transactWith n run t { s with script := rest }

/-- A write to `CMD` of the block with the default `NUM` (R11), which runs `exec`. -/
def writeCmd (w : Word) (s : State) : Host.Outcome State Fault Refusal := writeCmdWith exec w s

/-- One transaction of the block with the default `NUM`. -/
def transact (t : Transaction) (s : State) : Host.Outcome State Fault Refusal := transactWith b64 exec t s

/-- The next transaction of the block with the default `NUM`. -/
def nextTransaction (s : State) : Host.Outcome State Fault Refusal := nextTransactionWith b64 exec s

/-- The transaction that writes a word to `CMD`. -/
def cmdWrite (w : Word) : TransactionOf fw := .writeCsr 0 w

/-- `CMD <mnemonic>` (R90). -/
def scriptCmd (i : Instr) : TransactionOf fw := cmdWrite (encode i)

/-- `WAIT`: no iteration at the spec's level, where every transaction sees `BUSY = 0` (R91, R29). -/
def scriptWait : List (TransactionOf fw) := []

/-- `FRAME bytes` (R91). -/
def scriptFrame (bytes : List Byte) : List (TransactionOf fw) := [.loadIbuf bytes, scriptCmd .run] ++ scriptWait

/-- `STAGES` (R91). -/
def scriptStages : List (TransactionOf fw) :=
  [scriptCmd .unpack, scriptCmd .demosaic, scriptCmd .correct, scriptCmd .tonemap]

/-- `RETRY bytes` (R91). -/
def scriptRetry (bytes : List Byte) : List (TransactionOf fw) := scriptCmd .clear :: scriptFrame bytes

end Sys2Proof.Machine
end

