-- ==== Sys2Proof/Machine/Step.lean ====
section
/-! DEFINITION. One step of the machine: the host's next transaction (00_scope.md R3). -/

namespace Sys2Proof.Machine

/-- One step: the host's next transaction, whole (R3, R70). -/
def step (s : State) : Host.Outcome State Fault Refusal := nextTransaction s

/-- The state in which the host's next transaction writes the given word to `CMD`: the place commands come from
(R33, R74; log entry 8). -/
def State.withFetchWord (s : State) (nbits w : Nat) : State :=
  { s with script := cmdWrite (tableWord nbits w) :: s.script }

end Sys2Proof.Machine
end

