-- ==== Sys2Proof/Machine/AnyNum.lean ====
section
/-! DEFINITION. The block built with any `NUM` (00_scope.md R11, 40_numerics.md R100, 92_eei_decisions.md D18): `NUM` and
its width are arguments, and the meanings are those that `exec` gives under the default `B64`. -/

namespace Sys2Proof.Machine

variable {fw : Nat}

/-- The commands of R82 in a block with the given `NUM`. -/
def execOf (n : Num (BitVec fw)) (i : Instr) (s : Block.State fw) : Host.Outcome (Block.State fw) Fault Refusal :=
  match i with
  | .unpack => .next (doUnpack s)
  | .demosaic => .next (doDemosaic n s)
  | .correct => .next (doCorrect n s)
  | .tonemap => .next (doTonemap n s)
  | .run => .next (doRun n s)
  | .clear => .next (doClear s)

/-- One transaction of a block with the given `NUM` (R3, R70). -/
def transactOf (n : Num (BitVec fw)) (t : TransactionOf fw) (s : Block.State fw) : Host.Outcome (Block.State fw) Fault Refusal :=
  transactWith n (execOf n) t s

/-- One step of a block with the given `NUM`. -/
def stepOf (n : Num (BitVec fw)) (s : Block.State fw) : Host.Outcome (Block.State fw) Fault Refusal :=
  nextTransactionWith n (execOf n) s

/-- The machine built with a whole parameter record `CFG`, its `NUM` included: for every admissible one there is a
machine (R11, R20). -/
def machineOf (c : FullCfg fw) : Host.Core where
  State := Block.State fw
  Fault := Fault
  Refusal := Refusal
  step := stepOf c.num
  reset := Block.State.resetWith c.params

/-- The record of the block that `Sys2Proof.core` is: the default `NUM` (R11) and arbitrary valid data (log entry 2). -/
def defaultCfg : FullCfg 64 := ⟨builtCfg, b64⟩

end Sys2Proof.Machine
end

