-- ==== Sys2Proof/Reference.lean ====
section
/-! DEFINITION. The exact reference of the datapath, for stating properties and no part of the machine: the
instantiation `REAL` of `NUM` (40_numerics.md R105), the real value of a binary64 encoding, what correct and faithful
rounding mean (R104, R107), the properties every `NUM` must have (R106) with the accuracy an instantiation states (N2,
N8), and what a valid whole `CFG` is (R232). -/

namespace Sys2Proof.Machine

/-- `REAL`: the real numbers, every operation exact (R105). The logarithm of an argument that is not positive and the
quotient by 0 are never evaluated (R105, R107): there these total functions give a free value without a body (log
entry 21). -/
noncomputable def realNum : Num ℝ where
  fw := none
  ofInt := fun n => (n : ℝ)
  ofRat := fun q => (q : ℝ)
  fadd := fun a b => a + b
  fsub := fun a b => a - b
  fmul := fun a b => a * b
  fdiv := fun a b => @ite _ (b = 0) (Classical.propDecidable _) (Config.realDivByZero a) (a / b)
  fln := fun s => @ite _ (0 < s) (Classical.propDecidable _) (Real.log s) (Config.realLnOutside s)
  flt := fun a b => @decide (a < b) (Classical.propDecidable _)
  feq := fun a b => @decide (a = b) (Classical.propDecidable _)
  isFinite := fun _ => true

/-- The real number that a finite binary64 value stands for (R104). -/
noncomputable def B64.toReal (x : F64) : ℝ := (B64.value x : ℝ) / 2 ^ 1074

/-- `r` is the value nearest to `x` among the finite values, and where another value is as near its last fraction bit
is 0: round to nearest, ties to even (R104). -/
def B64.nearestTo (r : F64) (x : ℝ) : Prop :=
  ∀ y : F64, B64.isFinite y = true →
    |B64.toReal r - x| ≤ |B64.toReal y - x| ∧
    (|B64.toReal r - x| = |B64.toReal y - x| → B64.toReal y = B64.toReal r ∨ r.getLsbD 0 = false)

/-- `r` is one of the two values that bracket `x`: the greatest at most `x` or the least at least `x` (R107). -/
def B64.faithfulTo (r : F64) (x : ℝ) : Prop :=
  (B64.toReal r ≤ x ∧ ∀ y : F64, B64.isFinite y = true → B64.toReal y ≤ x → B64.toReal y ≤ B64.toReal r) ∨
  (x ≤ B64.toReal r ∧ ∀ y : F64, B64.isFinite y = true → x ≤ B64.toReal y → B64.toReal r ≤ B64.toReal y)

/-- Properties N1 to N7 of R106 but for the exactness in N2, over the finite values of a `NUM`; its 0 and 1 are `of_int` of 0
and 1. What speaks of real values, that `of_int` is exact (N2) and the accuracy of the operations (N8), is in `NumAccurate` and
`NumAdmissible`. -/
structure NumLawful {F : Type} (n : Num F) : Prop where
  /-- N1: `flt` is irreflexive. -/
  lt_irrefl : ∀ a, n.isFinite a = true → n.flt a a = false
  /-- N1: `flt` is transitive. -/
  lt_trans : ∀ a b c, n.isFinite a = true → n.isFinite b = true → n.isFinite c = true →
    n.flt a b = true → n.flt b c = true → n.flt a c = true
  /-- N1: `flt` is total: of two different values one is less, but for the two zeros. -/
  lt_total : ∀ a b, n.isFinite a = true → n.isFinite b = true → a ≠ b → n.flt a b = true ∨ n.flt b a = true ∨
    n.feq a (n.ofInt 0) = true ∧ n.feq b (n.ofInt 0) = true
  /-- N1: the values identified as zero are `+0` and `-0`, two at most. -/
  zeros_two : ∀ a b c, n.isFinite a = true → n.isFinite b = true → n.isFinite c = true →
    n.feq a (n.ofInt 0) = true → n.feq b (n.ofInt 0) = true → n.feq c (n.ofInt 0) = true → a = b ∨ a = c ∨ b = c
  /-- N1: `feq` holds exactly where neither is less. -/
  eq_iff : ∀ a b, n.isFinite a = true → n.isFinite b = true →
    (n.feq a b = true ↔ n.flt a b = false ∧ n.flt b a = false)
  /-- N1: `flt` respects `feq`: what is not less composes. -/
  not_lt_trans : ∀ a b c, n.isFinite a = true → n.isFinite b = true → n.isFinite c = true →
    n.flt b a = false → n.flt c b = false → n.flt c a = false
  /-- N2: `of_int` is finite, monotone and so injective on its domain. -/
  int_finite : ∀ k, k ≤ 2046 → n.isFinite (n.ofInt k) = true
  int_strictMono : ∀ j k, k ≤ 2046 → j < k → n.flt (n.ofInt j) (n.ofInt k) = true
  /-- N3: a difference of equals is zero. -/
  sub_self : ∀ a, n.isFinite a = true → n.feq (n.fsub a a) (n.ofInt 0) = true
  /-- N3: no difference underflows to zero. -/
  sub_zero_iff : ∀ a b, n.isFinite a = true → n.isFinite b = true →
    (n.feq (n.fsub a b) (n.ofInt 0) = true ↔ n.feq a b = true)
  /-- N4: `d / d` is 1 exactly. -/
  div_self : ∀ d, n.isFinite d = true → n.flt (n.ofInt 0) d = true → n.fdiv d d = n.ofInt 1
  /-- N4: a zero divided is zero. -/
  zero_div : ∀ z d, n.isFinite z = true → n.feq z (n.ofInt 0) = true → n.isFinite d = true →
    n.flt (n.ofInt 0) d = true → n.feq (n.fdiv z d) (n.ofInt 0) = true
  /-- N5: subtraction is monotone. -/
  sub_mono : ∀ a b m, n.isFinite a = true → n.isFinite b = true → n.isFinite m = true →
    n.flt b a = false → n.flt (n.fsub b m) (n.fsub a m) = false
  /-- N5: division by a positive value is monotone. -/
  div_mono : ∀ a b d, n.isFinite a = true → n.isFinite b = true → n.isFinite d = true →
    n.flt (n.ofInt 0) d = true → n.flt b a = false → n.flt (n.fdiv b d) (n.fdiv a d) = false
  /-- N6: the logarithm of a finite positive value is finite. -/
  ln_finite : ∀ s, n.isFinite s = true → n.flt (n.ofInt 0) s = true → n.isFinite (n.fln s) = true
  /-- N7: multiplying by 1 changes nothing. -/
  one_mul : ∀ x, n.isFinite x = true → n.fmul (n.ofRat 1) x = x

/-- One end-to-end scenario of N8: "a synthetic minimal mosaic grid … with a known color matrix". -/
structure Scenario where
  geom : Geometry
  /-- The matrix as rationals, which each `NUM` converts by its own `of_rat`. -/
  ccm : Rgb (Rgb Rat)
  /-- The sample at each row and column. -/
  mosaic : Nat → Nat → Nat

/-- The three float stages on a mosaic, each element a function of the one before (R71). -/
def imagePipeline {F : Type} (n : Num F) (g : Geometry) (k : Consts F) (m : Nat → Nat → Nat) : Except Cause (Toned F) :=
  tonemapImage n k.logOffset (imageOf g fun r c => correctPixel n k.ccm (demosaicPixel n k m r c))

/-- A scenario under one `NUM`, with the source's constants and the scenario's matrix. -/
def Scenario.under {F : Type} (sc : Scenario) (n : Num F) : Except Cause (Toned F) :=
  imagePipeline n sc.geom (sourceConsts n (rgbMap (rgbMap n.ofRat) sc.ccm)) sc.mosaic

/-- The scenario of N8 that the spec gives: program P1 of 95_test_vectors.md, its "instance of the scenario" (S7), with
TCFG's geometry, the matrix `CCM_T` and the mosaic `M_A` (10, 20, 30, … row by row). -/
def endToEnd : Scenario where
  geom :=
    { dumpLen := 43, magic := #v[0x54, 0x53, 0x54, 0x30], hdrLen := 8, bufRows := 5, stride := 7, actRows := 4
      actBytes := 5, inCap := 64 }
  ccm := ⟨⟨3 / 2, -1 / 4, 0⟩, ⟨-1 / 2, 5 / 4, -1 / 4⟩, ⟨0, -1 / 2, 3 / 2⟩⟩
  mosaic := fun r c => 10 * (4 * r + c + 1)

/-- What an instantiation of `NUM` states about itself, for N2 and N8 of R106: which real number each finite value is,
how far each operation may be from the exact result, and on which scenarios it claims the end-to-end figure beyond the
one that every instantiation must meet it on (log entry 22: the spec fixes none of these for a general `NUM`). -/
structure Accuracy (F : Type) where
  value : F → ℝ
  addBound : F → F → ℝ
  subBound : F → F → ℝ
  mulBound : F → F → ℝ
  divBound : F → F → ℝ
  /-- `LN_TOL` (R107), which may depend on the argument. -/
  lnTol : F → ℝ
  scenarios : Set Scenario

/-- The end-to-end figure of N8 on one scenario: the pipeline's output, `F2`, and the exact reference's both exist and agree
within 1e-6, element by element. -/
def meetsFigure {F : Type} (n : Num F) (value : F → ℝ) (sc : Scenario) : Prop :=
  ∃ t u, sc.under n = .ok t ∧ sc.under realNum = .ok u ∧
    List.Forall₂ (fun (x : F) (y : ℝ) => |value x - y| ≤ 1 / 1000000) t.out u.out

/-- N1 to N7 of R106, with the exactness of N2, and N8 for each operation: within the bound that the instantiation states. -/
structure NumAccurate {F : Type} (n : Num F) (a : Accuracy F) : Prop extends NumLawful n where
  /-- N2: `of_int` is exact on its domain. -/
  int_exact : ∀ k, k ≤ 2046 → a.value (n.ofInt k) = k
  /-- N1, R100: `flt` is the less-than of the values. -/
  lt_iff : ∀ x y, n.isFinite x = true → n.isFinite y = true → (n.flt x y = true ↔ a.value x < a.value y)
  /-- N8, each operation, where its result is finite. -/
  add_error : ∀ x y, n.isFinite x = true → n.isFinite y = true → n.isFinite (n.fadd x y) = true →
    |a.value (n.fadd x y) - (a.value x + a.value y)| ≤ a.addBound x y
  sub_error : ∀ x y, n.isFinite x = true → n.isFinite y = true → n.isFinite (n.fsub x y) = true →
    |a.value (n.fsub x y) - (a.value x - a.value y)| ≤ a.subBound x y
  mul_error : ∀ x y, n.isFinite x = true → n.isFinite y = true → n.isFinite (n.fmul x y) = true →
    |a.value (n.fmul x y) - a.value x * a.value y| ≤ a.mulBound x y
  div_error : ∀ x y, n.isFinite x = true → n.isFinite y = true → a.value y ≠ 0 → n.isFinite (n.fdiv x y) = true →
    |a.value (n.fdiv x y) - a.value x / a.value y| ≤ a.divBound x y
  /-- N8 and R107: the logarithm of a finite positive value. -/
  ln_error : ∀ s, n.isFinite s = true → n.flt (n.ofInt 0) s = true →
    |a.value (n.fln s) - Real.log (a.value s)| ≤ a.lnTol s

/-- Every property R106 requires of a `NUM`, N1 to N8. The end-to-end figure is required of every instantiation, fixed-point
or not, on the spec's own scenario (log entry 22). -/
structure NumAdmissible {F : Type} (n : Num F) (a : Accuracy F) : Prop extends NumAccurate n a where
  /-- N8: the output of the spec's scenario is within 1e-6 of the exact one. -/
  end_to_end : meetsFigure n a.value endToEnd
  /-- N8: and so it is on every scenario that the instantiation claims beyond it. -/
  claimed : ∀ sc ∈ a.scenarios, meetsFigure n a.value sc

/-- What `REAL` states: no error at all (R105, R107: `LN_TOL = 0`), and the figure on every scenario that does not
fault. -/
noncomputable def realAccuracy : Accuracy ℝ where
  value := id
  addBound := fun _ _ => 0
  subBound := fun _ _ => 0
  mulBound := fun _ _ => 0
  divBound := fun _ _ => 0
  lnTol := fun _ => 0
  scenarios := { sc | ∃ t, sc.under realNum = .ok t }

/-- A unit in the last place of a finite binary64 value: 2^-1074 for a zero or a subnormal, else 2^(e - 1075) for the
exponent field `e`. -/
noncomputable def B64.ulp (x : F64) : ℝ := 2 ^ (B64.magBits x / 2 ^ 52 - 1) / 2 ^ 1074

/-- What `B64` states (N8): half a unit in the last place of the result, and a whole one for the logarithm, the distance
of two neighbours (R107). Beyond the spec's scenario it claims the end-to-end figure on none. -/
noncomputable def b64Accuracy : Accuracy F64 where
  value := B64.toReal
  addBound := fun x y => B64.ulp (B64.fadd x y) / 2
  subBound := fun x y => B64.ulp (B64.fsub x y) / 2
  mulBound := fun x y => B64.ulp (B64.fmul x y) / 2
  divBound := fun x y => B64.ulp (B64.fdiv x y) / 2
  lnTol := fun s => B64.ulp (B64.fln s)
  scenarios := ∅

/-- A valid whole `CFG` (R232): valid plain data, encodings of `fw` bits, and an admissible `NUM`. -/
structure FullCfg.valid {fw : Nat} (c : FullCfg fw) (a : Accuracy (BitVec fw)) : Prop where
  data : cfgValid c.num c.params = true
  width : c.num.fw = some fw
  num : NumAdmissible c.num a

end Sys2Proof.Machine
end

