-- ==== Sys2Proof/Safety.lean ====
section
/-! DEFINITION. The terms in which claims about the machine are stated: the invariants of its state (10_state.md R22 to
R29), and what a stage reads and writes as pure functions of a frame. -/

namespace Sys2Proof.Machine

/-- Every memory is in its canonical form. -/
def Block.State.canonical {fw : Nat} (s : Block.State fw) : Prop :=
  Memory.wf s.ibuf ∧ Memory.wf s.mosaic ∧ Memory.wf s.f0 ∧ Memory.wf s.f1 ∧ Memory.wf s.f2

/-- Every listed element of a memory has an element number below `n` (R53). -/
def Memory.inside {w : Nat} (m : Memory w) (n : Nat) : Prop := ∀ c ∈ m, c.1 < n

/-- No memory lists an element outside its space (R50, R53). -/
def Block.State.insideSpaces {fw : Nat} (s : Block.State fw) : Prop :=
  Memory.inside s.ibuf (spaceSize s.cfg.geom .ibuf) ∧ Memory.inside s.mosaic (spaceSize s.cfg.geom .mosaic) ∧
  Memory.inside s.f0 (spaceSize s.cfg.geom .f0) ∧ Memory.inside s.f1 (spaceSize s.cfg.geom .f1) ∧
  Memory.inside s.f2 (spaceSize s.cfg.geom .f2)

/-- `ERR` holds 0 or one of the six codes (R201: "Every value not in the table is never written to `ERR`"). -/
def Block.State.errKnown {fw : Nat} (s : Block.State fw) : Prop := s.err = 0 ∨ ∃ c : Cause, s.err = causeCode c

/-- The shape of every reachable state: a valid `CFG` (R232), canonical memories inside their spaces, `IN_LEN` within
the capacity (R26), an idle block (R29) and a known `ERR` (R201). -/
structure Block.State.shaped (s : Block.State 64) : Prop where
  cfg : cfgValid b64 s.cfg = true
  canonical : s.canonical
  inside : s.insideSpaces
  len : s.inLen.toNat ≤ s.cfg.geom.inCap
  idle : s.busy = false
  err : s.errKnown

/-- A VALID `MOSAIC` holds 10-bit samples only (R23). -/
def Block.State.samplesTenBit {fw : Nat} (s : Block.State fw) : Prop :=
  s.valid.mosaic = true → ∀ e, e < s.cfg.geom.mosaicCount → (Memory.read s.mosaic e).toNat ≤ 1023

/-- A VALID `F0` holds finite values only (R24). -/
def Block.State.rawFinite (s : Block.State 64) : Prop :=
  s.valid.f0 = true → ∀ e, e < s.cfg.geom.imageCount → B64.isFinite (Memory.read s.f0 e) = true

/-- A finite value `x` with `0 <= x <= 1` (R24, R179). -/
def inUnitInterval {F : Type} (n : Num F) (x : F) : Prop :=
  n.isFinite x = true ∧ n.flt x (n.ofInt 0) = false ∧ n.flt (n.ofInt 1) x = false

/-- A VALID `F2` holds values in [0, 1] only (R24, R179). -/
def Block.State.normalised (s : Block.State 64) : Prop :=
  s.valid.f2 = true → ∀ e, e < s.cfg.geom.imageCount → inUnitInterval b64 (Memory.read s.f2 e)

/-- The flags after an accepted stage command or LOAD whose output is `b` and which completes (R27). -/
def flagsDone (v : ValidFlags) (b : Space) : ValidFlags := setValid (invalidateFrom v b) b

/-- The output buffer of a stage command; the register space for the two commands that are no stage (R82). -/
def stageOutput : Instr → Space
  | .unpack => .mosaic
  | .demosaic => .f0
  | .correct => .f1
  | .tonemap => .f2
  | .run => .csr
  | .clear => .csr

/-- The input buffer of a stage command; RUN's is that of its first stage (R82, R190). -/
def stageInput : Instr → Space
  | .unpack => .ibuf
  | .demosaic => .mosaic
  | .correct => .f0
  | .tonemap => .f1
  | .run => .ibuf
  | .clear => .csr

/-- The place of a buffer along the pipeline (R27). -/
def pipelineRank : Space → Nat
  | .csr => 0
  | .ibuf => 1
  | .mosaic => 2
  | .f0 => 3
  | .f1 => 4
  | .f2 => 5

/-- The retained window's first byte, `base` (R121). -/
def windowBase {fw : Nat} (s : Block.State fw) : Nat := s.inLen.toNat - s.cfg.geom.dumpLen

/-- A pixel of an image given in element order (R51). -/
def pixelOf (g : Geometry) (xs : List F64) (r c : Nat) : Rgb F64 :=
  ⟨xs.getD (g.imageIndex r c 0) 0, xs.getD (g.imageIndex r c 1) 0, xs.getD (g.imageIndex r c 2) 0⟩

/-- The image `F0` of a mosaic given in element order (R141). -/
def rawImageOf (c : Cfg) (samples : List Sample) : List F64 :=
  imageOf c.geom (demosaicPixel b64 c.consts fun r k => (samples.getD (c.geom.mosaicIndex r k) 0).toNat)

/-- The image `F1` of an image `F0` (R160). -/
def correctedImageOf (c : Cfg) (raw : List F64) : List F64 :=
  imageOf c.geom fun r k => correctPixel b64 c.consts.ccm (pixelOf c.geom raw r k)

/-- A memory that reads as the given elements, and elsewhere as another one. -/
def Memory.holds {w : Nat} (m : Memory w) (vs : List (BitVec w)) (old : Memory w) : Prop :=
  ∀ e, Memory.read m e = if e < vs.length then vs.getD e 0 else Memory.read old e

end Sys2Proof.Machine
end

