-- ==== Sys2Proof/Certificates/Slice0/Obligations.lean ====
section
/-! DEFINITION. The statements for the provers, from the numbered rules of the spec. A statement about a stage's
result gives the whole next state: what it names is written, everything else is as before.

Three things in these statements are the model's choice and rest on no rule: the field `response` (what the host got
back, log entry 10), the field `draws` (log entry 4), and that a refused transaction is a next state that changes
nothing of the block, where R66 would give it no step (log entry 9).

Statements about `exec`, `transact` and `step` are about the block with the default `NUM`, `B64` (R11, log entry 11);
what the stages do in a block with any `NUM` is stated at the end. -/

open Sys2Proof Sys2Proof.Machine

/-! The words of the commands (30_encoding.md). -/

/-- R82, R83: the six words, and reserved words next to them, read off the table. -/
def Obligations.TableWordsDecode : Prop :=
  decode 0x00000001 = .ok .unpack ∧ decode 0x00000002 = .ok .demosaic ∧ decode 0x00000003 = .ok .correct ∧
  decode 0x00000004 = .ok .tonemap ∧ decode 0x00000005 = .ok .run ∧ decode 0x00000006 = .ok .clear ∧
  decode 0x00000000 = .error (.reservedOpcode 0x00000000) ∧ decode 0x00000007 = .error (.reservedOpcode 0x00000007) ∧
  decode 0x00000106 = .error (.reservedBits 0x00000106) ∧ decode 0x80000005 = .error (.reservedBits 0x80000005)

/-- R82: a word selects a command exactly when it is that command's word, over all 2^32 words. -/
def Obligations.DecodeEncodeAgree : Prop :=
  ∀ (w : Word) (i : Instr), decode w = .ok i ↔ w = encode i

/-- R83: every word other than 1 to 6 is reserved, and no other; the reason named is the one that holds. -/
def Obligations.ReservedWordsAreAllOthers : Prop :=
  ∀ w : Word,
    (decode w = .error (.reservedBits w) ↔ 256 ≤ w.toNat) ∧
    (decode w = .error (.reservedOpcode w) ↔ w.toNat < 256 ∧ ¬ (1 ≤ w.toNat ∧ w.toNat ≤ 6)) ∧
    ((∃ i, decode w = .ok i) ↔ 1 ≤ w.toNat ∧ w.toNat ≤ 6)

/-- R3, R70: a step carries out the host's next transaction, whichever it is, whole, on the state with that transaction
taken off the script. R33, R85: a write to `CMD` is `writeCmd`, and where its word decodes to a command the step is that
command. R225: with no transaction to carry out nothing changes (log entry 16). The script is the model's own field
(DESIGN CHOICE, log entry 8). -/
def Obligations.StepRunsDecodedCommand : Prop :=
  (∀ (s : State) (x : Transaction) (rest : List Transaction),
    s.script = x :: rest → step s = transact x { s with script := rest }) ∧
  (∀ (s : State) (w : Word), transact (.writeCsr 0 w) s = writeCmd w s) ∧
  (∀ (s : State) (w : Word) (i : Instr) (rest : List Transaction),
    s.script = .writeCsr 0 w :: rest → decode w = .ok i → step s = exec i { s with script := rest }) ∧
  (∀ s : State, s.script = [] → step s = .next s)

/-- R194: an accepted reserved word writes 0x40 to `ERR` and changes nothing else; while `ERR` is not 0 it is refused
and `ERR` keeps its code. -/
def Obligations.ReservedWordFaults : Prop :=
  ∀ (s : State) (w : Word) (e : DecodeError) (rest : List Transaction),
    s.script = .writeCsr 0 w :: rest → decode w = .error e → s.busy = false →
    (s.err = 0 → step s = .next { s with script := rest, err := 0x40, response := .done }) ∧
    (s.err ≠ 0 → step s = .next { s with script := rest, response := .refused })

/-- R84, R85: the decoder summary, total on all words and all states. -/
def Obligations.CommandWriteFollowsDecoder : Prop :=
  ∀ (w : Word) (s : State),
    (s.busy = true → writeCmd w s = .next { s with response := .refused }) ∧
    (s.busy = false → s.err ≠ 0 → w ≠ 6 → writeCmd w s = .next { s with response := .refused }) ∧
    (s.busy = false → s.err = 0 →
      (w = 1 → writeCmd w s = exec .unpack s) ∧ (w = 2 → writeCmd w s = exec .demosaic s) ∧
      (w = 3 → writeCmd w s = exec .correct s) ∧ (w = 4 → writeCmd w s = exec .tonemap s) ∧
      (w = 5 → writeCmd w s = exec .run s) ∧
      (¬ (1 ≤ w.toNat ∧ w.toNat ≤ 6) → writeCmd w s = .next { s with err := 0x40, response := .done })) ∧
    (s.busy = false → w = 6 → writeCmd w s = exec .clear s)

/-! Reset (10_state.md R40, 70_reset_and_hazards.md R230, R231). -/

/-- R40: the values the spec gives the state after reset. -/
def Obligations.ResetStateValues : Prop :=
  State.reset.valid = ⟨false, false, false, false, false⟩ ∧ State.reset.err = 0x00 ∧ State.reset.inLen = 0 ∧
  State.reset.busy = false ∧ statusWord State.reset = 0

/-- R231, R192: in an idle state the reset event and CLEAR leave the same state. R230: the event leaves all flags,
`ERR`, `IN_LEN` and `BUSY` 0 and `CFG` as it was; that it is carried out in every state, also with `BUSY = 1`, where R66
refuses accesses, is the model's reading (DEDUCED, log entry 17). `response` is the model's field (log entry 10). -/
def Obligations.ResetEventEqualsClear : Prop :=
  ∀ s : State, (s.busy = false → transact .reset s = exec .clear s) ∧
    ∃ t, transact .reset s = .next t ∧ t.valid = ⟨false, false, false, false, false⟩ ∧ t.err = 0 ∧ t.inLen = 0 ∧
      t.busy = false ∧ t.cfg = s.cfg

/-! The Raw Unpacker (41_unpack.md). -/

/-- R120, R126: UNPACK of a long enough frame with its marker. The sample at row `r`, column `4q + p` is the data byte
`5q + p` of the row shifted left by 2, with bits 7-2p and 6-2p of the block's fifth byte below. The flags
and the frame are R27 and R120; `response` is the model's field (DESIGN CHOICE, log entry 10). -/
def Obligations.UnpackWritesSamples : Prop :=
  ∀ s : State, s.accepts → s.valid.ibuf = true → Memory.wf s.mosaic → s.cfg.geom.dumpLen ≤ s.inLen.toNat →
    (∀ k (hk : k < 4), Memory.read s.ibuf (windowBase s + k) = s.cfg.geom.magic[k]) →
    ∃ m : Memory 16,
      exec .unpack s = .next { s with
        mosaic := m
        valid := { s.valid with mosaic := true, f0 := false, f1 := false, f2 := false }
        response := .done } ∧
      (∀ r c, r < s.cfg.geom.h → c < s.cfg.geom.w →
        Memory.read m (r * s.cfg.geom.w + c) =
          ((Memory.read s.ibuf (windowBase s + s.cfg.geom.hdrLen + r * s.cfg.geom.stride + 5 * (c / 4) + c % 4)).setWidth 16
              <<< 2) |||
          ((Memory.read s.ibuf (windowBase s + s.cfg.geom.hdrLen + r * s.cfg.geom.stride + 5 * (c / 4) + 4)
              >>> (6 - 2 * (c % 4))) &&& 0b11).setWidth 16) ∧
      (∀ e, s.cfg.geom.mosaicCount ≤ e → Memory.read m e = Memory.read s.mosaic e)

/-- R127: a sample is four times its data byte plus the 2-bit field of its position; it is at most 1023, and every
value 0 to 1023 is that of some data byte and fifth byte. -/
def Obligations.SampleIsTenBitNumber : Prop :=
  ∀ p, p < 4 →
    (∀ b b4 : Byte, (unpackSample b b4 p).toNat = 4 * b.toNat + b4.toNat / 2 ^ (6 - 2 * p) % 4 ∧
      (unpackSample b b4 p).toNat ≤ 1023) ∧
    (∀ v, v ≤ 1023 → ∃ b b4 : Byte, (unpackSample b b4 p).toNat = v)

/-- R121, R202: a frame shorter than the dump faults with 0x10, in UNPACK and in RUN; no sample is written. The flags
and the frame are R27 and R210; `response` is the model's field (DESIGN CHOICE, log entry 10). That
`MOSAIC` keeps what it held is the model's choice (DESIGN CHOICE, log entry 7): R210 and U8 leave it unspecified. -/
def Obligations.UnpackShortInputFaults : Prop :=
  ∀ (s : State) (i : Instr), i = .unpack ∨ i = .run → s.accepts → s.valid.ibuf = true →
    s.inLen.toNat < s.cfg.geom.dumpLen →
    exec i s = .next { s with
      valid := { s.valid with mosaic := false, f0 := false, f1 := false, f2 := false }
      err := 0x10
      response := .done }

/-- R122, R203: a retained window whose first four bytes differ from the marker faults with 0x11, in UNPACK and in
RUN; no sample is written. The flags and the frame are R27 and R210; `response` is the model's field (DESIGN CHOICE, log
entry 10). That
`MOSAIC` keeps what it held is the model's choice (DESIGN CHOICE, log entry 7): R210 and U8 leave it unspecified. -/
def Obligations.UnpackMagicMismatchFaults : Prop :=
  ∀ (s : State) (i : Instr) (k : Nat) (hk : k < 4), i = .unpack ∨ i = .run → s.accepts → s.valid.ibuf = true →
    s.cfg.geom.dumpLen ≤ s.inLen.toNat → Memory.read s.ibuf (windowBase s + k) ≠ s.cfg.geom.magic[k] →
    exec i s = .next { s with
      valid := { s.valid with mosaic := false, f0 := false, f1 := false, f2 := false }
      err := 0x11
      response := .done }

/-- R129: for a valid geometry every byte index of the active area lies inside the loaded bytes, and every mosaic
element number inside the mosaic. -/
def Obligations.UnpackIndicesInRange : Prop :=
  ∀ (g : Geometry) (len : Nat), g.wellFormed = true → g.dumpLen ≤ len →
    (∀ k, k < 4 → len - g.dumpLen + k < len) ∧
    (∀ r j, r < g.h → j < g.actBytes → len - g.dumpLen + g.hdrLen + r * g.stride + j < len) ∧
    (∀ r c, r < g.h → c < g.w →
      5 * (c / 4) + c % 4 < g.actBytes ∧ 5 * (c / 4) + 4 < g.actBytes ∧ g.mosaicIndex r c < g.mosaicCount)

/-- R130: leading bytes, header bytes after the marker and padding bytes do not influence the result: two states that
agree but for such bytes end in states that agree but for them. -/
def Obligations.UnpackIgnoresUnreadBytes : Prop :=
  ∀ (s u : State), s.cfg.geom.wellFormed = true → u = { s with ibuf := u.ibuf } →
    (∀ k, k < 4 → Memory.read u.ibuf (windowBase s + k) = Memory.read s.ibuf (windowBase s + k)) →
    (∀ r j, r < s.cfg.geom.h → j < s.cfg.geom.actBytes →
      Memory.read u.ibuf (windowBase s + s.cfg.geom.hdrLen + r * s.cfg.geom.stride + j) =
        Memory.read s.ibuf (windowBase s + s.cfg.geom.hdrLen + r * s.cfg.geom.stride + j)) →
    ∃ t, exec .unpack s = .next t ∧ exec .unpack u = .next { t with ibuf := u.ibuf }

/-! The Bayer Demosaicer (42_demosaic.md). -/

/-- R140, R142: the one red and the one blue site of the window of a pixel are of their colour, the two green sites
are green and on one diagonal, and the four are the four sites of the window. -/
def Obligations.DemosaicSitesHaveTheirColour : Prop :=
  ∀ r c : Nat,
    siteColour (redSite r c).1 (redSite r c).2 = .red ∧ siteColour (blueSite r c).1 (blueSite r c).2 = .blue ∧
    siteColour (greenSites r c).1.1 (greenSites r c).1.2 = .green ∧
    siteColour (greenSites r c).2.1 (greenSites r c).2.2 = .green ∧
    (greenSites r c).1.1 ≠ (greenSites r c).2.1 ∧ (greenSites r c).1.2 ≠ (greenSites r c).2.2 ∧
    (∀ site, site ∈ [(r, c), (r, c + 1), (r + 1, c), (r + 1, c + 1)] ↔
      site ∈ [redSite r c, blueSite r c, (greenSites r c).1, (greenSites r c).2])

/-- R140: the colour of every site by the parities of its row and column. -/
def Obligations.MosaicLayoutByParity : Prop :=
  ∀ i j : Nat, siteColour (2 * i) (2 * j) = .green ∧ siteColour (2 * i) (2 * j + 1) = .blue ∧
    siteColour (2 * i + 1) (2 * j) = .red ∧ siteColour (2 * i + 1) (2 * j + 1) = .green

/-- R141, R143, R144: DEMOSAIC of a VALID mosaic, each pixel by its parity case. The flags are R27; `response` is the
model's field (DESIGN CHOICE, log entry 10). -/
def Obligations.DemosaicWritesPixels : Prop :=
  ∀ s : State, s.accepts → s.valid.mosaic = true → Memory.wf s.f0 →
    ∃ m : Memory 64,
      exec .demosaic s = .next { s with
        f0 := m, valid := { s.valid with f0 := true, f1 := false, f2 := false }, response := .done } ∧
      (∀ r c, r < s.cfg.geom.h - 1 → c < s.cfg.geom.w - 1 →
        let v := fun i j => (Memory.read s.mosaic (i * s.cfg.geom.w + j)).toNat
        let pixel := fun (red g1 g2 blue : Nat) =>
          pixelAt s.cfg.geom m r c =
            ⟨B64.fmul s.cfg.consts.wr (B64.ofInt red),
             B64.fmul (B64.fmul s.cfg.consts.half s.cfg.consts.wg) (B64.ofInt (g1 + g2)),
             B64.fmul s.cfg.consts.wb (B64.ofInt blue)⟩
        (r % 2 = 0 → c % 2 = 0 → pixel (v (r + 1) c) (v r c) (v (r + 1) (c + 1)) (v r (c + 1))) ∧
        (r % 2 = 0 → c % 2 = 1 → pixel (v (r + 1) (c + 1)) (v r (c + 1)) (v (r + 1) c) (v r c)) ∧
        (r % 2 = 1 → c % 2 = 0 → pixel (v r c) (v (r + 1) c) (v r (c + 1)) (v (r + 1) (c + 1))) ∧
        (r % 2 = 1 → c % 2 = 1 → pixel (v r (c + 1)) (v (r + 1) (c + 1)) (v r c) (v (r + 1) c))) ∧
      (∀ e, s.cfg.geom.imageCount ≤ e → Memory.read m e = Memory.read s.f0 e)

/-- R143: the pixel under `REAL` with the source's weights. -/
def Obligations.DemosaicRealReference : Prop :=
  ∀ (ccm : Rgb (Rgb ℝ)) (m : Nat → Nat → Nat) (r c : Nat),
    demosaicPixel realNum (sourceConsts realNum ccm) m r c =
      ⟨sampleOf m (redSite r c),
       7 * ((sampleOf m (greenSites r c).1 : ℝ) + sampleOf m (greenSites r c).2) / 20,
       9 * (sampleOf m (blueSite r c) : ℝ) / 10⟩

/-- R103, R143: the encodings of the converted constants and of the green factor. -/
def Obligations.ConstantEncodings : Prop :=
  B64.ofRat 1 = 0x3FF0000000000000 ∧ B64.ofRat (1 / 2) = 0x3FE0000000000000 ∧ B64.ofRat 80 = 0x4054000000000000 ∧
  B64.ofRat (7 / 10) = 0x3FE6666666666666 ∧ B64.ofRat (9 / 10) = 0x3FECCCCCCCCCCCCD ∧
  B64.fmul (B64.ofRat (1 / 2)) (B64.ofRat (7 / 10)) = 0x3FD6666666666666

/-! The Color Corrector (43_correct.md). -/

/-- R160, R161: CORRECT of a VALID `F0`: output channel `j` is the row vector times column `j`, the products added
left to right. The flags are R27; `response` is the model's field (DESIGN CHOICE, log entry 10). -/
def Obligations.CorrectWritesProducts : Prop :=
  ∀ s : State, s.accepts → s.valid.f0 = true → Memory.wf s.f1 →
    ∃ m : Memory 64,
      exec .correct s = .next { s with
        f1 := m, valid := { s.valid with f1 := true, f2 := false }, response := .done } ∧
      (∀ r c, r < s.cfg.geom.h - 1 → c < s.cfg.geom.w - 1 →
        let x := pixelAt s.cfg.geom s.f0 r c
        let q := s.cfg.consts.ccm
        let dot := fun (a b d : F64) => B64.fadd (B64.fadd (B64.fmul x.r a) (B64.fmul x.g b)) (B64.fmul x.b d)
        pixelAt s.cfg.geom m r c = ⟨dot q.r.r q.g.r q.b.r, dot q.r.g q.g.g q.b.g, dot q.r.b q.g.b q.b.b⟩) ∧
      (∀ e, s.cfg.geom.imageCount ≤ e → Memory.read m e = Memory.read s.f1 e)

/-- R164: under `REAL` the transform is linear. -/
def Obligations.CorrectLinearReal : Prop :=
  ∀ (q : Rgb (Rgb ℝ)) (x y : Rgb ℝ) (a b : ℝ),
    let mix := fun u v : Rgb ℝ => (⟨a * u.r + b * v.r, a * u.g + b * v.g, a * u.b + b * v.b⟩ : Rgb ℝ)
    correctPixel realNum q (mix x y) = mix (correctPixel realNum q x) (correctPixel realNum q y)

/-- R164: the identity matrix leaves every finite pixel equal as numbers, under `B64`. -/
def Obligations.CorrectIdentityMatrix : Prop :=
  ∀ x : Rgb F64, rgbAll B64.isFinite x = true →
    let one := B64.ofRat 1
    let zero := B64.ofRat 0
    let y := correctPixel b64 ⟨⟨one, zero, zero⟩, ⟨zero, one, zero⟩, ⟨zero, zero, one⟩⟩ x
    B64.feq y.r x.r = true ∧ B64.feq y.g x.g = true ∧ B64.feq y.b x.b = true

/-! The Tone Mapper (44_tonemap.md). -/

/-- R170, R172, R175, R177: TONEMAP of a VALID `F1` whose every sum is in the domain and whose reduced range is not
zero. -/
def Obligations.TonemapWritesNormalisedImage : Prop :=
  ∀ s : State, s.accepts → s.valid.f1 = true → Memory.wf s.f2 →
    let logs := (imageElems s.cfg.geom s.f1).map fun v => B64.fln (B64.fadd v s.cfg.consts.logOffset)
    let mn := leastOf b64 logs
    let mx := greatestOf b64 logs
    (∀ e, e < s.cfg.geom.imageCount →
      B64.isFinite (B64.fadd (Memory.read s.f1 e) s.cfg.consts.logOffset) = true ∧
      B64.flt (B64.ofInt 0) (B64.fadd (Memory.read s.f1 e) s.cfg.consts.logOffset) = true) →
    B64.feq mx mn = false →
    ∃ m : Memory 64,
      exec .tonemap s = .next { s with
        f2 := m, minReg := mn, maxReg := mx, valid := { s.valid with f2 := true }, response := .done } ∧
      (∀ e, e < s.cfg.geom.imageCount →
        Memory.read m e =
          B64.fdiv (B64.fsub (B64.fln (B64.fadd (Memory.read s.f1 e) s.cfg.consts.logOffset)) mn) (B64.fsub mx mn)) ∧
      (∀ e, s.cfg.geom.imageCount ≤ e → Memory.read m e = Memory.read s.f2 e)

/-- R173, R180, R204: one element out of the domain makes TONEMAP fault with 0x20, whatever the others are; `F2`, `MIN`
and `MAX` are unspecified, and everything else is as before. -/
def Obligations.TonemapDomainFaults : Prop :=
  ∀ (s : State) (e : Nat), s.accepts → s.valid.f1 = true → e < s.cfg.geom.imageCount →
    (B64.isFinite (B64.fadd (Memory.read s.f1 e) s.cfg.consts.logOffset) = false ∨
      B64.flt (B64.ofInt 0) (B64.fadd (Memory.read s.f1 e) s.cfg.consts.logOffset) = false) →
    ∃ (m : Memory 64) (lo hi : F64),
      exec .tonemap s = .next { s with
        f2 := m, minReg := lo, maxReg := hi, valid := { s.valid with f2 := false }, err := 0x20, response := .done }

/-- R177, R205: where every sum is in the domain and the reduced extremes are equal, TONEMAP faults with 0x21. -/
def Obligations.TonemapZeroRangeFaults : Prop :=
  ∀ s : State, s.accepts → s.valid.f1 = true →
    let logs := (imageElems s.cfg.geom s.f1).map fun v => B64.fln (B64.fadd v s.cfg.consts.logOffset)
    (∀ e, e < s.cfg.geom.imageCount →
      B64.isFinite (B64.fadd (Memory.read s.f1 e) s.cfg.consts.logOffset) = true ∧
      B64.flt (B64.ofInt 0) (B64.fadd (Memory.read s.f1 e) s.cfg.consts.logOffset) = true) →
    B64.feq (greatestOf b64 logs) (leastOf b64 logs) = true →
    ∃ (m : Memory 64) (lo hi : F64),
      exec .tonemap s = .next { s with
        f2 := m, minReg := lo, maxReg := hi, valid := { s.valid with f2 := false }, err := 0x21, response := .done }

/-- R174: over any `NUM` with the properties of R106, the reduction of a non-empty set of finite values gives a member
that no member is less than, and one that is less than no member. -/
def Obligations.ReductionFindsExtremes : Prop :=
  ∀ (F : Type) (n : Num F) (l : List F), NumLawful n → l ≠ [] → (∀ x ∈ l, n.isFinite x = true) →
    leastOf n l ∈ l ∧ greatestOf n l ∈ l ∧
    ∀ x ∈ l, n.flt x (leastOf n l) = false ∧ n.flt (greatestOf n l) x = false

/-- R110, R174: the reduction does not depend on the order of the elements. -/
def Obligations.ReductionOrderFree : Prop :=
  ∀ (F : Type) (n : Num F) (l k : List F), NumLawful n → l ≠ [] → (∀ x ∈ l, n.isFinite x = true) → l.Perm k →
    n.feq (leastOf n l) (leastOf n k) = true ∧ n.feq (greatestOf n l) (greatestOf n k) = true

/-- R179: over any `NUM` with the properties of R106 (and no overflow of a difference or a quotient), every output lies
in [0, 1], every element equal to the least logarithm gives 0, every one equal to the greatest gives 1, and each of
the two occurs. -/
def Obligations.TonemapBounds : Prop :=
  ∀ (F : Type) (n : Num F) (off : F) (xs : List F) (t : Toned F), NumLawful n → xs ≠ [] →
    tonemapImage n off xs = .ok t →
    (∀ a ∈ logImage n off xs, ∀ b ∈ logImage n off xs, n.isFinite (n.fsub a b) = true) →
    (∀ y ∈ t.out, n.isFinite y = true) →
    t.out.length = xs.length ∧
    (∀ y ∈ t.out, inUnitInterval n y) ∧
    (∀ v ∈ logImage n off xs, n.feq v t.mn = true → n.feq (normalise n t.mn t.mx v) (n.ofInt 0) = true) ∧
    (∀ v ∈ logImage n off xs, n.feq v t.mx = true → n.feq (normalise n t.mn t.mx v) (n.ofInt 1) = true) ∧
    (∃ y ∈ t.out, n.feq y (n.ofInt 0) = true) ∧ (∃ y ∈ t.out, n.feq y (n.ofInt 1) = true)

/-- R181, R205: an image with one value everywhere, inside the domain, has zero range; outside the domain it reports
LOG_DOMAIN, not ZERO_RANGE (R180). -/
def Obligations.UniformImageFaults : Prop :=
  ∀ (F : Type) (n : Num F) (off v : F) (k : Nat), NumLawful n → 0 < k →
    tonemapImage n off (List.replicate k v) =
      if inLogDomain n (n.fadd v off) = true then .error .zeroRange else .error .logDomain

/-! All stages, RUN and CLEAR (10_state.md R20, R27; 45_control.md; 60_exceptions.md). -/

/-- R206: a stage command whose input buffer is not VALID raises 0x30 after its chain invalidation, with nothing else
changed; RUN does so where no frame is loaded.
That the output buffer, and `MIN` and `MAX` after TONEMAP, keep what they held is the model's choice (DESIGN CHOICE, log
entry 7): R180, R210 and U8 leave them unspecified. `response` is the model's field (log entry 10). -/
def Obligations.StageInputNotValidFaults : Prop :=
  ∀ (s : State) (i : Instr), i ≠ .clear → s.accepts → validOf s.valid (stageInput i) = false →
    exec i s = .next { s with
      valid := invalidateFrom s.valid (if i = .run then .mosaic else stageOutput i)
      err := 0x30
      response := .done }

/-- R210: after a fault of a stage command its output buffer and every buffer downstream is not VALID, every flag
upstream is as before, and so is every buffer upstream; `ERR` holds one of the codes of the stages. -/
def Obligations.StageFaultLeavesNoOutput : Prop :=
  ∀ (s t : State) (i : Instr), i = .unpack ∨ i = .demosaic ∨ i = .correct ∨ i = .tonemap → s.accepts →
    exec i s = .next t → t.err ≠ 0 →
    (∀ b, pipelineRank (stageOutput i) ≤ pipelineRank b → validOf t.valid b = false) ∧
    (∀ b, pipelineRank b < pipelineRank (stageOutput i) → validOf t.valid b = validOf s.valid b) ∧
    t.ibuf = s.ibuf ∧ t.inLen = s.inLen ∧ (i ≠ .unpack → t.mosaic = s.mosaic) ∧
    (i = .correct ∨ i = .tonemap → t.f0 = s.f0) ∧ (i = .tonemap → t.f1 = s.f1) ∧
    t.err ∈ [0x10, 0x11, 0x20, 0x21, 0x30] ∧ t.busy = false

/-- R20, R71: what a stage writes depends on `CFG`, its input buffer with its flag, and (for UNPACK) `IN_LEN` alone,
whatever every other buffer holds. -/
def Obligations.StagesReadOnlyTheirInput : Prop :=
  ∀ s u : State, s.accepts → u.accepts → s.canonical → u.canonical → s.cfg = u.cfg →
    (s.ibuf = u.ibuf → s.inLen = u.inLen → s.valid.ibuf = u.valid.ibuf → ∃ t v, exec .unpack s = .next t ∧
      exec .unpack u = .next v ∧ t.err = v.err ∧ t.valid.mosaic = v.valid.mosaic ∧
      (t.err = 0 → ∀ e, e < s.cfg.geom.mosaicCount → Memory.read t.mosaic e = Memory.read v.mosaic e)) ∧
    (s.mosaic = u.mosaic → s.valid.mosaic = u.valid.mosaic → ∃ t v, exec .demosaic s = .next t ∧
      exec .demosaic u = .next v ∧ t.err = v.err ∧ t.valid.f0 = v.valid.f0 ∧
      (t.err = 0 → ∀ e, e < s.cfg.geom.imageCount → Memory.read t.f0 e = Memory.read v.f0 e)) ∧
    (s.f0 = u.f0 → s.valid.f0 = u.valid.f0 → ∃ t v, exec .correct s = .next t ∧
      exec .correct u = .next v ∧ t.err = v.err ∧ t.valid.f1 = v.valid.f1 ∧
      (t.err = 0 → ∀ e, e < s.cfg.geom.imageCount → Memory.read t.f1 e = Memory.read v.f1 e)) ∧
    (s.f1 = u.f1 → s.valid.f1 = u.valid.f1 → ∃ t v, exec .tonemap s = .next t ∧
      exec .tonemap u = .next v ∧ t.err = v.err ∧ t.valid.f2 = v.valid.f2 ∧
      (t.err = 0 → t.minReg = v.minReg ∧ t.maxReg = v.maxReg ∧
        ∀ e, e < s.cfg.geom.imageCount → Memory.read t.f2 e = Memory.read v.f2 e))

/-- R191: from any state, `CMD RUN` and the four stage commands in order end in the same state; only what the host got
back from the last transaction may differ (log entry 9). -/
def Obligations.RunEqualsStages : Prop :=
  ∀ (s : State) (rest : List Transaction), ∃ t u,
    Host.Core.run Sys2Proof.core 1 { s with script := scriptCmd .run :: rest } = .next t ∧
    Host.Core.run Sys2Proof.core 4 { s with script := scriptStages ++ rest } = .next u ∧
    Block.State.script t = rest ∧ u = { (t : State) with response := Block.State.response u }

/-- R190: a RUN in which no stage faults writes every buffer from the one before it, `MIN` and `MAX`, and leaves all
five flags 1. -/
def Obligations.RunWritesAllBuffers : Prop :=
  ∀ (s : State) (samples : List Sample) (t : Toned F64), s.accepts → s.canonical → s.valid.ibuf = true →
    unpackGrid s.cfg.geom (Memory.read s.ibuf) s.inLen.toNat = .ok samples →
    tonemapImage b64 s.cfg.consts.logOffset (correctedImageOf s.cfg (rawImageOf s.cfg samples)) = .ok t →
    ∃ (m : Memory 16) (a b c : Memory 64),
      exec .run s = .next { s with
        mosaic := m, f0 := a, f1 := b, f2 := c, minReg := t.mn, maxReg := t.mx
        valid := ⟨true, true, true, true, true⟩, response := .done } ∧
      m.holds samples s.mosaic ∧ a.holds (rawImageOf s.cfg samples) s.f0 ∧
      b.holds (correctedImageOf s.cfg (rawImageOf s.cfg samples)) s.f1 ∧ c.holds t.out s.f2

/-- R190, R210: a RUN whose tone mapper faults leaves the three earlier outputs complete with their flags 1, `V.F2` 0
and the tone mapper's code in `ERR`. -/
def Obligations.RunStopsAtTonemapFault : Prop :=
  ∀ (s : State) (samples : List Sample) (k : Cause), s.accepts → s.canonical → s.valid.ibuf = true →
    unpackGrid s.cfg.geom (Memory.read s.ibuf) s.inLen.toNat = .ok samples →
    tonemapImage b64 s.cfg.consts.logOffset (correctedImageOf s.cfg (rawImageOf s.cfg samples)) = .error k →
    ∃ (m : Memory 16) (a b c : Memory 64) (lo hi : F64),
      exec .run s = .next { s with
        mosaic := m, f0 := a, f1 := b, f2 := c, minReg := lo, maxReg := hi
        valid := ⟨true, true, true, true, false⟩, err := causeCode k, response := .done } ∧
      m.holds samples s.mosaic ∧ a.holds (rawImageOf s.cfg samples) s.f0 ∧
      b.holds (correctedImageOf s.cfg (rawImageOf s.cfg samples)) s.f1

/-- R192, R84: CLEAR, accepted whenever the block is idle, whatever `ERR` holds, discards the frame and leaves the fault
state; it cannot fault, and a second one changes nothing.
The buffers, `MIN` and `MAX` are not erased, though unspecified to the host (R192). -/
def Obligations.ClearDiscardsFrame : Prop :=
  ∀ s : State, s.busy = false →
    let t : State := { s with
      valid := ⟨false, false, false, false, false⟩, inLen := 0, err := 0, response := .done }
    exec .clear s = .next t ∧ exec .clear t = .next t

/-! Host transactions (20_memory.md, 10_state.md R32 to R37). -/

/-- R62: `LOAD IBUF` of at most `IN_CAP` bytes. -/
def Obligations.LoadIbufWritesFrame : Prop :=
  ∀ (s : State) (bytes : List Byte), s.accepts → Memory.wf s.ibuf → bytes.length ≤ s.cfg.geom.inCap →
    ∃ m : Memory 8,
      transact (.loadIbuf bytes) s = .next { s with
        ibuf := m, inLen := BitVec.ofNat 32 bytes.length
        valid := ⟨true, false, false, false, false⟩, response := .done } ∧
      ∀ i, i < bytes.length → Memory.read m i = bytes.getD i 0

/-- R63: `LOAD MOSAIC` of exactly `H * W` values in 0..1023. -/
def Obligations.LoadMosaicWritesGrid : Prop :=
  ∀ (s : State) (values : List Nat), s.accepts → Memory.wf s.mosaic → values.length = s.cfg.geom.mosaicCount →
    (∀ v ∈ values, v ≤ 1023) →
    ∃ m : Memory 16,
      transact (.loadMosaic values) s = .next { s with
        mosaic := m, valid := { s.valid with mosaic := true, f0 := false, f1 := false, f2 := false }
        response := .done } ∧
      ∀ e, e < s.cfg.geom.mosaicCount → (Memory.read m e).toNat = values.getD e 0

/-- R64: `LOAD F0` and `LOAD F1` of exactly `(H-1) * (W-1) * 3` finite values. -/
def Obligations.LoadImageWritesFloats : Prop :=
  ∀ (s : State) (values : List F64), s.accepts → s.canonical → values.length = s.cfg.geom.imageCount →
    (∀ v ∈ values, B64.isFinite v = true) →
    (∃ m : Memory 64,
      transact (.loadF0 values) s = .next { s with
        f0 := m, valid := { s.valid with f0 := true, f1 := false, f2 := false }, response := .done } ∧
      m.holds values s.f0) ∧
    (∃ m : Memory 64,
      transact (.loadF1 values) s = .next { s with
        f1 := m, valid := { s.valid with f1 := true, f2 := false }, response := .done } ∧
      m.holds values s.f1)

/-- R62 to R64, R66, R211: a LOAD while the block is busy or faulted, or whose data breaks its rule's conditions, is
refused with no state changed; so are `LOAD F2`, a write to a register other than `CMD`, and a read outside a space
(R32, R53). -/
def Obligations.OutsideTheRulesRefused : Prop :=
  ∀ s : State,
    (∀ bytes, ¬ s.accepts ∨ s.cfg.geom.inCap < bytes.length →
      transact (.loadIbuf bytes) s = .next { s with response := .refused }) ∧
    (∀ values, ¬ s.accepts ∨ values.length ≠ s.cfg.geom.mosaicCount ∨ (∃ v ∈ values, 1023 < v) →
      transact (.loadMosaic values) s = .next { s with response := .refused }) ∧
    (∀ values, ¬ s.accepts ∨ values.length ≠ s.cfg.geom.imageCount ∨ (∃ v ∈ values, B64.isFinite v = false) →
      transact (.loadF0 values) s = .next { s with response := .refused } ∧
      transact (.loadF1 values) s = .next { s with response := .refused }) ∧
    (∀ values, transact (.loadF2 values) s = .next { s with response := .refused }) ∧
    (∀ n w, n ≠ 0 → transact (.writeCsr n w) s = .next { s with response := .refused }) ∧
    (∀ sp i, spaceSize s.cfg.geom sp ≤ i → transact (.read sp i) s = .next { s with response := .refused })

/-- R60: a read of a meaningful element returns it, whatever `ERR` holds, and changes nothing. -/
def Obligations.ReadReturnsElement : Prop :=
  ∀ (s : State) (i : Nat), s.busy = false →
    (s.valid.ibuf = true → i < s.inLen.toNat → i < s.cfg.geom.inCap →
      transact (.read .ibuf i) s = .next { s with response := .byte (Memory.read s.ibuf i) }) ∧
    (s.valid.mosaic = true → i < s.cfg.geom.mosaicCount →
      transact (.read .mosaic i) s = .next { s with response := .sample (Memory.read s.mosaic i) }) ∧
    (s.valid.f0 = true → i < s.cfg.geom.imageCount →
      transact (.read .f0 i) s = .next { s with response := .float (Memory.read s.f0 i) }) ∧
    (s.valid.f1 = true → i < s.cfg.geom.imageCount →
      transact (.read .f1 i) s = .next { s with response := .float (Memory.read s.f1 i) }) ∧
    (s.valid.f2 = true → i < s.cfg.geom.imageCount →
      transact (.read .f2 i) s = .next { s with response := .float (Memory.read s.f2 i) }) ∧
    transact (.read .csr 0) s = .next { s with response := .word 0 } ∧
    transact (.read .csr 1) s = .next { s with response := .word (statusWord s) } ∧
    transact (.read .csr 2) s = .next { s with response := .word (errWord s) } ∧
    transact (.read .csr 3) s = .next { s with response := .word s.inLen } ∧
    (s.valid.f2 = true → transact (.read .csr 4) s = .next { s with response := .float s.minReg } ∧
      transact (.read .csr 5) s = .next { s with response := .float s.maxReg })

/-- R65: a read of an element that is not meaningful completes, with a free value of its own of the element's
width, and raises no fault. -/
def Obligations.UnspecifiedReadIsFree : Prop :=
  ∀ (s : State) (i : Nat), s.busy = false →
    let after := fun r : Response => Host.Outcome.next (φ := Fault) (ρ := Refusal)
      ({ s with response := r, draws := s.draws + 1 } : State)
    (s.valid.ibuf = false ∨ s.inLen.toNat ≤ i → i < s.cfg.geom.inCap →
      transact (.read .ibuf i) s = after (.byte (Config.freeRead 8 s.draws))) ∧
    (s.valid.mosaic = false → i < s.cfg.geom.mosaicCount →
      transact (.read .mosaic i) s = after (.sample (Config.freeRead 16 s.draws))) ∧
    (s.valid.f0 = false → i < s.cfg.geom.imageCount → transact (.read .f0 i) s = after (.float (Config.freeRead 64 s.draws))) ∧
    (s.valid.f1 = false → i < s.cfg.geom.imageCount → transact (.read .f1 i) s = after (.float (Config.freeRead 64 s.draws))) ∧
    (s.valid.f2 = false → i < s.cfg.geom.imageCount → transact (.read .f2 i) s = after (.float (Config.freeRead 64 s.draws))) ∧
    (s.valid.f2 = false → transact (.read .csr 4) s = after (.float (Config.freeRead 64 s.draws)) ∧
      transact (.read .csr 5) s = after (.float (Config.freeRead 64 s.draws)))

/-- R54, R60: no read, of any element of any space, refused or not, changes any state of the block. -/
def Obligations.ReadChangesNothing : Prop :=
  ∀ (s : State) (sp : Space) (i : Nat), ∃ r k,
    transact (.read sp i) s = .next { s with response := r, draws := k }

/-- R34, R35: every bit of the register words `STATUS` and `ERR`. -/
def Obligations.RegisterWordBits : Prop :=
  ∀ (s : State) (k : Nat),
    (statusWord s).getLsbD k =
      (if k = 0 then s.busy else if k = 1 then s.err != 0 else if k = 4 then s.valid.ibuf
       else if k = 5 then s.valid.mosaic else if k = 6 then s.valid.f0 else if k = 7 then s.valid.f1
       else if k = 8 then s.valid.f2 else false) ∧
    (errWord s).getLsbD k = (if k < 8 then s.err.getLsbD k else false)

/-- R66, R236: while `BUSY = 1` every transaction is refused but a read of `STATUS` and the reset event. -/
def Obligations.BusyRefusesAllButStatus : Prop :=
  ∀ (s : State), s.busy = true →
    (∀ t : Transaction, t ≠ .reset → t ≠ .read .csr 1 → transact t s = .next { s with response := .refused }) ∧
    (∀ i : Instr, exec i s = .next { s with response := .refused }) ∧
    transact (.read .csr 1) s = .next { s with response := .word (statusWord s) }

/-! The whole machine. -/

/-- R241: every step answers a next state: no command hangs, and nothing stops the machine. -/
def Obligations.EveryStepAnswers : Prop :=
  ∀ s : State, (∃ t, step s = .next t) ∧ ∀ i : Instr, ∃ t, exec i s = .next t

/-- R6: no step changes `CFG`. -/
def Obligations.CfgNeverChanges : Prop :=
  ∀ s t : State, step s = .next t → t.cfg = s.cfg

/-- R211, R212: while `ERR` is not 0, a step other than the reset event or a write of CLEAR's word changes no state of
the block at all, `ERR` included. -/
def Obligations.FaultClearedOnlyByClearOrReset : Prop :=
  ∀ (s t : State) (x : Transaction) (rest : List Transaction), s.err ≠ 0 → s.script = x :: rest → x ≠ .reset →
    x ≠ .writeCsr 0 6 → step s = .next t →
    ∃ r k, t = { s with script := rest, response := r, draws := k }

/-- R8, R26, R29, R53, R201: every step keeps the shape of the state. -/
def Obligations.StepKeepsShape : Prop :=
  ∀ s t : State, s.shaped → step s = .next t → t.shaped

/-- The state right after reset meets the invariants; its geometry is an arbitrary valid one (log entry 2). -/
def Obligations.ResetMeetsInvariants : Prop :=
  State.reset.shaped ∧ State.reset.samplesTenBit ∧ State.reset.rawFinite ∧ State.reset.normalised

/-- R23: every step keeps a VALID `MOSAIC` free of anything but 10-bit samples. -/
def Obligations.StepKeepsTenBitSamples : Prop :=
  ∀ s t : State, s.shaped → s.samplesTenBit → step s = .next t → t.samplesTenBit

/-- R24, R108: every step keeps a VALID `F0` finite. -/
def Obligations.StepKeepsRawImageFinite : Prop :=
  ∀ s t : State, s.shaped → s.samplesTenBit → s.rawFinite → step s = .next t → t.rawFinite

/-- R24, R179: every step keeps a VALID `F2` inside [0, 1]. -/
def Obligations.StepKeepsNormalised : Prop :=
  ∀ s t : State, s.shaped → s.normalised → step s = .next t → t.normalised

/-! The scalar operations (40_numerics.md). -/

/-- R106: `B64` has properties N1 to N7, whichever neighbour its logarithm returns, but for the exactness of `of_int` in N2,
which `Obligations.OfIntExact` and `Obligations.B64MeetsStatedAccuracy` state. -/
def Obligations.B64MeetsRequiredProperties : Prop := NumLawful b64

/-- R107: for every finite positive argument the log curve is finite and one of the two values that bracket the real
logarithm, whichever one the free value of the argument picks. -/
def Obligations.LogCurveIsFaithful : Prop :=
  ∀ s : F64, B64.isFinite s = true → B64.flt (B64.ofInt 0) s = true →
    B64.isFinite (B64.fln s) = true ∧ B64.faithfulTo (B64.fln s) (Real.log (B64.toReal s))

/-- R104: the four operations on finite values, where the result is finite, are the exact results rounded to nearest,
ties to even. -/
def Obligations.B64CorrectlyRounded : Prop :=
  ∀ a b : F64, B64.isFinite a = true → B64.isFinite b = true →
    (B64.isFinite (B64.fadd a b) = true → B64.nearestTo (B64.fadd a b) (B64.toReal a + B64.toReal b)) ∧
    (B64.isFinite (B64.fsub a b) = true → B64.nearestTo (B64.fsub a b) (B64.toReal a - B64.toReal b)) ∧
    (B64.isFinite (B64.fmul a b) = true → B64.nearestTo (B64.fmul a b) (B64.toReal a * B64.toReal b)) ∧
    (B64.toReal b ≠ 0 → B64.isFinite (B64.fdiv a b) = true →
      B64.nearestTo (B64.fdiv a b) (B64.toReal a / B64.toReal b))

/-- R102: `of_int` is exact on every number below 2^53, so on its domain 0 to 2046, where it is injective and
monotone. -/
def Obligations.OfIntExact : Prop :=
  (∀ k : Nat, k < 2 ^ 53 → B64.isFinite (B64.ofInt k) = true ∧ B64.toReal (B64.ofInt k) = k) ∧
  (∀ j k : Nat, k ≤ 2046 → (B64.ofInt j = B64.ofInt k → j ≤ 2046 → j = k) ∧
    (j < k → B64.flt (B64.ofInt j) (B64.ofInt k) = true))

/-- R106 and N8: `B64` is admissible with the accuracy it states: besides N1 to N7, `of_int` is exact, `flt` is the
less-than of the values, each of the four operations with a finite result is within half a unit in the last place of
the exact result, the logarithm within one unit, and `F2` of the spec's end-to-end scenario is within 1e-6 of the exact
one. The form of the stated accuracy, and that N8's figure is asked of every `NUM`, are the model's (log entry 22). -/
def Obligations.B64MeetsStatedAccuracy : Prop := NumAdmissible b64 b64Accuracy

/-! The block with any `NUM` (00_scope.md R11, 40_numerics.md R100). -/

/-- R11: the machine is the block built with the default `NUM` and arbitrary valid data (log entries 2 and 11): its
commands, transactions and step are those of the block with any `NUM`, taken at `B64`. -/
def Obligations.DefaultNumIsB64 : Prop :=
  (∀ (i : Instr) (s : State), execOf b64 i s = exec i s) ∧
  (∀ (t : Transaction) (s : State), transactOf b64 t s = transact t s) ∧
  (∀ s : State, stepOf b64 s = step s) ∧
  defaultCfg.num.fw = some 64 ∧ Block.State.resetWith defaultCfg.params = State.reset

/-- R11, R100, R141, R160, R170: in a block with any `NUM`, of any width, each float stage on a VALID input writes what
its rule says in the operations of that `NUM`, or, for TONEMAP, takes the fault that `tonemapImage` names. -/
def Obligations.AnyNumStagesWriteResults : Prop :=
  ∀ (fw : Nat) (n : Num (BitVec fw)) (s : Block.State fw), s.accepts →
    (s.valid.mosaic = true → Memory.wf s.f0 → ∃ m : Memory fw,
      execOf n .demosaic s = .next { s with
        f0 := m, valid := { s.valid with f0 := true, f1 := false, f2 := false }, response := .done } ∧
      (∀ r c, r < s.cfg.geom.h - 1 → c < s.cfg.geom.w - 1 →
        pixelAt s.cfg.geom m r c = demosaicPixel n s.cfg.consts (mosaicAt s.cfg.geom s.mosaic) r c) ∧
      (∀ e, s.cfg.geom.imageCount ≤ e → Memory.read m e = Memory.read s.f0 e)) ∧
    (s.valid.f0 = true → Memory.wf s.f1 → ∃ m : Memory fw,
      execOf n .correct s = .next { s with
        f1 := m, valid := { s.valid with f1 := true, f2 := false }, response := .done } ∧
      (∀ r c, r < s.cfg.geom.h - 1 → c < s.cfg.geom.w - 1 →
        pixelAt s.cfg.geom m r c = correctPixel n s.cfg.consts.ccm (pixelAt s.cfg.geom s.f0 r c)) ∧
      (∀ e, s.cfg.geom.imageCount ≤ e → Memory.read m e = Memory.read s.f1 e)) ∧
    (s.valid.f1 = true → Memory.wf s.f2 →
      (∀ t, tonemapImage n s.cfg.consts.logOffset (imageElems s.cfg.geom s.f1) = .ok t → ∃ m : Memory fw,
        execOf n .tonemap s = .next { s with
          f2 := m, minReg := t.mn, maxReg := t.mx, valid := { s.valid with f2 := true }, response := .done } ∧
        (∀ e, e < s.cfg.geom.imageCount → Memory.read m e = t.out.getD e 0) ∧
        (∀ e, s.cfg.geom.imageCount ≤ e → Memory.read m e = Memory.read s.f2 e)) ∧
      (∀ k, tonemapImage n s.cfg.consts.logOffset (imageElems s.cfg.geom s.f1) = .error k →
        ∃ (m : Memory fw) (lo hi : BitVec fw),
          execOf n .tonemap s = .next { s with
            f2 := m, minReg := lo, maxReg := hi, valid := { s.valid with f2 := false }, err := causeCode k
            response := .done }))
end

