-- ==== Sys2Proof/Laws/State.lean ====
section
/-! SUPPORT. Reading a field after a shared update: one lemma per field per update, each true by rfl. -/

namespace Sys2Proof.Machine

variable {fw : Nat}

@[simp] theorem faultEntry_cfg (c : Cause) (s : Block.State fw) : (faultEntry c s).cfg = s.cfg := rfl
@[simp] theorem faultEntry_ibuf (c : Cause) (s : Block.State fw) : (faultEntry c s).ibuf = s.ibuf := rfl
@[simp] theorem faultEntry_inLen (c : Cause) (s : Block.State fw) : (faultEntry c s).inLen = s.inLen := rfl
@[simp] theorem faultEntry_mosaic (c : Cause) (s : Block.State fw) : (faultEntry c s).mosaic = s.mosaic := rfl
@[simp] theorem faultEntry_f0 (c : Cause) (s : Block.State fw) : (faultEntry c s).f0 = s.f0 := rfl
@[simp] theorem faultEntry_f1 (c : Cause) (s : Block.State fw) : (faultEntry c s).f1 = s.f1 := rfl
@[simp] theorem faultEntry_f2 (c : Cause) (s : Block.State fw) : (faultEntry c s).f2 = s.f2 := rfl
@[simp] theorem faultEntry_minReg (c : Cause) (s : Block.State fw) : (faultEntry c s).minReg = s.minReg := rfl
@[simp] theorem faultEntry_maxReg (c : Cause) (s : Block.State fw) : (faultEntry c s).maxReg = s.maxReg := rfl
@[simp] theorem faultEntry_valid (c : Cause) (s : Block.State fw) : (faultEntry c s).valid = s.valid := rfl
@[simp] theorem faultEntry_err (c : Cause) (s : Block.State fw) : (faultEntry c s).err = causeCode c := rfl
@[simp] theorem faultEntry_busy (c : Cause) (s : Block.State fw) : (faultEntry c s).busy = false := rfl
@[simp] theorem faultEntry_script (c : Cause) (s : Block.State fw) : (faultEntry c s).script = s.script := rfl
@[simp] theorem faultEntry_response (c : Cause) (s : Block.State fw) : (faultEntry c s).response = s.response := rfl
@[simp] theorem faultEntry_draws (c : Cause) (s : Block.State fw) : (faultEntry c s).draws = s.draws := rfl

@[simp] theorem discardFrame_cfg (s : Block.State fw) : (discardFrame s).cfg = s.cfg := rfl
@[simp] theorem discardFrame_ibuf (s : Block.State fw) : (discardFrame s).ibuf = s.ibuf := rfl
@[simp] theorem discardFrame_inLen (s : Block.State fw) : (discardFrame s).inLen = 0 := rfl
@[simp] theorem discardFrame_mosaic (s : Block.State fw) : (discardFrame s).mosaic = s.mosaic := rfl
@[simp] theorem discardFrame_f0 (s : Block.State fw) : (discardFrame s).f0 = s.f0 := rfl
@[simp] theorem discardFrame_f1 (s : Block.State fw) : (discardFrame s).f1 = s.f1 := rfl
@[simp] theorem discardFrame_f2 (s : Block.State fw) : (discardFrame s).f2 = s.f2 := rfl
@[simp] theorem discardFrame_minReg (s : Block.State fw) : (discardFrame s).minReg = s.minReg := rfl
@[simp] theorem discardFrame_maxReg (s : Block.State fw) : (discardFrame s).maxReg = s.maxReg := rfl
@[simp] theorem discardFrame_valid (s : Block.State fw) : (discardFrame s).valid = ValidFlags.none := rfl
@[simp] theorem discardFrame_err (s : Block.State fw) : (discardFrame s).err = 0 := rfl
@[simp] theorem discardFrame_busy (s : Block.State fw) : (discardFrame s).busy = false := rfl
@[simp] theorem discardFrame_script (s : Block.State fw) : (discardFrame s).script = s.script := rfl
@[simp] theorem discardFrame_response (s : Block.State fw) : (discardFrame s).response = s.response := rfl
@[simp] theorem discardFrame_draws (s : Block.State fw) : (discardFrame s).draws = s.draws := rfl

@[simp] theorem respond_cfg (r : ResponseOf fw) (s : Block.State fw) : (respond r s).cfg = s.cfg := rfl
@[simp] theorem respond_ibuf (r : ResponseOf fw) (s : Block.State fw) : (respond r s).ibuf = s.ibuf := rfl
@[simp] theorem respond_inLen (r : ResponseOf fw) (s : Block.State fw) : (respond r s).inLen = s.inLen := rfl
@[simp] theorem respond_mosaic (r : ResponseOf fw) (s : Block.State fw) : (respond r s).mosaic = s.mosaic := rfl
@[simp] theorem respond_f0 (r : ResponseOf fw) (s : Block.State fw) : (respond r s).f0 = s.f0 := rfl
@[simp] theorem respond_f1 (r : ResponseOf fw) (s : Block.State fw) : (respond r s).f1 = s.f1 := rfl
@[simp] theorem respond_f2 (r : ResponseOf fw) (s : Block.State fw) : (respond r s).f2 = s.f2 := rfl
@[simp] theorem respond_minReg (r : ResponseOf fw) (s : Block.State fw) : (respond r s).minReg = s.minReg := rfl
@[simp] theorem respond_maxReg (r : ResponseOf fw) (s : Block.State fw) : (respond r s).maxReg = s.maxReg := rfl
@[simp] theorem respond_valid (r : ResponseOf fw) (s : Block.State fw) : (respond r s).valid = s.valid := rfl
@[simp] theorem respond_err (r : ResponseOf fw) (s : Block.State fw) : (respond r s).err = s.err := rfl
@[simp] theorem respond_busy (r : ResponseOf fw) (s : Block.State fw) : (respond r s).busy = s.busy := rfl
@[simp] theorem respond_script (r : ResponseOf fw) (s : Block.State fw) : (respond r s).script = s.script := rfl
@[simp] theorem respond_response (r : ResponseOf fw) (s : Block.State fw) : (respond r s).response = r := rfl
@[simp] theorem respond_draws (r : ResponseOf fw) (s : Block.State fw) : (respond r s).draws = s.draws := rfl

@[simp] theorem refuse_cfg (s : Block.State fw) : (refuse s).cfg = s.cfg := rfl
@[simp] theorem refuse_ibuf (s : Block.State fw) : (refuse s).ibuf = s.ibuf := rfl
@[simp] theorem refuse_inLen (s : Block.State fw) : (refuse s).inLen = s.inLen := rfl
@[simp] theorem refuse_mosaic (s : Block.State fw) : (refuse s).mosaic = s.mosaic := rfl
@[simp] theorem refuse_f0 (s : Block.State fw) : (refuse s).f0 = s.f0 := rfl
@[simp] theorem refuse_f1 (s : Block.State fw) : (refuse s).f1 = s.f1 := rfl
@[simp] theorem refuse_f2 (s : Block.State fw) : (refuse s).f2 = s.f2 := rfl
@[simp] theorem refuse_minReg (s : Block.State fw) : (refuse s).minReg = s.minReg := rfl
@[simp] theorem refuse_maxReg (s : Block.State fw) : (refuse s).maxReg = s.maxReg := rfl
@[simp] theorem refuse_valid (s : Block.State fw) : (refuse s).valid = s.valid := rfl
@[simp] theorem refuse_err (s : Block.State fw) : (refuse s).err = s.err := rfl
@[simp] theorem refuse_busy (s : Block.State fw) : (refuse s).busy = s.busy := rfl
@[simp] theorem refuse_script (s : Block.State fw) : (refuse s).script = s.script := rfl
@[simp] theorem refuse_response (s : Block.State fw) : (refuse s).response = .refused := rfl
@[simp] theorem refuse_draws (s : Block.State fw) : (refuse s).draws = s.draws := rfl

@[simp] theorem beginWrite_cfg (b : Space) (s : Block.State fw) : (beginWrite b s).cfg = s.cfg := rfl
@[simp] theorem beginWrite_ibuf (b : Space) (s : Block.State fw) : (beginWrite b s).ibuf = s.ibuf := rfl
@[simp] theorem beginWrite_inLen (b : Space) (s : Block.State fw) : (beginWrite b s).inLen = s.inLen := rfl
@[simp] theorem beginWrite_mosaic (b : Space) (s : Block.State fw) : (beginWrite b s).mosaic = s.mosaic := rfl
@[simp] theorem beginWrite_f0 (b : Space) (s : Block.State fw) : (beginWrite b s).f0 = s.f0 := rfl
@[simp] theorem beginWrite_f1 (b : Space) (s : Block.State fw) : (beginWrite b s).f1 = s.f1 := rfl
@[simp] theorem beginWrite_f2 (b : Space) (s : Block.State fw) : (beginWrite b s).f2 = s.f2 := rfl
@[simp] theorem beginWrite_minReg (b : Space) (s : Block.State fw) : (beginWrite b s).minReg = s.minReg := rfl
@[simp] theorem beginWrite_maxReg (b : Space) (s : Block.State fw) : (beginWrite b s).maxReg = s.maxReg := rfl
@[simp] theorem beginWrite_valid (b : Space) (s : Block.State fw) : (beginWrite b s).valid = invalidateFrom s.valid b := rfl
@[simp] theorem beginWrite_err (b : Space) (s : Block.State fw) : (beginWrite b s).err = s.err := rfl
@[simp] theorem beginWrite_busy (b : Space) (s : Block.State fw) : (beginWrite b s).busy = s.busy := rfl
@[simp] theorem beginWrite_script (b : Space) (s : Block.State fw) : (beginWrite b s).script = s.script := rfl
@[simp] theorem beginWrite_response (b : Space) (s : Block.State fw) : (beginWrite b s).response = s.response := rfl
@[simp] theorem beginWrite_draws (b : Space) (s : Block.State fw) : (beginWrite b s).draws = s.draws := rfl

@[simp] theorem endWrite_cfg (b : Space) (s : Block.State fw) : (endWrite b s).cfg = s.cfg := rfl
@[simp] theorem endWrite_ibuf (b : Space) (s : Block.State fw) : (endWrite b s).ibuf = s.ibuf := rfl
@[simp] theorem endWrite_inLen (b : Space) (s : Block.State fw) : (endWrite b s).inLen = s.inLen := rfl
@[simp] theorem endWrite_mosaic (b : Space) (s : Block.State fw) : (endWrite b s).mosaic = s.mosaic := rfl
@[simp] theorem endWrite_f0 (b : Space) (s : Block.State fw) : (endWrite b s).f0 = s.f0 := rfl
@[simp] theorem endWrite_f1 (b : Space) (s : Block.State fw) : (endWrite b s).f1 = s.f1 := rfl
@[simp] theorem endWrite_f2 (b : Space) (s : Block.State fw) : (endWrite b s).f2 = s.f2 := rfl
@[simp] theorem endWrite_minReg (b : Space) (s : Block.State fw) : (endWrite b s).minReg = s.minReg := rfl
@[simp] theorem endWrite_maxReg (b : Space) (s : Block.State fw) : (endWrite b s).maxReg = s.maxReg := rfl
@[simp] theorem endWrite_valid (b : Space) (s : Block.State fw) : (endWrite b s).valid = setValid s.valid b := rfl
@[simp] theorem endWrite_err (b : Space) (s : Block.State fw) : (endWrite b s).err = s.err := rfl
@[simp] theorem endWrite_busy (b : Space) (s : Block.State fw) : (endWrite b s).busy = s.busy := rfl
@[simp] theorem endWrite_script (b : Space) (s : Block.State fw) : (endWrite b s).script = s.script := rfl
@[simp] theorem endWrite_response (b : Space) (s : Block.State fw) : (endWrite b s).response = s.response := rfl
@[simp] theorem endWrite_draws (b : Space) (s : Block.State fw) : (endWrite b s).draws = s.draws := rfl

@[simp] theorem startCommand_cfg (s : Block.State fw) : (startCommand s).cfg = s.cfg := rfl
@[simp] theorem startCommand_ibuf (s : Block.State fw) : (startCommand s).ibuf = s.ibuf := rfl
@[simp] theorem startCommand_inLen (s : Block.State fw) : (startCommand s).inLen = s.inLen := rfl
@[simp] theorem startCommand_mosaic (s : Block.State fw) : (startCommand s).mosaic = s.mosaic := rfl
@[simp] theorem startCommand_f0 (s : Block.State fw) : (startCommand s).f0 = s.f0 := rfl
@[simp] theorem startCommand_f1 (s : Block.State fw) : (startCommand s).f1 = s.f1 := rfl
@[simp] theorem startCommand_f2 (s : Block.State fw) : (startCommand s).f2 = s.f2 := rfl
@[simp] theorem startCommand_minReg (s : Block.State fw) : (startCommand s).minReg = s.minReg := rfl
@[simp] theorem startCommand_maxReg (s : Block.State fw) : (startCommand s).maxReg = s.maxReg := rfl
@[simp] theorem startCommand_valid (s : Block.State fw) : (startCommand s).valid = s.valid := rfl
@[simp] theorem startCommand_err (s : Block.State fw) : (startCommand s).err = s.err := rfl
@[simp] theorem startCommand_busy (s : Block.State fw) : (startCommand s).busy = true := rfl
@[simp] theorem startCommand_script (s : Block.State fw) : (startCommand s).script = s.script := rfl
@[simp] theorem startCommand_response (s : Block.State fw) : (startCommand s).response = s.response := rfl
@[simp] theorem startCommand_draws (s : Block.State fw) : (startCommand s).draws = s.draws := rfl

@[simp] theorem endCommand_cfg (s : Block.State fw) : (endCommand s).cfg = s.cfg := rfl
@[simp] theorem endCommand_ibuf (s : Block.State fw) : (endCommand s).ibuf = s.ibuf := rfl
@[simp] theorem endCommand_inLen (s : Block.State fw) : (endCommand s).inLen = s.inLen := rfl
@[simp] theorem endCommand_mosaic (s : Block.State fw) : (endCommand s).mosaic = s.mosaic := rfl
@[simp] theorem endCommand_f0 (s : Block.State fw) : (endCommand s).f0 = s.f0 := rfl
@[simp] theorem endCommand_f1 (s : Block.State fw) : (endCommand s).f1 = s.f1 := rfl
@[simp] theorem endCommand_f2 (s : Block.State fw) : (endCommand s).f2 = s.f2 := rfl
@[simp] theorem endCommand_minReg (s : Block.State fw) : (endCommand s).minReg = s.minReg := rfl
@[simp] theorem endCommand_maxReg (s : Block.State fw) : (endCommand s).maxReg = s.maxReg := rfl
@[simp] theorem endCommand_valid (s : Block.State fw) : (endCommand s).valid = s.valid := rfl
@[simp] theorem endCommand_err (s : Block.State fw) : (endCommand s).err = s.err := rfl
@[simp] theorem endCommand_busy (s : Block.State fw) : (endCommand s).busy = false := rfl
@[simp] theorem endCommand_script (s : Block.State fw) : (endCommand s).script = s.script := rfl
@[simp] theorem endCommand_response (s : Block.State fw) : (endCommand s).response = .done := rfl
@[simp] theorem endCommand_draws (s : Block.State fw) : (endCommand s).draws = s.draws := rfl

@[simp] theorem invalidateFrom_ibuf_ibuf (v : ValidFlags) : (invalidateFrom v .ibuf).ibuf = false := rfl
@[simp] theorem invalidateFrom_ibuf_mosaic (v : ValidFlags) : (invalidateFrom v .ibuf).mosaic = false := rfl
@[simp] theorem invalidateFrom_ibuf_f0 (v : ValidFlags) : (invalidateFrom v .ibuf).f0 = false := rfl
@[simp] theorem invalidateFrom_ibuf_f1 (v : ValidFlags) : (invalidateFrom v .ibuf).f1 = false := rfl
@[simp] theorem invalidateFrom_ibuf_f2 (v : ValidFlags) : (invalidateFrom v .ibuf).f2 = false := rfl
@[simp] theorem setValid_ibuf_ibuf (v : ValidFlags) : (setValid v .ibuf).ibuf = true := rfl
@[simp] theorem setValid_ibuf_mosaic (v : ValidFlags) : (setValid v .ibuf).mosaic = v.mosaic := rfl
@[simp] theorem setValid_ibuf_f0 (v : ValidFlags) : (setValid v .ibuf).f0 = v.f0 := rfl
@[simp] theorem setValid_ibuf_f1 (v : ValidFlags) : (setValid v .ibuf).f1 = v.f1 := rfl
@[simp] theorem setValid_ibuf_f2 (v : ValidFlags) : (setValid v .ibuf).f2 = v.f2 := rfl

@[simp] theorem invalidateFrom_mosaic_ibuf (v : ValidFlags) : (invalidateFrom v .mosaic).ibuf = v.ibuf := rfl
@[simp] theorem invalidateFrom_mosaic_mosaic (v : ValidFlags) : (invalidateFrom v .mosaic).mosaic = false := rfl
@[simp] theorem invalidateFrom_mosaic_f0 (v : ValidFlags) : (invalidateFrom v .mosaic).f0 = false := rfl
@[simp] theorem invalidateFrom_mosaic_f1 (v : ValidFlags) : (invalidateFrom v .mosaic).f1 = false := rfl
@[simp] theorem invalidateFrom_mosaic_f2 (v : ValidFlags) : (invalidateFrom v .mosaic).f2 = false := rfl
@[simp] theorem setValid_mosaic_ibuf (v : ValidFlags) : (setValid v .mosaic).ibuf = v.ibuf := rfl
@[simp] theorem setValid_mosaic_mosaic (v : ValidFlags) : (setValid v .mosaic).mosaic = true := rfl
@[simp] theorem setValid_mosaic_f0 (v : ValidFlags) : (setValid v .mosaic).f0 = v.f0 := rfl
@[simp] theorem setValid_mosaic_f1 (v : ValidFlags) : (setValid v .mosaic).f1 = v.f1 := rfl
@[simp] theorem setValid_mosaic_f2 (v : ValidFlags) : (setValid v .mosaic).f2 = v.f2 := rfl

@[simp] theorem invalidateFrom_f0_ibuf (v : ValidFlags) : (invalidateFrom v .f0).ibuf = v.ibuf := rfl
@[simp] theorem invalidateFrom_f0_mosaic (v : ValidFlags) : (invalidateFrom v .f0).mosaic = v.mosaic := rfl
@[simp] theorem invalidateFrom_f0_f0 (v : ValidFlags) : (invalidateFrom v .f0).f0 = false := rfl
@[simp] theorem invalidateFrom_f0_f1 (v : ValidFlags) : (invalidateFrom v .f0).f1 = false := rfl
@[simp] theorem invalidateFrom_f0_f2 (v : ValidFlags) : (invalidateFrom v .f0).f2 = false := rfl
@[simp] theorem setValid_f0_ibuf (v : ValidFlags) : (setValid v .f0).ibuf = v.ibuf := rfl
@[simp] theorem setValid_f0_mosaic (v : ValidFlags) : (setValid v .f0).mosaic = v.mosaic := rfl
@[simp] theorem setValid_f0_f0 (v : ValidFlags) : (setValid v .f0).f0 = true := rfl
@[simp] theorem setValid_f0_f1 (v : ValidFlags) : (setValid v .f0).f1 = v.f1 := rfl
@[simp] theorem setValid_f0_f2 (v : ValidFlags) : (setValid v .f0).f2 = v.f2 := rfl

@[simp] theorem invalidateFrom_f1_ibuf (v : ValidFlags) : (invalidateFrom v .f1).ibuf = v.ibuf := rfl
@[simp] theorem invalidateFrom_f1_mosaic (v : ValidFlags) : (invalidateFrom v .f1).mosaic = v.mosaic := rfl
@[simp] theorem invalidateFrom_f1_f0 (v : ValidFlags) : (invalidateFrom v .f1).f0 = v.f0 := rfl
@[simp] theorem invalidateFrom_f1_f1 (v : ValidFlags) : (invalidateFrom v .f1).f1 = false := rfl
@[simp] theorem invalidateFrom_f1_f2 (v : ValidFlags) : (invalidateFrom v .f1).f2 = false := rfl
@[simp] theorem setValid_f1_ibuf (v : ValidFlags) : (setValid v .f1).ibuf = v.ibuf := rfl
@[simp] theorem setValid_f1_mosaic (v : ValidFlags) : (setValid v .f1).mosaic = v.mosaic := rfl
@[simp] theorem setValid_f1_f0 (v : ValidFlags) : (setValid v .f1).f0 = v.f0 := rfl
@[simp] theorem setValid_f1_f1 (v : ValidFlags) : (setValid v .f1).f1 = true := rfl
@[simp] theorem setValid_f1_f2 (v : ValidFlags) : (setValid v .f1).f2 = v.f2 := rfl

@[simp] theorem invalidateFrom_f2_ibuf (v : ValidFlags) : (invalidateFrom v .f2).ibuf = v.ibuf := rfl
@[simp] theorem invalidateFrom_f2_mosaic (v : ValidFlags) : (invalidateFrom v .f2).mosaic = v.mosaic := rfl
@[simp] theorem invalidateFrom_f2_f0 (v : ValidFlags) : (invalidateFrom v .f2).f0 = v.f0 := rfl
@[simp] theorem invalidateFrom_f2_f1 (v : ValidFlags) : (invalidateFrom v .f2).f1 = v.f1 := rfl
@[simp] theorem invalidateFrom_f2_f2 (v : ValidFlags) : (invalidateFrom v .f2).f2 = false := rfl
@[simp] theorem setValid_f2_ibuf (v : ValidFlags) : (setValid v .f2).ibuf = v.ibuf := rfl
@[simp] theorem setValid_f2_mosaic (v : ValidFlags) : (setValid v .f2).mosaic = v.mosaic := rfl
@[simp] theorem setValid_f2_f0 (v : ValidFlags) : (setValid v .f2).f0 = v.f0 := rfl
@[simp] theorem setValid_f2_f1 (v : ValidFlags) : (setValid v .f2).f1 = v.f1 := rfl
@[simp] theorem setValid_f2_f2 (v : ValidFlags) : (setValid v .f2).f2 = true := rfl

end Sys2Proof.Machine
end

