-- ==== Sys2Proof/Laws/Ops.lean ====
section
/-! SUPPORT. What each shared operation can do, said once: the frame of a command, of a LOAD and of a read, the stages
of RUN, and the write to `CMD`. -/

namespace Sys2Proof.Machine

variable {fw : Nat}

theorem command_accepted {s : Block.State fw} (h : s.accepts) (body : Block.State fw → Block.State fw) :
    command body s = endCommand (body (startCommand s)) := if_pos h

theorem command_refused {s : Block.State fw} (h : ¬ s.accepts) (body : Block.State fw → Block.State fw) : command body s = refuse s := if_neg h

theorem clearCommand_idle {s : Block.State fw} (h : s.busy = false) (body : Block.State fw → Block.State fw) :
    clearCommand body s = endCommand (body (startCommand s)) := if_pos h

theorem clearCommand_busy {s : Block.State fw} (h : s.busy = true) (body : Block.State fw → Block.State fw) :
    clearCommand body s = refuse s := if_neg (by simp [h])

theorem thenStage_clean {s : Block.State fw} (h : s.err = 0) (body : Block.State fw → Block.State fw) : thenStage body s = body s := if_pos h

theorem thenStage_faulted {s : Block.State fw} (h : s.err ≠ 0) (body : Block.State fw → Block.State fw) : thenStage body s = s := if_neg h

theorem load_accepted {s : Block.State fw} {ok : Bool} (h : s.accepts) (hok : ok = true) (effect : Block.State fw → Block.State fw) :
    load ok effect s = respond .done (effect s) := if_pos ⟨h, hok⟩

theorem load_refused {s : Block.State fw} {ok : Bool} (h : ¬ (s.accepts ∧ ok = true)) (effect : Block.State fw → Block.State fw) :
    load ok effect s = refuse s := if_neg h

theorem hostRead_inside {s : Block.State fw} {sp : Space} {i : Nat} (h : s.readable sp i) :
    hostRead sp i s = readInside sp i s := if_pos h

theorem hostRead_refused {s : Block.State fw} {sp : Space} {i : Nat} (h : ¬ s.readable sp i) : hostRead sp i s = refuse s :=
  if_neg h

/-- A read of one element changes nothing but what the host got back and the count of unspecified reads. -/
theorem readElement_frame {w : Nat} (ok : Bool) (v : BitVec w) (form : BitVec w → ResponseOf fw) (s : Block.State fw) :
    ∃ r k, readElement ok v form s = { s with response := r, draws := k } := by
  cases ok
  · exact ⟨form (Config.freeRead w s.draws), s.draws + 1, rfl⟩
  · exact ⟨form v, s.draws, rfl⟩

/-- A code written to `ERR` is not 0, so a faulted block is seen as faulted. -/
theorem causeCode_ne_zero (c : Cause) : causeCode c ≠ 0 := by cases c <;> decide

/-- A written command word runs the command it decodes to. -/
theorem writeCmdWith_of_decode {run : Instr → Block.State fw → Host.Outcome (Block.State fw) Fault Refusal} {w : Word} {i : Instr}
    (h : decode w = .ok i) (s : Block.State fw) : writeCmdWith run w s = run i s := by
  simp [writeCmdWith, h]

/-- A reserved word runs nothing else than its fault. -/
theorem writeCmdWith_of_reserved {run : Instr → Block.State fw → Host.Outcome (Block.State fw) Fault Refusal} {w : Word}
    {e : DecodeError} (h : decode w = .error e) (s : Block.State fw) :
    writeCmdWith run w s = .next (reservedCommand s) := by
  simp [writeCmdWith, h]

theorem writeCmd_of_decode {w : Word} {i : Instr} (h : decode w = .ok i) (s : State) : writeCmd w s = exec i s :=
  writeCmdWith_of_decode h s

theorem writeCmd_of_reserved {w : Word} {e : DecodeError} (h : decode w = .error e) (s : State) :
    writeCmd w s = .next (reservedCommand s) :=
  writeCmdWith_of_reserved h s

theorem nextTransactionWith_nil {n : Num (BitVec fw)} {run : Instr → Block.State fw → Host.Outcome (Block.State fw) Fault Refusal}
    {s : Block.State fw} (h : s.script = []) : nextTransactionWith n run s = .next s := by
  simp [nextTransactionWith, h]

theorem nextTransactionWith_cons {n : Num (BitVec fw)} {run : Instr → Block.State fw → Host.Outcome (Block.State fw) Fault Refusal}
    {s : Block.State fw} {t : TransactionOf fw} {rest : List (TransactionOf fw)} (h : s.script = t :: rest) :
    nextTransactionWith n run s = transactWith n run t { s with script := rest } := by
  simp [nextTransactionWith, h]

theorem nextTransaction_nil {s : State} (h : s.script = []) : nextTransaction s = .next s := nextTransactionWith_nil h

theorem nextTransaction_cons {s : State} {t : Transaction} {rest : List Transaction} (h : s.script = t :: rest) :
    nextTransaction s = transact t { s with script := rest } :=
  nextTransactionWith_cons h

end Sys2Proof.Machine
end

