-- ==== Sys2Proof/Laws/Stages.lean ====
section
/-! SUPPORT. What each stage can do, said once: a fault entry after the chain invalidation, or its output buffer
written and its flag set. -/

namespace Sys2Proof.Machine

variable {fw : Nat}

theorem unpackBody_notValid {s : Block.State fw} (h : s.valid.ibuf = false) :
    unpackBody s = faultEntry .sizeMismatch (beginWrite .mosaic s) := by
  simp [unpackBody, h]

theorem unpackBody_error {s : Block.State fw} {c : Cause} (h : s.valid.ibuf = true)
    (hg : unpackGrid s.cfg.geom (Memory.read s.ibuf) s.inLen.toNat = .error c) :
    unpackBody s = faultEntry c (beginWrite .mosaic s) := by
  simp [unpackBody, h, hg]

theorem unpackBody_ok {s : Block.State fw} {samples : List Sample} (h : s.valid.ibuf = true)
    (hg : unpackGrid s.cfg.geom (Memory.read s.ibuf) s.inLen.toNat = .ok samples) :
    unpackBody s = endWrite .mosaic
      { beginWrite .mosaic s with mosaic := Memory.writeAll s.mosaic samples } := by
  simp [unpackBody, h, hg]

theorem demosaicBody_notValid (n : Num (BitVec fw)) {s : Block.State fw} (h : s.valid.mosaic = false) :
    demosaicBody n s = faultEntry .sizeMismatch (beginWrite .f0 s) := by
  simp [demosaicBody, h]

theorem demosaicBody_ok (n : Num (BitVec fw)) {s : Block.State fw} (h : s.valid.mosaic = true) :
    demosaicBody n s = endWrite .f0 { beginWrite .f0 s with
      f0 := Memory.writeAll s.f0
        (imageOf s.cfg.geom (demosaicPixel n s.cfg.consts (mosaicAt s.cfg.geom s.mosaic))) } := by
  simp [demosaicBody, h]

theorem correctBody_notValid (n : Num (BitVec fw)) {s : Block.State fw} (h : s.valid.f0 = false) :
    correctBody n s = faultEntry .sizeMismatch (beginWrite .f1 s) := by
  simp [correctBody, h]

theorem correctBody_ok (n : Num (BitVec fw)) {s : Block.State fw} (h : s.valid.f0 = true) :
    correctBody n s = endWrite .f1 { beginWrite .f1 s with
      f1 := Memory.writeAll s.f1
        (imageOf s.cfg.geom fun r c => correctPixel n s.cfg.consts.ccm (pixelAt s.cfg.geom s.f0 r c)) } := by
  simp [correctBody, h]

theorem tonemapBody_notValid (n : Num (BitVec fw)) {s : Block.State fw} (h : s.valid.f1 = false) :
    tonemapBody n s = faultEntry .sizeMismatch (beginWrite .f2 s) := by
  simp [tonemapBody, h]

theorem tonemapBody_error (n : Num (BitVec fw)) {s : Block.State fw} {c : Cause} (h : s.valid.f1 = true)
    (ht : tonemapImage n s.cfg.consts.logOffset (imageElems s.cfg.geom s.f1) = .error c) :
    tonemapBody n s = faultEntry c (beginWrite .f2 s) := by
  simp [tonemapBody, h, ht]

theorem tonemapBody_ok (n : Num (BitVec fw)) {s : Block.State fw} {t : Toned (BitVec fw)} (h : s.valid.f1 = true)
    (ht : tonemapImage n s.cfg.consts.logOffset (imageElems s.cfg.geom s.f1) = .ok t) :
    tonemapBody n s = endWrite .f2 { beginWrite .f2 s with
      minReg := t.mn, maxReg := t.mx, f2 := Memory.writeAll s.f2 t.out } := by
  simp [tonemapBody, h, ht]

/-- What the unpacker can answer: SHORT, MAGIC, or the grid. -/
theorem unpackGrid_cases (g : Geometry) (ib : Nat → Byte) (len : Nat) :
    (len < g.dumpLen ∧ unpackGrid g ib len = .error .short) ∨
    (g.dumpLen ≤ len ∧ magicMatches g ib (len - g.dumpLen) = false ∧ unpackGrid g ib len = .error .magic) ∨
    (g.dumpLen ≤ len ∧ magicMatches g ib (len - g.dumpLen) = true ∧
      unpackGrid g ib len = .ok (mosaicOf g (unpackAt g ib (len - g.dumpLen)))) := by
  by_cases h : len < g.dumpLen
  · exact .inl ⟨h, by simp [unpackGrid, h]⟩
  · have h' : g.dumpLen ≤ len := by omega
    cases hm : magicMatches g ib (len - g.dumpLen)
    · exact .inr (.inl ⟨h', rfl, by simp [unpackGrid, h, hm]⟩)
    · exact .inr (.inr ⟨h', rfl, by simp [unpackGrid, h, hm]⟩)

/-- What the tone mapper can answer: LOG_DOMAIN, ZERO_RANGE, or the normalised image. -/
theorem tonemapImage_cases {F : Type} (n : Num F) (off : F) (xs : List F) :
    (allInDomain n off xs = false ∧ tonemapImage n off xs = .error .logDomain) ∨
    (allInDomain n off xs = true ∧ n.feq (greatestOf n (logImage n off xs)) (leastOf n (logImage n off xs)) = true ∧
      tonemapImage n off xs = .error .zeroRange) ∨
    (allInDomain n off xs = true ∧ n.feq (greatestOf n (logImage n off xs)) (leastOf n (logImage n off xs)) = false ∧
      tonemapImage n off xs = .ok ⟨leastOf n (logImage n off xs), greatestOf n (logImage n off xs),
        (logImage n off xs).map
          (normalise n (leastOf n (logImage n off xs)) (greatestOf n (logImage n off xs)))⟩) := by
  cases hd : allInDomain n off xs
  · exact .inl ⟨rfl, by simp [tonemapImage, hd]⟩
  · cases hf : n.feq (greatestOf n (logImage n off xs)) (leastOf n (logImage n off xs))
    · exact .inr (.inr ⟨rfl, rfl, by simp [tonemapImage, hd, hf]⟩)
    · exact .inr (.inl ⟨rfl, rfl, by simp [tonemapImage, hd, hf]⟩)

end Sys2Proof.Machine
end

