-- ==== Sys2Proof/Laws/RealNum.lean ====
section
/-! SUPPORT. The exact reference `REAL` has the properties that every `NUM` must have (40_numerics.md R105, R106), so
statements over any such `NUM` are about something; and what it computes in the end-to-end scenario. -/

namespace Sys2Proof.Machine

/-- Where a quotient is evaluated it is the exact one (R105). -/
theorem realNum_fdiv (a : ℝ) {b : ℝ} (h : b ≠ 0) : realNum.fdiv a b = a / b := if_neg h

/-- Where the logarithm is evaluated it is the natural one (R105, R107: `LN_TOL = 0`). -/
theorem realNum_fln {s : ℝ} (h : 0 < s) : realNum.fln s = Real.log s := if_pos h

theorem realNum_flt {a b : ℝ} : realNum.flt a b = true ↔ a < b := by simp [realNum]

theorem realNum_feq {a b : ℝ} : realNum.feq a b = true ↔ a = b := by simp [realNum]

theorem realNum_lawful : NumLawful realNum where
  lt_irrefl := by simp [realNum]
  lt_trans := by
    intro a b c _ _ _ h1 h2
    simp only [realNum, decide_eq_true_eq] at *
    exact h1.trans h2
  lt_total := by
    intro a b _ _ h
    simpa only [realNum_flt, ← or_assoc] using .inl (lt_or_gt_of_ne h)
  zeros_two := by
    intro a b _ _ _ _ ha hb _
    exact .inl ((realNum_feq.1 ha).trans (realNum_feq.1 hb).symm)
  eq_iff := by
    intro a b _ _
    simp only [realNum, decide_eq_true_eq, decide_eq_false_iff_not, not_lt]
    exact ⟨fun h => ⟨h.ge, h.le⟩, fun h => le_antisymm h.2 h.1⟩
  not_lt_trans := by
    intro a b c _ _ _ h1 h2
    simp only [realNum, decide_eq_false_iff_not, not_lt] at *
    exact h1.trans h2
  int_finite := by simp [realNum]
  int_strictMono := by simp [realNum]
  sub_self := by simp [realNum]
  sub_zero_iff := by simp [realNum, sub_eq_zero]
  div_self := by
    intro d _ h
    simp only [realNum, decide_eq_true_eq, Nat.cast_zero] at *
    simp [h.ne']
  zero_div := by
    intro z d _ hz _ hd
    simp only [realNum, decide_eq_true_eq, Nat.cast_zero] at *
    simp [hd.ne', hz]
  sub_mono := by simp [realNum]
  div_mono := by
    intro a b d _ _ _ hd h
    simp only [realNum, decide_eq_true_eq, decide_eq_false_iff_not, not_lt, Nat.cast_zero] at *
    simpa only [if_neg hd.ne'] using div_le_div_of_nonneg_right h hd.le
  ln_finite := by simp [realNum]
  one_mul := by simp [realNum]

/-- A pipeline that does not fault meets the figure against itself. -/
theorem meetsFigure_real {sc : Scenario} (h : ∃ t, sc.under realNum = .ok t) : meetsFigure realNum id sc := by
  obtain ⟨t, ht⟩ := h
  exact ⟨t, t, ht, ht, List.forall₂_same.2 fun x _ => by simp⟩

/-! The end-to-end scenario under `REAL`. -/

/-- `F1` of the scenario, the exact rationals of V-C2. -/
def exactF1 : List Rat :=
  [251 / 4, 73 / 8, 167 / 8, 357 / 4, 103 / 8, 153 / 8, 343 / 4, 101 / 8, 355 / 8] ++
  [195 / 4, 65 / 8, 975 / 8, 301 / 4, 95 / 8, 961 / 8, 287 / 4, 93 / 8, 1163 / 8] ++
  [619 / 4, 185 / 8, 919 / 8, 725 / 4, 215 / 8, 905 / 8, 711 / 4, 213 / 8, 1107 / 8]

/-- The logarithms of the scenario. -/
noncomputable def exactLogs : List ℝ := exactF1.map fun q : ℚ => Real.log ((q : ℝ) + 80)

theorem endToEnd_image_real : (imageOf endToEnd.geom fun r c =>
    correctPixel realNum (rgbMap (rgbMap realNum.ofRat) endToEnd.ccm)
      (demosaicPixel realNum (sourceConsts realNum (rgbMap (rgbMap realNum.ofRat) endToEnd.ccm)) endToEnd.mosaic r c)) =
    exactF1.map fun q : ℚ => (q : ℝ) := by
  have h : endToEnd.geom.imageCount = 27 ∧ endToEnd.geom.w = 4 := by decide
  simp only [imageOf, h.1, h.2, exactF1]
  simp [List.range_succ, endToEnd, correctPixel, correctChannel, demosaicPixel, sourceConsts, rgbMap, Rgb.chan, redSite,
    greenSites, blueSite, sampleOf, realNum]
  norm_num

theorem exactF1_ge : ∀ q ∈ exactF1, 8 ≤ q := by decide +kernel

theorem endToEnd_logs_real : logImage realNum 80 (exactF1.map fun q : ℚ => (q : ℝ)) = exactLogs := by
  rw [logImage, exactLogs, List.map_map]
  refine List.map_congr_left fun (q : ℚ) hq => ?_
  have : (8 : ℝ) ≤ q := by exact_mod_cast exactF1_ge q hq
  exact realNum_fln (by simp only [logArgument, realNum]; linarith)

/-- The least logarithm is at most every one. -/
theorem leastOf_real_le {l : List ℝ} {x : ℝ} (h : x ∈ l) : leastOf realNum l ≤ x := by
  have key : ∀ (l : List ℝ) (m : ℝ), let r := l.foldl (fun m y => if realNum.flt y m then y else m) m
      r ≤ m ∧ ∀ x ∈ l, r ≤ x := by
    intro l
    induction l with
    | nil => simp
    | cons y ys ih =>
      intro m
      obtain ⟨h1, h2⟩ := ih (if realNum.flt y m then y else m)
      have h3 : (if realNum.flt y m then y else m) ≤ y ∧ (if realNum.flt y m then y else m) ≤ m := by
        simp only [realNum_flt]
        split <;> constructor <;> linarith
      exact ⟨h1.trans h3.2, fun x hx => (List.mem_cons.1 hx).elim (fun e => e ▸ h1.trans h3.1) (h2 x)⟩
  cases l with
  | nil => simp at h
  | cons y ys => exact (List.mem_cons.1 h).elim (fun e => e ▸ (key ys y).1) ((key ys y).2 x)

/-- The greatest logarithm is at least every one. -/
theorem le_greatestOf_real {l : List ℝ} {x : ℝ} (h : x ∈ l) : x ≤ greatestOf realNum l := by
  have key : ∀ (l : List ℝ) (m : ℝ), let r := l.foldl (fun m y => if realNum.flt m y then y else m) m
      m ≤ r ∧ ∀ x ∈ l, x ≤ r := by
    intro l
    induction l with
    | nil => simp
    | cons y ys ih =>
      intro m
      obtain ⟨h1, h2⟩ := ih (if realNum.flt m y then y else m)
      have h3 : y ≤ (if realNum.flt m y then y else m) ∧ m ≤ (if realNum.flt m y then y else m) := by
        simp only [realNum_flt]
        split <;> constructor <;> linarith
      exact ⟨h3.2.trans h1, fun x hx => (List.mem_cons.1 hx).elim (fun e => e ▸ h3.1.trans h1) (h2 x)⟩
  cases l with
  | nil => simp at h
  | cons y ys => exact (List.mem_cons.1 h).elim (fun e => e ▸ (key ys y).1) ((key ys y).2 x)

/-- The range of the logarithms is at least 1: `261.25 / 88.125` exceeds e. -/
theorem exactLogs_range : leastOf realNum exactLogs + 1 ≤ greatestOf realNum exactLogs := by
  have lo : leastOf realNum exactLogs ≤ Real.log (((65 / 8 : ℚ) : ℝ) + 80) :=
    leastOf_real_le (List.mem_map_of_mem (a := (65 / 8 : ℚ)) (by decide +kernel))
  have hi : Real.log (((725 / 4 : ℚ) : ℝ) + 80) ≤ greatestOf realNum exactLogs :=
    le_greatestOf_real (List.mem_map_of_mem (a := (725 / 4 : ℚ)) (by decide +kernel))
  have e : Real.log (((65 / 8 : ℚ) : ℝ) + 80) + 1 ≤ Real.log (((725 / 4 : ℚ) : ℝ) + 80) := by
    rw [Real.le_log_iff_exp_le (by norm_num), Real.exp_add, Real.exp_log (by norm_num)]
    have := Real.exp_one_lt_d9
    norm_num at *
    linarith
  linarith

/-- The exact reference of the scenario: it does not fault, and this is its `F2`. -/
theorem endToEnd_real : endToEnd.under realNum = .ok ⟨leastOf realNum exactLogs, greatestOf realNum exactLogs,
    exactLogs.map (normalise realNum (leastOf realNum exactLogs) (greatestOf realNum exactLogs))⟩ := by
  have off : (sourceConsts realNum (rgbMap (rgbMap realNum.ofRat) endToEnd.ccm)).logOffset = 80 := by
    simp [sourceConsts, realNum]
  rw [Scenario.under, imagePipeline, off, show (sourceConsts realNum (rgbMap (rgbMap realNum.ofRat) endToEnd.ccm)).ccm =
    rgbMap (rgbMap realNum.ofRat) endToEnd.ccm from rfl, endToEnd_image_real]
  have hd : allInDomain realNum 80 (exactF1.map fun q : ℚ => (q : ℝ)) = true := by
    refine List.all_eq_true.2 fun x hx => ?_
    obtain ⟨q, hq, rfl⟩ := List.mem_map.1 hx
    have : (8 : ℝ) ≤ q := by exact_mod_cast exactF1_ge q hq
    simp only [inLogDomain, logArgument, realNum]
    simp
    linarith
  have hf : realNum.feq (greatestOf realNum exactLogs) (leastOf realNum exactLogs) = false := by
    have := exactLogs_range
    simp only [Bool.eq_false_iff, ne_eq, realNum_feq]
    intro h
    linarith
  have h := tonemapImage_cases realNum 80 (exactF1.map fun q : ℚ => (q : ℝ))
  rw [endToEnd_logs_real] at h
  simpa [hd, hf] using h

/-- `REAL` has every property R106 requires, with no error. -/
theorem realNum_admissible : NumAdmissible realNum realAccuracy where
  toNumLawful := realNum_lawful
  int_exact := by simp [realNum, realAccuracy]
  lt_iff := by simp [realNum, realAccuracy]
  add_error := by simp [realNum, realAccuracy]
  sub_error := by simp [realNum, realAccuracy]
  mul_error := by simp [realNum, realAccuracy]
  div_error := by
    intro x y _ _ h _
    simp [realAccuracy, realNum_fdiv x (b := y) h]
  ln_error := by
    intro s _ h
    have : 0 < s := by simpa [realNum] using h
    simp [realAccuracy, realNum_fln this]
  end_to_end := meetsFigure_real ⟨_, endToEnd_real⟩
  claimed := fun _ h => meetsFigure_real h

end Sys2Proof.Machine
end

