-- ==== Sys2Proof/Laws/Reduce.lean ====
section
/-! SUPPORT. The min-max reduction under `B64` in terms of the ordered number `B64.key`, and the two answers of the log
curve inside its domain. -/

namespace Sys2Proof.Machine

theorem B64.flt_iff {a b : F64} (ha : B64.isNaN a = false) (hb : B64.isNaN b = false) :
    B64.flt a b = true ↔ B64.key a < B64.key b := by
  simp [B64.flt, ha, hb]

theorem B64.feq_iff {a b : F64} (ha : B64.isNaN a = false) (hb : B64.isNaN b = false) :
    B64.feq a b = true ↔ B64.key a = B64.key b := by
  simp [B64.feq, ha, hb]

theorem B64.not_isNaN_of_finite {a : F64} (h : B64.isFinite a = true) : B64.isNaN a = false := by
  simp only [B64.isFinite, B64.isNaN, decide_eq_true_eq, decide_eq_false_iff_not] at *
  omega

/-- Inside its domain the log curve answers one of its two faithful values. -/
theorem B64.fln_cases {s : F64} (h : inLogDomain b64 s = true) :
    B64.fln s = B64.lnAbove s ∨ B64.fln s = B64.lnBelow s := by
  simp only [inLogDomain, b64] at h
  simp only [B64.fln, h, if_true]
  cases Config.lnRoundsUp s <;> simp

/-- What holds of both faithful values holds of the log curve's answer. -/
theorem B64.fln_of_both {p : F64 → Prop} {s : F64} (h : inLogDomain b64 s = true) (ha : p (B64.lnAbove s))
    (hb : p (B64.lnBelow s)) : p (B64.fln s) :=
  (B64.fln_cases h).elim (fun e => e.symm ▸ ha) fun e => e.symm ▸ hb

theorem b64_feq : b64.feq = B64.feq := rfl

/-- The log-compressed image under `B64`, spelled out. -/
theorem logImage_b64 (off : F64) (xs : List F64) :
    logImage b64 off xs = xs.map fun v => B64.fln (B64.fadd v off) := rfl

theorem foldl_least {xs : List F64} {x : F64} (hx : B64.isNaN x = false) (h : ∀ y ∈ xs, B64.isNaN y = false) :
    let m := xs.foldl (fun m y => if b64.flt y m then y else m) x
    B64.isNaN m = false ∧ B64.key m ≤ B64.key x ∧ ∀ y ∈ xs, B64.key m ≤ B64.key y := by
  induction xs generalizing x with
  | nil => simp [hx]
  | cons y ys ih =>
    have hy := h y (by simp)
    have hys : ∀ z ∈ ys, B64.isNaN z = false := fun z hz => h z (by simp [hz])
    simp only [List.foldl_cons]
    by_cases hlt : b64.flt y x = true
    · have hk := (B64.flt_iff hy hx).1 hlt
      obtain ⟨h1, h2, h3⟩ := ih hy hys
      rw [if_pos hlt]
      exact ⟨h1, h2.trans hk.le, fun z hz => (List.mem_cons.1 hz).elim (fun e => e ▸ h2) (h3 z)⟩
    · have hk : ¬ B64.key y < B64.key x := fun hc => hlt ((B64.flt_iff hy hx).2 hc)
      obtain ⟨h1, h2, h3⟩ := ih hx hys
      rw [if_neg hlt]
      exact ⟨h1, h2, fun z hz => (List.mem_cons.1 hz).elim (fun e => e ▸ h2.trans (not_lt.1 hk)) (h3 z)⟩

theorem foldl_greatest {xs : List F64} {x : F64} (hx : B64.isNaN x = false) (h : ∀ y ∈ xs, B64.isNaN y = false) :
    let m := xs.foldl (fun m y => if b64.flt m y then y else m) x
    B64.isNaN m = false ∧ B64.key x ≤ B64.key m ∧ ∀ y ∈ xs, B64.key y ≤ B64.key m := by
  induction xs generalizing x with
  | nil => simp [hx]
  | cons y ys ih =>
    have hy := h y (by simp)
    have hys : ∀ z ∈ ys, B64.isNaN z = false := fun z hz => h z (by simp [hz])
    simp only [List.foldl_cons]
    by_cases hlt : b64.flt x y = true
    · have hk := (B64.flt_iff hx hy).1 hlt
      obtain ⟨h1, h2, h3⟩ := ih hy hys
      rw [if_pos hlt]
      exact ⟨h1, hk.le.trans h2, fun z hz => (List.mem_cons.1 hz).elim (fun e => e ▸ h2) (h3 z)⟩
    · have hk : ¬ B64.key x < B64.key y := fun hc => hlt ((B64.flt_iff hx hy).2 hc)
      obtain ⟨h1, h2, h3⟩ := ih hx hys
      rw [if_neg hlt]
      exact ⟨h1, h2, fun z hz => (List.mem_cons.1 hz).elim (fun e => e ▸ (not_lt.1 hk).trans h2) (h3 z)⟩

/-- An image is safe to reduce: every sum is in the domain, and neither faithful logarithm of one is a NaN. -/
def logsClean (off : F64) (xs : List F64) : Bool :=
  xs.all fun v => inLogDomain b64 (B64.fadd v off) && !B64.isNaN (B64.lnAbove (B64.fadd v off))
    && !B64.isNaN (B64.lnBelow (B64.fadd v off))

theorem logsClean_mem {off : F64} {xs : List F64} (h : logsClean off xs = true) {v : F64} (hv : v ∈ xs) :
    inLogDomain b64 (B64.fadd v off) = true ∧ B64.isNaN (B64.fln (B64.fadd v off)) = false := by
  have := List.all_eq_true.1 h v hv
  simp only [Bool.and_eq_true, Bool.not_eq_true'] at this
  exact ⟨this.1.1, B64.fln_of_both (p := fun z => B64.isNaN z = false) this.1.1 this.1.2 this.2⟩

theorem allInDomain_of_clean {off : F64} {xs : List F64} (h : logsClean off xs = true) :
    allInDomain b64 off xs = true :=
  List.all_eq_true.2 fun _ hv => (logsClean_mem h hv).1

/-- Two values with different keys keep the reduced range from being zero. -/
theorem feq_extremes_false {l : List F64} {x y : F64} (h : ∀ z ∈ l, B64.isNaN z = false) (hx : x ∈ l) (hy : y ∈ l)
    (hxy : B64.key x < B64.key y) : b64.feq (greatestOf b64 l) (leastOf b64 l) = false := by
  cases l with
  | nil => simp at hx
  | cons z zs =>
    have hz := h z (by simp)
    have hzs : ∀ u ∈ zs, B64.isNaN u = false := fun u hu => h u (by simp [hu])
    obtain ⟨n1, a1, b1⟩ := foldl_least hz hzs
    obtain ⟨n2, a2, b2⟩ := foldl_greatest hz hzs
    have lo : B64.key (leastOf b64 (z :: zs)) ≤ B64.key x :=
      (List.mem_cons.1 hx).elim (fun e => e ▸ a1) (b1 x)
    have hi : B64.key y ≤ B64.key (greatestOf b64 (z :: zs)) :=
      (List.mem_cons.1 hy).elim (fun e => e ▸ a2) (b2 y)
    by_contra hc
    have := (B64.feq_iff n2 n1).1 (Bool.eq_true_of_not_eq_false hc)
    simp only [leastOf, greatestOf] at lo hi
    omega

/-- A clean image in which the logarithms of two values lie on two sides of a key has a range that is not zero. -/
theorem range_of_clean {off : F64} {xs : List F64} (h : logsClean off xs = true) {a b : F64} (ha : a ∈ xs) (hb : b ∈ xs)
    (k : Int) (ha1 : B64.key (B64.lnAbove (B64.fadd a off)) < k) (ha2 : B64.key (B64.lnBelow (B64.fadd a off)) < k)
    (hb1 : k < B64.key (B64.lnAbove (B64.fadd b off))) (hb2 : k < B64.key (B64.lnBelow (B64.fadd b off))) :
    b64.feq (greatestOf b64 (logImage b64 off xs)) (leastOf b64 (logImage b64 off xs)) = false := by
  rw [logImage_b64]
  refine feq_extremes_false ?_ (List.mem_map_of_mem ha) (List.mem_map_of_mem hb)
    (lt_trans (b := k)
      (B64.fln_of_both (p := fun z => B64.key z < k) (logsClean_mem h ha).1 ha1 ha2)
      (B64.fln_of_both (p := fun z => k < B64.key z) (logsClean_mem h hb).1 hb1 hb2))
  intro z hz
  obtain ⟨v, hv, rfl⟩ := List.mem_map.1 hz
  exact (logsClean_mem h hv).2

end Sys2Proof.Machine
end

