-- ==== Sys2Proof/Laws/EndToEnd.lean ====
section
/-! SUPPORT. The end-to-end figure of N8 (40_numerics.md R106) for `B64` on the spec's scenario: whatever the free values
of the logarithm, its output is within 1e-6 of the exact one, given the accuracy that `B64` states of each operation. -/

namespace Sys2Proof.Machine

/-! When a result of `B64` is finite, and how large a unit in the last place is. -/

theorem B64.roundMag_lt {m : B64.Rounding} {num den : Nat} (h : num / den < 2 ^ 2097) :
    B64.roundMag m num den < B64.infBits := by
  have hk : B64.spareBits (num / den) ≤ 2044 := by
    rcases Nat.eq_zero_or_pos (num / den) with h0 | h0
    · simp [B64.spareBits, h0]
    · have := (Nat.log2_lt h0.ne').2 h
      simp only [B64.spareBits]
      omega
  have hq : num / (den * 2 ^ B64.spareBits (num / den)) < 2 ^ 53 := by
    rw [← Nat.div_div_eq_div_mul]
    refine Nat.div_lt_of_lt_mul (lt_of_lt_of_le Nat.lt_log2_self ?_)
    rw [← pow_add]
    exact Nat.pow_le_pow_right (by norm_num) (by simp only [B64.spareBits]; omega)
  simp only [B64.roundMag]
  generalize num / (den * 2 ^ B64.spareBits (num / den)) = q at *
  generalize B64.spareBits (num / den) = k at *
  refine (min_le_left _ _).trans_lt ?_
  simp only [B64.infBits]
  split <;> omega

theorem B64.magBits_mk {s : Bool} {k : Nat} (h : k < 2 ^ 63) : B64.magBits (B64.mk s k) = k := by
  cases s <;> simp only [B64.magBits, B64.mk, BitVec.toNat_ofNat] <;> simp <;> omega

theorem B64.isFinite_mk {s : Bool} {k : Nat} (h : k < B64.infBits) : B64.isFinite (B64.mk s k) = true := by
  have : k < 2 ^ 63 := by simp only [B64.infBits] at h; omega
  simpa [B64.isFinite, B64.magBits_mk this] using h

theorem B64.magBits_neg (x : F64) : B64.magBits (B64.neg x) = B64.magBits x := by
  simp only [B64.magBits, B64.neg, BitVec.toNat_xor, Nat.xor_mod_two_pow]
  simp

theorem B64.units_neg (x : F64) : B64.units (B64.neg x) = B64.units x := by
  simp only [B64.units, B64.magBits_neg]

theorem B64.natAbs_value (x : F64) : (B64.value x).natAbs = B64.units x := by
  simp only [B64.value]
  split <;> simp

theorem B64.abs_toReal (x : F64) : |B64.toReal x| = (B64.units x : ℝ) / 2 ^ 1074 := by
  rw [B64.toReal, abs_div, ← B64.natAbs_value, Nat.cast_natAbs, Int.cast_abs, abs_of_pos (a := (2 : ℝ) ^ 1074) (by positivity)]

theorem B64.units_le {x : F64} (h : |B64.toReal x| ≤ 8) : B64.units x ≤ 2 ^ 1077 := by
  rw [B64.abs_toReal, div_le_iff₀ (by positivity)] at h
  have : (B64.units x : ℝ) ≤ ((2 ^ 1077 : ℕ) : ℝ) := by push_cast; rw [pow_add 2 3 1074]; linarith
  exact_mod_cast this

theorem B64.not_isInf_of_finite {x : F64} (h : B64.isFinite x = true) : B64.isInf x = false := by
  simp only [B64.isFinite, B64.isInf, decide_eq_true_eq, beq_eq_false_iff_ne] at *
  omega

theorem B64.isFinite_neg {x : F64} (h : B64.isFinite x = true) : B64.isFinite (B64.neg x) = true := by
  simpa only [B64.isFinite, B64.magBits_neg] using h

/-- A difference of two values of at most 8 is finite. -/
theorem B64.isFinite_fsub {x y : F64} (hx : B64.isFinite x = true) (hy : B64.isFinite y = true)
    (bx : |B64.toReal x| ≤ 8) (by' : |B64.toReal y| ≤ 8) : B64.isFinite (B64.fsub x y) = true := by
  have hy' := B64.isFinite_neg hy
  have ux := B64.units_le bx
  have uy := B64.units_le by'
  simp only [B64.fsub, B64.sum, B64.not_isNaN_of_finite hx, B64.not_isNaN_of_finite hy', B64.not_isInf_of_finite hx,
    B64.not_isInf_of_finite hy', Bool.or_false, Bool.false_eq_true, if_false, B64.addFinite]
  split
  · exact B64.isFinite_mk (by simp [B64.infBits])
  · refine B64.isFinite_mk (B64.roundMag_lt ?_)
    have := Int.natAbs_add_le (B64.value x) (B64.value (B64.neg y))
    rw [B64.natAbs_value, B64.natAbs_value, B64.units_neg] at this
    rw [Nat.div_one]
    exact (this.trans (Nat.add_le_add ux uy)).trans_lt (by decide +kernel)

/-- A quotient of a value of at most 8 by one of at least 1/2 is finite. -/
theorem B64.isFinite_fdiv {x y : F64} (hx : B64.isFinite x = true) (hy : B64.isFinite y = true)
    (bx : |B64.toReal x| ≤ 8) (by' : 1 / 2 ≤ B64.toReal y) : B64.isFinite (B64.fdiv x y) = true := by
  have ux := B64.units_le bx
  have uy : 2 ^ 1073 ≤ B64.units y := by
    have h := by'.trans (le_abs_self _)
    rw [B64.abs_toReal, le_div_iff₀ (by positivity)] at h
    have : ((2 ^ 1073 : ℕ) : ℝ) ≤ (B64.units y : ℝ) := by
      push_cast; rw [pow_succ] at h; linarith
    exact_mod_cast this
  have my : B64.magBits y ≠ 0 := fun h => by simp [B64.units, h] at uy
  simp only [B64.fdiv, B64.not_isNaN_of_finite hx, B64.not_isNaN_of_finite hy, B64.not_isInf_of_finite hx,
    B64.not_isInf_of_finite hy, Bool.or_false, Bool.false_eq_true, if_false, my]
  refine B64.isFinite_mk (B64.roundMag_lt (Nat.div_lt_of_lt_mul ?_))
  calc B64.units x * 2 ^ 1074 ≤ 2 ^ 1077 * 2 ^ 1074 := Nat.mul_le_mul_right _ ux
    _ < 2 ^ 1073 * 2 ^ 2097 := by decide +kernel
    _ ≤ B64.units y * 2 ^ 2097 := Nat.mul_le_mul_right _ uy

/-- A unit in the last place is at most 2^-52 of the value, or the least unit. -/
theorem B64.ulp_le (x : F64) : B64.ulp x ≤ |B64.toReal x| / 2 ^ 52 + 1 / 2 ^ 1074 := by
  rw [B64.abs_toReal, B64.ulp, div_right_comm, ← add_div]
  refine div_le_div_of_nonneg_right ?_ (by positivity)
  have h : 2 ^ 52 * 2 ^ (B64.magBits x / 2 ^ 52 - 1) ≤ B64.units x + 2 ^ 52 := by
    simp only [B64.units]
    split
    · rename_i h; rw [h]; omega
    · nlinarith [Nat.one_le_two_pow (n := B64.magBits x / 2 ^ 52 - 1), Nat.zero_le (B64.magBits x % 2 ^ 52 * 2 ^ (B64.magBits x / 2 ^ 52 - 1))]
  have h' : (2 : ℝ) ^ 52 * 2 ^ (B64.magBits x / 2 ^ 52 - 1) ≤ B64.units x + 2 ^ 52 := by exact_mod_cast h
  rw [show (B64.units x : ℝ) / 2 ^ 52 + 1 = (B64.units x + 2 ^ 52) / 2 ^ 52 by field_simp, le_div_iff₀ (by positivity)]
  linarith

/-- A result within a unit in the last place of a number of at most 8 is within 2^-48 of it. -/
theorem B64.close_of_ulp {r : F64} {y : ℝ} (hy : |y| ≤ 8) (h : |B64.toReal r - y| ≤ B64.ulp r) :
    |B64.toReal r - y| ≤ 1 / 2 ^ 48 := by
  have hu := B64.ulp_le r
  have tiny : (1 : ℝ) / 2 ^ 1074 ≤ 1 / 2 ^ 60 := by
    apply one_div_le_one_div_of_le (by positivity)
    exact pow_le_pow_right₀ (by norm_num) (by norm_num)
  have hr : |B64.toReal r| ≤ |B64.toReal r - y| + |y| := by simpa using abs_add_le (B64.toReal r - y) y
  have e : |B64.toReal r| / 2 ^ 52 ≤ (|B64.toReal r - y| + 8) / 2 ^ 52 :=
    div_le_div_of_nonneg_right (by linarith) (by positivity)
  generalize |B64.toReal r - y| = d at *
  generalize B64.ulp r = u at *
  linarith

/-! The scenario. -/

/-- `F1` of the scenario under `B64` (V-C2). -/
def roundedF1 : List F64 :=
  [0x404F600000000000, 0x4022400000000000, 0x4034E00000000000, 0x4056500000000000, 0x4029BFFFFFFFFFFC] ++
  [0x4033200000000000, 0x4055700000000000, 0x4029400000000000, 0x4046300000000000, 0x4048600000000000] ++
  [0x4020400000000000, 0x405E780000000000, 0x4052D00000000000, 0x4027BFFFFFFFFFF8, 0x405E080000000000] ++
  [0x4051F00000000000, 0x4027400000000000, 0x40622C0000000000, 0x4063580000000000, 0x4037200000000000] ++
  [0x405CB80000000000, 0x4066A80000000000, 0x403AE00000000000, 0x405C480000000000, 0x4066380000000000] ++
  [0x403AA00000000000, 0x40614C0000000000]

theorem endToEnd_image_b64 : (imageOf endToEnd.geom fun r c =>
    correctPixel b64 (rgbMap (rgbMap b64.ofRat) endToEnd.ccm)
      (demosaicPixel b64 (sourceConsts b64 (rgbMap (rgbMap b64.ofRat) endToEnd.ccm)) endToEnd.mosaic r c)) =
    roundedF1 := by decide +kernel

/-- A sum of the scenario is in the domain and close to the exact one. -/
def sumClose (x : F64) (q : Rat) : Bool :=
  let s := B64.fadd x 0x4054000000000000
  inLogDomain b64 s && decide (|(B64.value s : Rat) / 2 ^ 1074 - (q + 80)| ≤ 1 / 2 ^ 46) && decide (q ≤ 200)

theorem endToEnd_sums : List.Forall₂ (fun x q => sumClose x q = true) roundedF1 exactF1 := by
  refine List.forall₂_iff_zip.2 ⟨by decide, fun {x q} h => ?_⟩
  have : (roundedF1.zip exactF1).all (fun p => sumClose p.1 p.2) = true := by decide +kernel
  exact List.all_eq_true.1 this (x, q) h

/-- A finite value close to a real number between 4 and 6: so the logarithms of the scenario are. -/
def LogClose (x : F64) (y : ℝ) : Prop :=
  B64.isFinite x = true ∧ |B64.toReal x - y| ≤ 1 / 2 ^ 44 ∧ 4 ≤ y ∧ y ≤ 6

theorem log_sub_le {a b : ℝ} (ha : 0 < a) (hb : 1 ≤ b) : Real.log a - Real.log b ≤ |a - b| := by
  have hb' : 0 < b := by linarith
  rw [← Real.log_div ha.ne' hb'.ne']
  calc Real.log (a / b) ≤ a / b - 1 := Real.log_le_sub_one_of_pos (by positivity)
    _ = (a - b) / b := by field_simp
    _ ≤ |a - b| / b := div_le_div_of_nonneg_right (le_abs_self _) hb'.le
    _ ≤ |a - b| := div_le_self (abs_nonneg _) hb

theorem abs_log_sub_le {a b : ℝ} (ha : 1 ≤ a) (hb : 1 ≤ b) : |Real.log a - Real.log b| ≤ |a - b| :=
  abs_le'.2 ⟨log_sub_le (by linarith) hb, by
    have := log_sub_le (a := b) (b := a) (by linarith) ha
    rw [abs_sub_comm b a] at this
    linarith⟩

theorem log_mem_Icc {a : ℝ} (h1 : 88 ≤ a) (h2 : a ≤ 280) : 4 ≤ Real.log a ∧ Real.log a ≤ 6 := by
  have lo := Real.exp_one_gt_d9
  have hi := Real.exp_one_lt_d9
  have e4 : Real.exp 4 = Real.exp 1 ^ 4 := by rw [← Real.exp_nat_mul]; norm_num
  have e6 : Real.exp 6 = Real.exp 1 ^ 6 := by rw [← Real.exp_nat_mul]; norm_num
  constructor
  · rw [Real.le_log_iff_exp_le (by linarith), e4]
    exact (pow_le_pow_left₀ (by positivity) hi.le 4).trans (by norm_num at *; linarith)
  · rw [Real.log_le_iff_le_exp (by linarith), e6]
    exact le_trans (by norm_num at *; linarith) (pow_le_pow_left₀ (by norm_num) lo.le 6)

theorem logClose_of_sum (h : NumAccurate b64 b64Accuracy) {x : F64} {q : Rat} (hq : 8 ≤ q)
    (hs : sumClose x q = true) : LogClose (B64.fln (B64.fadd x 0x4054000000000000)) (Real.log ((q : ℝ) + 80)) := by
  simp only [sumClose, Bool.and_eq_true, decide_eq_true_eq] at hs
  obtain ⟨⟨hd, hc⟩, hu⟩ := hs
  generalize B64.fadd x 0x4054000000000000 = s at *
  have hq' : (8 : ℝ) ≤ q := by exact_mod_cast hq
  have hu' : (q : ℝ) ≤ 200 := by exact_mod_cast hu
  have hc' : |B64.toReal s - ((q : ℝ) + 80)| ≤ 1 / 2 ^ 46 := by
    have : ((|(B64.value s : Rat) / 2 ^ 1074 - (q + 80)| : ℚ) : ℝ) ≤ ((1 / 2 ^ 46 : ℚ) : ℝ) := Rat.cast_le.2 hc
    simpa [B64.toReal] using this
  have hl := log_mem_Icc (a := (q : ℝ) + 80) (by linarith) (by linarith)
  have hs1 : 1 ≤ B64.toReal s := by have := (abs_le.1 hc').1; norm_num at *; linarith
  simp only [inLogDomain, Bool.and_eq_true] at hd
  have e1 := h.ln_error s hd.1 hd.2
  have e2 := (abs_log_sub_le hs1 (by linarith : (1 : ℝ) ≤ (q : ℝ) + 80)).trans hc'
  have e3 : |B64.toReal (B64.fln s) - Real.log (B64.toReal s)| ≤ 1 / 2 ^ 48 :=
    B64.close_of_ulp (abs_le.2 ⟨by have := (abs_le.1 e2).1; norm_num at *; linarith,
      by have := (abs_le.1 e2).2; norm_num at *; linarith⟩) e1
  refine ⟨h.ln_finite s hd.1 hd.2, (abs_sub_le _ (Real.log (B64.toReal s)) _).trans ?_, hl⟩
  norm_num at *
  linarith

theorem endToEnd_logs (h : NumAccurate b64 b64Accuracy) :
    List.Forall₂ LogClose (logImage b64 0x4054000000000000 roundedF1) exactLogs := by
  rw [logImage_b64, exactLogs, List.forall₂_map_left_iff, List.forall₂_map_right_iff]
  refine List.forall₂_iff_zip.2 ⟨by decide, fun {x q} hm => ?_⟩
  exact logClose_of_sum h (exactF1_ge q (List.of_mem_zip hm).2) ((List.forall₂_iff_zip.1 endToEnd_sums).2 hm)

/-- Choosing the less, or the greater, of two values on both sides keeps them close. -/
theorem LogClose.choose (h : NumAccurate b64 b64Accuracy) {x y : F64} {a b : ℝ} (hx : LogClose x a) (hy : LogClose y b) :
    LogClose (if b64.flt x y then x else y) (if realNum.flt a b then a else b) ∧
    LogClose (if b64.flt x y then y else x) (if realNum.flt a b then b else a) := by
  have hlt : b64.flt x y = true ↔ B64.toReal x < B64.toReal y := h.lt_iff x y hx.1 hy.1
  obtain ⟨fx, cx, lx⟩ := hx
  obtain ⟨fy, cy, ly⟩ := hy
  have cx' := abs_le.1 cx
  have cy' := abs_le.1 cy
  by_cases h1 : B64.toReal x < B64.toReal y <;> by_cases h2 : a < b <;>
    simp only [hlt.2, mt hlt.1, h1, realNum_flt, h2, if_true, if_false, not_false_eq_true, Bool.false_eq_true] <;>
    refine ⟨⟨?_, abs_le.2 ⟨?_, ?_⟩, ?_⟩, ?_, abs_le.2 ⟨?_, ?_⟩, ?_⟩ <;> first | assumption | linarith

theorem leastOf_logClose (h : NumAccurate b64 b64Accuracy) {xs : List F64} {ys : List ℝ}
    (hl : List.Forall₂ LogClose xs ys) (hne : xs ≠ []) : LogClose (leastOf b64 xs) (leastOf realNum ys) := by
  have key : ∀ {xs ys} (_ : List.Forall₂ LogClose xs ys) {x : F64} {a : ℝ}, LogClose x a →
      LogClose (xs.foldl (fun m y => if b64.flt y m then y else m) x)
        (ys.foldl (fun m y => if realNum.flt y m then y else m) a) := by
    intro xs ys hl
    induction hl with
    | nil => exact fun h0 => h0
    | cons h1 _ ih => exact fun h0 => ih (h1.choose h h0).1
  cases hl with
  | nil => exact absurd rfl hne
  | cons h0 hs => exact key hs h0

theorem greatestOf_logClose (h : NumAccurate b64 b64Accuracy) {xs : List F64} {ys : List ℝ}
    (hl : List.Forall₂ LogClose xs ys) (hne : xs ≠ []) : LogClose (greatestOf b64 xs) (greatestOf realNum ys) := by
  have key : ∀ {xs ys} (_ : List.Forall₂ LogClose xs ys) {x : F64} {a : ℝ}, LogClose x a →
      LogClose (xs.foldl (fun m y => if b64.flt m y then y else m) x)
        (ys.foldl (fun m y => if realNum.flt m y then y else m) a) := by
    intro xs ys hl
    induction hl with
    | nil => exact fun h0 => h0
    | cons h1 _ ih => exact fun h0 => ih (h0.choose h h1).2
  cases hl with
  | nil => exact absurd rfl hne
  | cons h0 hs => exact key hs h0

/-- The difference of two values close to logarithms. -/
theorem fsub_logClose (h : NumAccurate b64 b64Accuracy) {x y : F64} {a b : ℝ} (hx : LogClose x a) (hy : LogClose y b) :
    B64.isFinite (B64.fsub x y) = true ∧ |B64.toReal (B64.fsub x y) - (a - b)| ≤ 1 / 2 ^ 40 := by
  obtain ⟨fx, cx, lx⟩ := hx
  obtain ⟨fy, cy, ly⟩ := hy
  have cx' := abs_le.1 cx
  have cy' := abs_le.1 cy
  norm_num at cx' cy'
  have f := B64.isFinite_fsub fx fy (abs_le.2 ⟨by linarith, by linarith⟩) (abs_le.2 ⟨by linarith, by linarith⟩)
  have e : |B64.toReal (B64.fsub x y) - (B64.toReal x - B64.toReal y)| ≤ B64.ulp (B64.fsub x y) / 2 :=
    h.sub_error x y fx fy f
  have u : 0 ≤ B64.ulp (B64.fsub x y) := by rw [B64.ulp]; positivity
  have e' := abs_le.1 (B64.close_of_ulp (y := B64.toReal x - B64.toReal y)
    (abs_le.2 ⟨by linarith, by linarith⟩) (e.trans (half_le_self u)))
  norm_num at e'
  exact ⟨f, abs_le.2 ⟨by norm_num; linarith, by norm_num; linarith⟩⟩

/-- The normalisation of close values by close extremes that are at least 1 apart. -/
theorem normalise_close (h : NumAccurate b64 b64Accuracy) {mn mx v : F64} {a b c : ℝ} (hmn : LogClose mn a)
    (hmx : LogClose mx b) (hv : LogClose v c) (hr : a + 1 ≤ b) (h1 : a ≤ c) (h2 : c ≤ b) :
    |B64.toReal (normalise b64 mn mx v) - normalise realNum a b c| ≤ 1 / 1000000 := by
  obtain ⟨fx, ex⟩ := fsub_logClose h hv hmn
  obtain ⟨fy, ey⟩ := fsub_logClose h hmx hmn
  rw [normalise, normalise, show realNum.fsub = fun a b => a - b from rfl, realNum_fdiv _ (b := b - a) (by linarith)]
  change |B64.toReal (B64.fdiv (B64.fsub v mn) (B64.fsub mx mn)) - (c - a) / (b - a)| ≤ _
  have d := h.div_error (B64.fsub v mn) (B64.fsub mx mn) fx fy
  generalize B64.fsub v mn = p at *
  generalize B64.fsub mx mn = q at *
  have la := hmn.2.2
  have lb := hmx.2.2
  have hY : 0 < b - a := by linarith
  have ex' := abs_le.1 ex
  have ey' := abs_le.1 ey
  norm_num at ex' ey'
  have hq : 1 / 2 ≤ B64.toReal q := by linarith
  have hq0 : 0 < B64.toReal q := by linarith
  have f := B64.isFinite_fdiv fx fy (abs_le.2 ⟨by linarith, by linarith⟩) hq
  have u : 0 ≤ B64.ulp (B64.fdiv p q) := by rw [B64.ulp]; positivity
  have quot : |B64.toReal p / B64.toReal q - (c - a) / (b - a)| ≤ 1 / 2 ^ 37 := by
    rw [div_sub_div _ _ hq0.ne' hY.ne', abs_div, abs_of_pos (mul_pos hq0 hY), div_le_iff₀ (mul_pos hq0 hY)]
    rw [show B64.toReal p * (b - a) - B64.toReal q * (c - a) =
      (B64.toReal p - (c - a)) * (b - a) - (B64.toReal q - (b - a)) * (c - a) by ring]
    refine (abs_sub _ _).trans ?_
    rw [abs_mul, abs_mul, abs_of_pos hY, abs_of_nonneg (by linarith : 0 ≤ c - a)]
    have t1 : |B64.toReal p - (c - a)| * (b - a) ≤ 1 / 2 ^ 40 * (b - a) := mul_le_mul_of_nonneg_right ex hY.le
    have t2 : |B64.toReal q - (b - a)| * (c - a) ≤ 1 / 2 ^ 40 * (b - a) :=
      mul_le_mul ey (by linarith) (by linarith) (by positivity)
    have t3 : 1 / 2 * (b - a) ≤ B64.toReal q * (b - a) := mul_le_mul_of_nonneg_right hq hY.le
    norm_num at *
    linarith
  have unit : 0 ≤ (c - a) / (b - a) ∧ (c - a) / (b - a) ≤ 1 :=
    ⟨div_nonneg (by linarith) hY.le, (div_le_one hY).2 (by linarith)⟩
  have quot' := abs_le.1 quot
  norm_num at quot'
  have d' : |B64.toReal (B64.fdiv p q) - B64.toReal p / B64.toReal q| ≤ B64.ulp (B64.fdiv p q) / 2 := d hq0.ne' f
  have e := B64.close_of_ulp (abs_le.2 ⟨by linarith, by linarith⟩) (d'.trans (half_le_self u))
  refine (abs_sub_le _ (B64.toReal p / B64.toReal q) _).trans ?_
  norm_num at *
  linarith

/-- Values close to logarithms that are 1 apart are different. -/
theorem feq_logClose (h : NumAccurate b64 b64Accuracy) {mn mx : F64} {a b : ℝ} (hmn : LogClose mn a)
    (hmx : LogClose mx b) (hr : a + 1 ≤ b) : b64.feq mx mn = false := by
  have c1 := abs_le.1 hmn.2.1
  have c2 := abs_le.1 hmx.2.1
  norm_num at c1 c2
  have hlt : b64.flt mn mx = true := (h.lt_iff mn mx hmn.1 hmx.1).2 (show B64.toReal mn < B64.toReal mx by linarith)
  refine Bool.eq_false_iff.2 fun hc => ?_
  have := ((h.eq_iff mx mn hmx.1 hmn.1).1 hc).2
  simp [hlt] at this

/-- The extremes of the logarithms of the scenario. -/
theorem endToEnd_extremes (h : NumAccurate b64 b64Accuracy) :
    LogClose (leastOf b64 (logImage b64 0x4054000000000000 roundedF1)) (leastOf realNum exactLogs) ∧
    LogClose (greatestOf b64 (logImage b64 0x4054000000000000 roundedF1)) (greatestOf realNum exactLogs) :=
  have hne : logImage b64 0x4054000000000000 roundedF1 ≠ [] := List.ne_nil_of_length_pos (by simp [logImage, roundedF1])
  ⟨leastOf_logClose h (endToEnd_logs h) hne, greatestOf_logClose h (endToEnd_logs h) hne⟩

/-- The pipeline of the scenario under `B64` does not fault, and this is its result. -/
theorem endToEnd_b64 (h : NumAccurate b64 b64Accuracy) :
    endToEnd.under b64 = .ok ⟨leastOf b64 (logImage b64 0x4054000000000000 roundedF1),
      greatestOf b64 (logImage b64 0x4054000000000000 roundedF1),
      (logImage b64 0x4054000000000000 roundedF1).map
        (normalise b64 (leastOf b64 (logImage b64 0x4054000000000000 roundedF1))
          (greatestOf b64 (logImage b64 0x4054000000000000 roundedF1)))⟩ := by
  have off : (sourceConsts b64 (rgbMap (rgbMap b64.ofRat) endToEnd.ccm)).logOffset = 0x4054000000000000 := by
    decide +kernel
  rw [Scenario.under, imagePipeline, off, show (sourceConsts b64 (rgbMap (rgbMap b64.ofRat) endToEnd.ccm)).ccm =
    rgbMap (rgbMap b64.ofRat) endToEnd.ccm from rfl, endToEnd_image_b64]
  have hd : allInDomain b64 0x4054000000000000 roundedF1 = true := by decide +kernel
  have hf := feq_logClose h (endToEnd_extremes h).1 (endToEnd_extremes h).2 exactLogs_range
  rcases tonemapImage_cases b64 0x4054000000000000 roundedF1 with ⟨hc, -⟩ | ⟨-, hc, -⟩ | ⟨-, -, ht⟩
  · exact absurd (hd.symm.trans hc) (by decide)
  · exact absurd (hc.symm.trans hf) (by decide)
  · exact ht

/-- N8's figure: given the accuracy that `B64` states of each operation, `F2` of the scenario is within 1e-6 of the exact
one, whichever neighbours its logarithms are. -/
theorem b64_meetsFigure (h : NumAccurate b64 b64Accuracy) : meetsFigure b64 B64.toReal endToEnd := by
  refine ⟨_, _, endToEnd_b64 h, endToEnd_real, ?_⟩
  obtain ⟨lo, hi⟩ := endToEnd_extremes h
  rw [List.forall₂_map_left_iff, List.forall₂_map_right_iff]
  refine List.forall₂_iff_zip.2 ⟨(endToEnd_logs h).length_eq, fun {v c} hm => ?_⟩
  have hc := (List.of_mem_zip hm).2
  exact normalise_close h lo hi ((List.forall₂_iff_zip.1 (endToEnd_logs h)).2 hm) exactLogs_range (leastOf_real_le hc)
    (le_greatestOf_real hc)

end Sys2Proof.Machine
end

