-- ==== Sys2Proof/Laws/Memory.lean ====
section
/-! SUPPORT. Memory laws: reading after writing, the canonical form that every write keeps, and that two memories in
canonical form with the same elements are the same data. -/

namespace Sys2Proof.Machine

variable {w : Nat}

@[simp] theorem Memory.read_nil (i : Nat) : Memory.read ([] : Memory w) i = 0 := rfl

theorem Memory.read_cons (a : Nat) (v : BitVec w) (m : Memory w) (i : Nat) :
    Memory.read ((a, v) :: m) i = if a = i then v else Memory.read m i := rfl

theorem Memory.wf_nil : Memory.wf ([] : Memory w) := ⟨List.Pairwise.nil, by simp⟩

theorem Memory.wf_cons {c : Nat × BitVec w} {m : Memory w} :
    Memory.wf (c :: m) ↔ (∀ d ∈ m, c.1 < d.1) ∧ c.2 ≠ 0 ∧ Memory.wf m := by
  simp only [Memory.wf, List.pairwise_cons, List.forall_mem_cons]
  tauto

/-- An element number below every listed one reads as an unlisted element. -/
theorem Memory.read_below {m : Memory w} {i : Nat} (h : ∀ d ∈ m, i < d.1) : Memory.read m i = 0 := by
  induction m with
  | nil => rfl
  | cons c m ih =>
    obtain ⟨a, v⟩ := c
    have ha : i < a := h (a, v) (by simp)
    rw [Memory.read_cons, if_neg (by omega)]
    exact ih fun d hd => h d (by simp [hd])

/-- What is listed after a write was listed before, or is the element written. -/
theorem Memory.mem_write {m : Memory w} {i : Nat} {v : BitVec w} {c : Nat × BitVec w}
    (h : c ∈ Memory.write m i v) : c ∈ m ∨ (c = (i, v) ∧ v ≠ 0) := by
  induction m with
  | nil =>
    simp only [Memory.write] at h
    split at h <;> simp_all
  | cons d m ih =>
    obtain ⟨a, x⟩ := d
    simp only [Memory.write] at h
    split at h
    · rcases List.mem_cons.1 h with h | h
      · exact .inl (by simp [h])
      · exact (ih h).imp (by simp +contextual) id
    · split at h <;> split at h <;> simp_all
      all_goals tauto

/-- Every write keeps the canonical form. -/
theorem Memory.wf_write {m : Memory w} (h : Memory.wf m) (i : Nat) (v : BitVec w) :
    Memory.wf (Memory.write m i v) := by
  induction m with
  | nil =>
    simp only [Memory.write]
    split
    · exact Memory.wf_nil
    · exact Memory.wf_cons.2 ⟨by simp, ‹_›, Memory.wf_nil⟩
  | cons d m ih =>
    obtain ⟨a, x⟩ := d
    obtain ⟨hlt, hx, hm⟩ := Memory.wf_cons.1 h
    simp only [Memory.write]
    split
    · rename_i hai
      refine Memory.wf_cons.2 ⟨fun c hc => ?_, hx, ih hm⟩
      rcases Memory.mem_write hc with hc | ⟨rfl, -⟩
      · exact hlt c hc
      · exact hai
    · split
      · rename_i hai
        subst hai
        split
        · exact hm
        · exact Memory.wf_cons.2 ⟨hlt, ‹_›, hm⟩
      · split
        · exact h
        · refine Memory.wf_cons.2 ⟨fun c hc => ?_, ‹_›, h⟩
          rcases List.mem_cons.1 hc with rfl | hc
          · simp only; omega
          · have := hlt c hc; simp only at this ⊢; omega

/-- Reading after a write: the element written, and every other element as before. -/
theorem Memory.read_write {m : Memory w} (h : Memory.wf m) (i j : Nat) (v : BitVec w) :
    Memory.read (Memory.write m i v) j = if j = i then v else Memory.read m j := by
  induction m with
  | nil =>
    simp only [Memory.write]
    split
    · simp_all
    · simp only [Memory.read_cons, Memory.read_nil, eq_comm]
  | cons d m ih =>
    obtain ⟨a, x⟩ := d
    obtain ⟨hlt, -, hm⟩ := Memory.wf_cons.1 h
    have below : a ≥ i → Memory.read m i = 0 := fun hai =>
      Memory.read_below fun d hd => Nat.lt_of_le_of_lt hai (hlt d hd)
    simp only [Memory.write]
    split
    · rw [Memory.read_cons, Memory.read_cons, ih hm]
      by_cases hj : j = i
      · subst hj; rw [if_neg (by omega)]; simp
      · simp [hj]
    · have hz := below (by omega)
      split
      · rename_i hai
        subst hai
        by_cases hj : j = a
        · subst hj
          split <;> simp_all [Memory.read_cons]
        · have hj' : ¬ a = j := fun e => hj e.symm
          split <;> simp [Memory.read_cons, hj']
      · by_cases hj : j = i
        · subst hj
          have hja : ¬ a = j := by assumption
          split <;> simp_all [Memory.read_cons]
        · have hj' : ¬ i = j := fun e => hj e.symm
          split <;> simp [Memory.read_cons, hj']

theorem Memory.wf_writeFrom {m : Memory w} (h : Memory.wf m) (i : Nat) (vs : List (BitVec w)) :
    Memory.wf (Memory.writeFrom m i vs) := by
  induction vs generalizing m i with
  | nil => exact h
  | cons v vs ih => exact ih (Memory.wf_write h i v) (i + 1)

/-- A whole-buffer write keeps the canonical form. -/
theorem Memory.wf_writeAll {m : Memory w} (h : Memory.wf m) (vs : List (BitVec w)) :
    Memory.wf (Memory.writeAll m vs) := Memory.wf_writeFrom h 0 vs

theorem Memory.read_writeFrom {m : Memory w} (h : Memory.wf m) (i j : Nat) (vs : List (BitVec w)) :
    Memory.read (Memory.writeFrom m i vs) j =
      if i ≤ j ∧ j < i + vs.length then vs.getD (j - i) 0 else Memory.read m j := by
  induction vs generalizing m i with
  | nil => simp only [Memory.writeFrom, List.length_nil]; rw [if_neg (by omega)]
  | cons v vs ih =>
    simp only [Memory.writeFrom]
    rw [ih (Memory.wf_write h i v), Memory.read_write h, List.length_cons]
    by_cases hj : j = i
    · subst hj
      rw [if_neg (by omega), if_pos rfl, if_pos (by omega)]
      simp
    · rw [if_neg hj]
      by_cases hr : i + 1 ≤ j ∧ j < i + 1 + vs.length
      · rw [if_pos hr, if_pos (by omega), show j - i = (j - (i + 1)) + 1 by omega]
        simp
      · rw [if_neg hr, if_neg (by omega)]

/-- Reading after a whole-buffer write: the values written, then whatever stood behind them. -/
theorem Memory.read_writeAll {m : Memory w} (h : Memory.wf m) (vs : List (BitVec w)) (j : Nat) :
    Memory.read (Memory.writeAll m vs) j = if j < vs.length then vs.getD j 0 else Memory.read m j := by
  simp [Memory.writeAll, Memory.read_writeFrom h]

/-- What is listed after a whole-buffer write was listed before, or lies inside the part written. -/
theorem Memory.mem_writeFrom {m : Memory w} {i : Nat} {vs : List (BitVec w)} {c : Nat × BitVec w}
    (h : c ∈ Memory.writeFrom m i vs) : c ∈ m ∨ (i ≤ c.1 ∧ c.1 < i + vs.length) := by
  induction vs generalizing m i with
  | nil => exact .inl h
  | cons v vs ih =>
    rcases ih h with h | h
    · rcases Memory.mem_write h with h | ⟨rfl, -⟩
      · exact .inl h
      · exact .inr ⟨le_refl _, by simp⟩
    · exact .inr (by simp only [List.length_cons]; omega)

/-- A listed element of a memory in canonical form is what its number reads as. -/
theorem Memory.read_of_mem {m : Memory w} (h : Memory.wf m) {c : Nat × BitVec w} (hc : c ∈ m) :
    Memory.read m c.1 = c.2 := by
  induction m with
  | nil => simp at hc
  | cons d m ih =>
    obtain ⟨a, x⟩ := d
    obtain ⟨hlt, -, hm⟩ := Memory.wf_cons.1 h
    rcases List.mem_cons.1 hc with rfl | hc
    · simp [Memory.read_cons]
    · have := hlt c hc
      rw [Memory.read_cons, if_neg (by simp only at this; omega)]
      exact ih hm hc

/-- Two memories in canonical form that read the same everywhere are the same data. -/
theorem Memory.ext_of_read {m n : Memory w} (hm : Memory.wf m) (hn : Memory.wf n)
    (h : ∀ i, Memory.read m i = Memory.read n i) : m = n := by
  induction m generalizing n with
  | nil =>
    cases n with
    | nil => rfl
    | cons d n =>
      obtain ⟨-, hd, -⟩ := Memory.wf_cons.1 hn
      exact absurd ((Memory.read_of_mem hn (by simp)).symm.trans (h d.1).symm) hd
  | cons c m ih =>
    obtain ⟨hc, hcz, hm'⟩ := Memory.wf_cons.1 hm
    cases n with
    | nil => exact absurd ((Memory.read_of_mem hm (by simp)).symm.trans (h c.1)) hcz
    | cons d n =>
      obtain ⟨hd, hdz, hn'⟩ := Memory.wf_cons.1 hn
      have hcv : Memory.read (c :: m) c.1 = c.2 := Memory.read_of_mem hm (by simp)
      have hdv : Memory.read (d :: n) d.1 = d.2 := Memory.read_of_mem hn (by simp)
      have key : c.1 = d.1 := by
        rcases Nat.lt_trichotomy c.1 d.1 with hlt | heq | hgt
        · refine absurd (hcv.symm.trans ((h c.1).trans (Memory.read_below ?_))) hcz
          intro e he
          rcases List.mem_cons.1 he with rfl | he
          · exact hlt
          · exact hlt.trans (hd e he)
        · exact heq
        · refine absurd (hdv.symm.trans ((h d.1).symm.trans (Memory.read_below ?_))) hdz
          intro e he
          rcases List.mem_cons.1 he with rfl | he
          · exact hgt
          · exact hgt.trans (hc e he)
      have val : c.2 = d.2 := by rw [← hcv, ← hdv, ← key, h]
      have hcd : c = d := Prod.ext key val
      subst hcd
      refine congrArg _ (ih hm' hn' fun i => ?_)
      by_cases hi : c.1 = i
      · subst hi
        rw [Memory.read_below hc, Memory.read_below hd]
      · obtain ⟨a, x⟩ := c
        simpa [Memory.read_cons, hi] using h i

end Sys2Proof.Machine
end

