-- ==== Sys2Proof/Laws/Images.lean ====
section
/-! SUPPORT. Whole buffers in element order: their lengths, the element at each row, column and channel, and that an
element number inside a space is that of one row, column and channel (20_memory.md R51). -/

namespace Sys2Proof.Machine

@[simp] theorem length_mosaicOf {α : Type} (g : Geometry) (f : Nat → Nat → α) :
    (mosaicOf g f).length = g.mosaicCount := by simp [mosaicOf]

@[simp] theorem length_imageOf {α : Type} (g : Geometry) (f : Nat → Nat → Rgb α) :
    (imageOf g f).length = g.imageCount := by simp [imageOf]

@[simp] theorem length_imageElems {fw : Nat} (g : Geometry) (m : Memory fw) : (imageElems g m).length = g.imageCount := by
  simp [imageElems]

theorem mosaicIndex_lt {g : Geometry} {r c : Nat} (hr : r < g.h) (hc : c < g.w) :
    g.mosaicIndex r c < g.mosaicCount := by
  have : (r + 1) * g.w ≤ g.h * g.w := Nat.mul_le_mul_right _ hr
  have e : (r + 1) * g.w = r * g.w + g.w := by ring
  simp only [Geometry.mosaicIndex, Geometry.mosaicCount]
  omega

theorem imageIndex_lt {g : Geometry} {r c k : Nat} (hr : r < g.h - 1) (hc : c < g.w - 1) (hk : k < 3) :
    g.imageIndex r c k < g.imageCount := by
  have : (r + 1) * (g.w - 1) ≤ (g.h - 1) * (g.w - 1) := Nat.mul_le_mul_right _ hr
  have e : (r + 1) * (g.w - 1) = r * (g.w - 1) + (g.w - 1) := by ring
  simp only [Geometry.imageIndex, Geometry.imageCount]
  omega

theorem getD_mosaicOf_elem {α : Type} (g : Geometry) (f : Nat → Nat → α) (d : α) {e : Nat} (h : e < g.mosaicCount) :
    (mosaicOf g f).getD e d = f (e / g.w) (e % g.w) := by
  simp [mosaicOf, h]

/-- The element of a mosaic at row `r`, column `c`. -/
theorem getD_mosaicOf {α : Type} (g : Geometry) (f : Nat → Nat → α) (d : α) {r c : Nat} (hr : r < g.h) (hc : c < g.w) :
    (mosaicOf g f).getD (g.mosaicIndex r c) d = f r c := by
  rw [getD_mosaicOf_elem g f d (mosaicIndex_lt hr hc)]
  have hw : 0 < g.w := by omega
  simp only [Geometry.mosaicIndex]
  rw [show r * g.w + c = c + g.w * r by ring, Nat.add_mul_div_left _ _ hw, Nat.add_mul_mod_self_left,
    Nat.div_eq_of_lt hc, Nat.mod_eq_of_lt hc, Nat.zero_add]

theorem getD_imageOf_elem {α : Type} (g : Geometry) (f : Nat → Nat → Rgb α) (d : α) {e : Nat} (h : e < g.imageCount) :
    (imageOf g f).getD e d = (f (e / 3 / (g.w - 1)) (e / 3 % (g.w - 1))).chan (e % 3) := by
  simp [imageOf, h]

/-- The element of an image at row `r`, column `c`, channel `k`. -/
theorem getD_imageOf {α : Type} (g : Geometry) (f : Nat → Nat → Rgb α) (d : α) {r c k : Nat}
    (hr : r < g.h - 1) (hc : c < g.w - 1) (hk : k < 3) :
    (imageOf g f).getD (g.imageIndex r c k) d = (f r c).chan k := by
  rw [getD_imageOf_elem g f d (imageIndex_lt hr hc hk)]
  have hw : 0 < g.w - 1 := by omega
  have h3 : g.imageIndex r c k / 3 = r * (g.w - 1) + c := by simp only [Geometry.imageIndex]; omega
  have hm : g.imageIndex r c k % 3 = k := by simp only [Geometry.imageIndex]; omega
  rw [h3, hm, show r * (g.w - 1) + c = c + (g.w - 1) * r by ring, Nat.add_mul_div_left _ _ hw,
    Nat.add_mul_mod_self_left, Nat.div_eq_of_lt hc, Nat.mod_eq_of_lt hc, Nat.zero_add]

/-- Every element number of a mosaic is that of a row and a column. -/
theorem exists_mosaicIndex {g : Geometry} {e : Nat} (h : e < g.mosaicCount) :
    ∃ r c, r < g.h ∧ c < g.w ∧ e = g.mosaicIndex r c := by
  have hw : 0 < g.w := Nat.pos_of_ne_zero fun h0 => by simp [Geometry.mosaicCount, h0] at h
  refine ⟨e / g.w, e % g.w, ?_, Nat.mod_lt _ hw, ?_⟩
  · exact Nat.div_lt_of_lt_mul (by rw [Nat.mul_comm]; exact h)
  · simp only [Geometry.mosaicIndex]
    rw [Nat.mul_comm]
    exact (Nat.div_add_mod e g.w).symm

/-- Every element number of an image is that of a row, a column and a channel. -/
theorem exists_imageIndex {g : Geometry} {e : Nat} (h : e < g.imageCount) :
    ∃ r c k, r < g.h - 1 ∧ c < g.w - 1 ∧ k < 3 ∧ e = g.imageIndex r c k := by
  have hw : 0 < g.w - 1 := Nat.pos_of_ne_zero fun h0 => by simp [Geometry.imageCount, h0] at h
  refine ⟨e / 3 / (g.w - 1), e / 3 % (g.w - 1), e % 3, ?_, Nat.mod_lt _ hw, Nat.mod_lt _ (by decide), ?_⟩
  · simp only [Geometry.imageCount] at h
    exact Nat.div_lt_of_lt_mul (by rw [Nat.mul_comm]; omega)
  · simp only [Geometry.imageIndex]
    rw [Nat.mul_comm (e / 3 / (g.w - 1)), Nat.div_add_mod]
    omega

theorem getD_imageElems {fw : Nat} (g : Geometry) (m : Memory fw) {e : Nat} (h : e < g.imageCount) :
    (imageElems g m).getD e 0 = Memory.read m e := by
  simp [imageElems, h]

end Sys2Proof.Machine
end

