-- ==== Sys2Proof/Laws/PerInstr.lean ====
section
/-! SUPPORT. Per command: its word decodes to it, is no reserved word, and the command is well formed. -/

namespace Sys2Proof.Laws.RoundTrip

/-- The command is well formed, and its word is a command word that decodes to it (R82). -/
def Statement (i : Instr) : Prop := i.wellFormed = true ∧ Word.isCommand (encode i) = true ∧ decode (encode i) = .ok i

theorem unpack : Statement .unpack := by unfold Statement; decide
theorem demosaic : Statement .demosaic := by unfold Statement; decide
theorem correct : Statement .correct := by unfold Statement; decide
theorem tonemap : Statement .tonemap := by unfold Statement; decide
theorem run : Statement .run := by unfold Statement; decide
theorem clear : Statement .clear := by unfold Statement; decide

end Sys2Proof.Laws.RoundTrip
end

