-- ==== Sys2Proof/Tests/Slice0.lean ====
section
/-! SUPPORT. Tests against the spec's own examples and vectors (95_test_vectors.md), the smoke tests of the
well-formedness checks, and for every obligation with hypotheses a concrete state that meets them. -/

namespace Sys2Proof.Tests

set_option Elab.async false

open Sys2Proof Sys2Proof.Machine

/-! Configurations and states (95_test_vectors.md section 0). -/

/-- TCFG's geometry. -/
def geomT : Geometry where
  dumpLen := 43
  magic := #v[0x54, 0x53, 0x54, 0x30]
  hdrLen := 8
  bufRows := 5
  stride := 7
  actRows := 4
  actBytes := 5
  inCap := 64

/-- TCFG2's geometry: the smallest legal one. -/
def geomS : Geometry := { geomT with bufRows := 2, actRows := 2, stride := 5, hdrLen := 4, dumpLen := 14 }

/-- `CCM_T`: 1.5, -0.25, 0; -0.5, 1.25, -0.25; 0, -0.5, 1.5. -/
def ccmT : Rgb (Rgb F64) :=
  ⟨⟨0x3FF8000000000000, 0xBFD0000000000000, 0⟩,
   ⟨0xBFE0000000000000, 0x3FF4000000000000, 0xBFD0000000000000⟩,
   ⟨0, 0xBFE0000000000000, 0x3FF8000000000000⟩⟩

/-- `CCM_I`, the identity matrix. -/
def ccmI : Rgb (Rgb F64) :=
  ⟨⟨0x3FF0000000000000, 0, 0⟩, ⟨0, 0x3FF0000000000000, 0⟩, ⟨0, 0, 0x3FF0000000000000⟩⟩

/-- A record with the source's constants as the patterns of R103 give them. -/
def cfgOf (g : Geometry) (m : Rgb (Rgb F64)) : Cfg where
  geom := g
  consts :=
    { wr := 0x3FF0000000000000, wg := 0x3FE6666666666666, wb := 0x3FECCCCCCCCCCCCD, half := 0x3FE0000000000000,
      logOffset := 0x4054000000000000, ccm := m }

/-- The reset state of a block built with the given record. -/
def start (c : Cfg) : State := { State.reset with cfg := c }

/-- The state after a transaction, for a test of one step. -/
def after (t : Transaction) (s : State) : State :=
  match transact t s with
  | .next u => u
  | .fault _ => s
  | .refused _ => s

/-- Input A (45 bytes). -/
def inputA : List Byte :=
  [0x99, 0x98, 0x54, 0x53, 0x54, 0x30, 0xA1, 0xA2, 0xA3, 0xA4] ++
  [0x02, 0x05, 0x07, 0x0A, 0x88, 0xEE, 0xEF] ++ [0x0C, 0x0F, 0x11, 0x14, 0x88, 0xEE, 0xEF] ++
  [0x16, 0x19, 0x1B, 0x1E, 0x88, 0xEE, 0xEF] ++ [0x20, 0x23, 0x25, 0x28, 0x88, 0xEE, 0xEF] ++
  [0xDD, 0xDD, 0xDD, 0xDD, 0xDD, 0xDD, 0xDD]

/-- Input B (45 bytes): other blocks. -/
def inputB : List Byte :=
  [0x99, 0x98, 0x54, 0x53, 0x54, 0x30, 0xA1, 0xA2, 0xA3, 0xA4] ++
  [0xFF, 0x00, 0x80, 0x00, 0xC6, 0xEE, 0xEF] ++ [0x01, 0xFA, 0x3F, 0x40, 0xCC, 0xEE, 0xEF] ++
  [0x55, 0xAA, 0x00, 0xFF, 0x6C, 0xEE, 0xEF] ++ [0x10, 0x20, 0xC0, 0x01, 0x05, 0xEE, 0xEF] ++
  [0xDD, 0xDD, 0xDD, 0xDD, 0xDD, 0xDD, 0xDD]

/-- A state with some bytes in `IBUF`. -/
def withFrame (bytes : List Byte) (s : State) : State :=
  { s with
    ibuf := Memory.writeAll [] bytes, inLen := BitVec.ofNat 32 bytes.length, valid := ⟨true, false, false, false, false⟩ }

/-- A state with some samples in `MOSAIC`. -/
def withMosaic (samples : List Sample) (s : State) : State :=
  { s with mosaic := Memory.writeAll [] samples, valid := ⟨false, true, false, false, false⟩ }

/-- A state with some values in `F0`. -/
def withF0 (values : List F64) (s : State) : State :=
  { s with f0 := Memory.writeAll [] values, valid := ⟨false, false, true, false, false⟩ }

/-- A state with some values in `F1`. -/
def withF1 (values : List F64) (s : State) : State :=
  { s with f1 := Memory.writeAll [] values, valid := ⟨false, false, false, true, false⟩ }

/-- The first `n` samples of a mosaic. -/
def samplesOf (n : Nat) (m : Memory 16) : List Nat := (List.range n).map fun e => (Memory.read m e).toNat

/-- The values -79, 0, 920 of V-T1 in the three channels of every pixel of TCFG2 (program P5). -/
def imageP5 : List F64 :=
  [0xC053C00000000000, 0, 0x408CC00000000000, 0xC053C00000000000, 0, 0x408CC00000000000,
   0xC053C00000000000, 0, 0x408CC00000000000]

def sFrame : State := withFrame inputA (start (cfgOf geomT ccmT))
def sShort : State := withFrame (inputA.take 42) (start (cfgOf geomT ccmT))
def sBadMagic : State := withFrame (inputA.set 5 0x31) (start (cfgOf geomT ccmT))
def sMosaic : State :=
  withMosaic [10, 20, 30, 40, 50, 60, 70, 80, 90, 100, 110, 120, 130, 140, 150, 160] (start (cfgOf geomT ccmT))
def sImage : State := withF1 imageP5 (start (cfgOf geomS ccmI))
def sFaulted : State := { sFrame with err := 0x11 }
def sBusy : State := { sFrame with busy := true }

/-! Decoding: each word of R82 written out bit by bit. -/

theorem test_decode_unpack : decode 0b00000000000000000000000000000001 = .ok .unpack := by decide
theorem test_decode_demosaic : decode 0b00000000000000000000000000000010 = .ok .demosaic := by decide
theorem test_decode_correct : decode 0b00000000000000000000000000000011 = .ok .correct := by decide
theorem test_decode_tonemap : decode 0b00000000000000000000000000000100 = .ok .tonemap := by decide
theorem test_decode_run : decode 0b00000000000000000000000000000101 = .ok .run := by decide
theorem test_decode_clear : decode 0b00000000000000000000000000000110 = .ok .clear := by decide

/-- V-E4: `0x00010001` is reserved, not UNPACK. -/
theorem test_decode_upper_bits : decode 0x00010001 = .error (.reservedBits 0x00010001) := by decide

/-! Well-formedness: an ill-formed term for each check. -/

theorem test_wf_good : geomT.wellFormed = true ∧ geomS.wellFormed = true ∧ smallestGeometry.wellFormed = true := by decide
theorem test_wf_dumpLen : ({ geomT with dumpLen := 44 } : Geometry).wellFormed = false := by decide
theorem test_wf_magic : ({ geomT with magic := #v[0x54, 0x53, 0xD4, 0x30] } : Geometry).wellFormed = false := by decide
theorem test_wf_header : ({ geomT with hdrLen := 3, dumpLen := 38 } : Geometry).wellFormed = false := by decide
theorem test_wf_rows : ({ geomT with actRows := 6 } : Geometry).wellFormed = false := by decide
theorem test_wf_bytes : ({ geomT with actBytes := 10 } : Geometry).wellFormed = false := by decide
theorem test_wf_rowsEnough : ({ geomT with actRows := 1 } : Geometry).wellFormed = false := by decide
theorem test_wf_blocks : ({ geomT with actBytes := 6 } : Geometry).wellFormed = false ∧
    ({ geomT with actBytes := 0 } : Geometry).wellFormed = false := by decide
theorem test_wf_capacity : ({ geomT with inCap := 42 } : Geometry).wellFormed = false := by decide
theorem test_wf_capacityFits : ({ geomT with inCap := 2 ^ 32 } : Geometry).wellFormed = false := by decide
theorem test_wf_word : Word.isCommand 0x00000106 = false ∧ Word.isCommand 0x00000007 = false ∧
    Word.isCommand 0x00000000 = false ∧ Word.isCommand 0x00000006 = true := by decide
theorem test_wf_cfg : cfgValid b64 (cfgOf geomT ccmT) = true ∧
    cfgValid b64 (cfgOf geomT ⟨ccmT.r, ccmT.g, ⟨0, 0, 0x7FF0000000000000⟩⟩) = false := by decide +kernel

/-! The commands against the vectors. -/

/-- V-U10: leading bytes, header, padding bytes and the padding row are skipped. -/
theorem test_unpack_inputA : samplesOf 16 (after (scriptCmd .unpack) sFrame).mosaic =
    [10, 20, 30, 40, 50, 60, 70, 80, 90, 100, 110, 120, 130, 140, 150, 160] := by decide +kernel

/-- V-U11. -/
theorem test_unpack_inputB : samplesOf 16 (after (scriptCmd .unpack) (withFrame inputB sFrame)).mosaic =
    [1023, 0, 513, 2, 7, 1000, 255, 256, 341, 682, 3, 1020, 64, 128, 769, 5] := by decide +kernel

/-- S1, R131: the source's block 01 02 03 04 6C gives 5, 10, 15, 16. -/
theorem test_unpack_sourceExample : (List.range 4).map (fun p => (unpackSample (BitVec.ofNat 8 (p + 1)) 0x6C p).toNat) =
    [5, 10, 15, 16] := by decide

/-- V-D1: pixel (0,1), an odd column, bit-exact: (70, 31.499999999999996, 18). -/
theorem test_demosaic_oddColumn : pixelAt geomT (after (scriptCmd .demosaic) sMosaic).f0 0 1 =
    ⟨0x4051800000000000, 0x403F7FFFFFFFFFFF, 0x4032000000000000⟩ := by decide +kernel

/-- V-D1: pixel (1,1), odd row and column: (70, 59.49999999999999, 90). -/
theorem test_demosaic_oddRow : pixelAt geomT (after (scriptCmd .demosaic) sMosaic).f0 1 1 =
    ⟨0x4051800000000000, 0x404DBFFFFFFFFFFF, 0x4056800000000000⟩ := by decide +kernel

/-- V-C1: (50, 24.5, 18) times `CCM_T` is (62.75, 9.125, 20.875); a transposed matrix gives another pixel. -/
theorem test_correct_pixel :
    pixelAt geomS (after (scriptCmd .correct)
      (withF0 [0x4049000000000000, 0x4038800000000000, 0x4032000000000000] (start (cfgOf geomS ccmT)))).f1 0 0 =
    ⟨0x404F600000000000, 0x4022400000000000, 0x4034E00000000000⟩ := by decide +kernel

/-- V-C6: CORRECT with `V.F0 = 0`. -/
theorem test_correct_notValid : (after (scriptCmd .correct) sMosaic).err = 0x30 := by decide +kernel

/-- V-T6: -80 in one element, `s = 0`, fault 0x20; the input image stays VALID. -/
theorem test_tonemap_domain :
    let t := after (scriptCmd .tonemap) (withF1 (imageP5.set 0 0xC054000000000000) sImage)
    t.err = 0x20 ∧ t.valid = ⟨false, false, false, true, false⟩ := by decide +kernel

/-- R177: subtract, then divide; with the identity in the place of the logarithm, 2, 3, 4 give 0, 0.5, 1. -/
theorem test_tonemap_normalise :
    (match tonemapImage { b64 with fln := id } 0x3FF0000000000000
        [0x3FF0000000000000, 0x4000000000000000, 0x4008000000000000] with
      | .ok t => t.out
      | .error _ => []) = [0, 0x3FE0000000000000, 0x3FF0000000000000] := by decide +kernel

/-- P4: Input B through RUN ends in LOG_DOMAIN with `STATUS = 0xF2`, the earlier outputs VALID. -/
theorem test_run_domainFault :
    let t := after (scriptCmd .run) (withFrame inputB sFrame)
    t.err = 0x20 ∧ statusWord t = 0x0F2 ∧ Memory.read t.f1 1 = 0x408B9A8000000000 := by decide +kernel

/-- V-X2: RUN with no frame. -/
theorem test_run_noFrame : let t := after (scriptCmd .run) (start (cfgOf geomT ccmT))
    t.err = 0x30 ∧ statusWord t = 0x002 := by decide +kernel

/-- P3: CLEAR leaves the fault state. -/
theorem test_clear_fault : let t := after (scriptCmd .clear) sFaulted
    statusWord t = 0 ∧ t.err = 0 ∧ t.inLen = 0 := by decide +kernel

/-- V-X5: a reserved word while `ERR` is not 0 is refused and `ERR` keeps its code. -/
theorem test_reserved_refused : let t := after (.writeCsr 0 0) { sFrame with err := 0x40 }
    t.err = 0x40 ∧ t.response = .refused := by decide +kernel

/-- V-X16: `IN_LEN`, an element of `IBUF`, and the length of a LOAD. -/
theorem test_load_ibuf : let t := after (.loadIbuf inputA) (start (cfgOf geomT ccmT))
    t.inLen = 45 ∧ (after (.read .ibuf 2) t).response = .byte 0x54 ∧ statusWord t = 0x010 := by decide +kernel

/-- V-X13: 65 bytes are refused. -/
theorem test_load_tooLong : (after (.loadIbuf (List.replicate 65 0)) sFrame).response = .refused := by decide +kernel

/-- V-D5: a value 1024, or 15 values, are refused. -/
theorem test_load_mosaic_refused :
    (after (.loadMosaic (1024 :: List.replicate 15 0)) sFrame).response = .refused ∧
    (after (.loadMosaic (List.replicate 15 0)) sFrame).response = .refused := by decide +kernel

/-- V-X16: a read at an index beyond `IN_LEN` is the first free value of a byte. -/
theorem test_read_draw : (after (.read .ibuf 50) sFrame).response = .byte (Config.freeRead 8 0) := rfl

/-! The scalar operations. -/

/-- V-T9: `MIN` = `0x40118731FD788044` is one of the two faithful values of ln 80. -/
theorem test_ln_80 : 0x40118731FD788044#64 ∈ [B64.lnBelow 0x4054000000000000, B64.lnAbove 0x4054000000000000] := by
  decide +kernel

/-- R107: `fln(1.0) = +0.0`, whichever neighbour is picked. -/
theorem test_ln_one : B64.fln 0x3FF0000000000000 = 0 := by
  rcases B64.fln_cases (s := 0x3FF0000000000000) (by decide +kernel) with h | h <;> rw [h] <;> decide +kernel

/-- IEEE 754: 0.1 + 0.2 = 0.30000000000000004; the greatest value doubled is an infinity; -0 + -0 = -0. -/
theorem test_fadd : B64.fadd 0x3FB999999999999A 0x3FC999999999999A = 0x3FD3333333333334 ∧
    B64.fadd 0x7FEFFFFFFFFFFFFF 0x7FEFFFFFFFFFFFFF = 0x7FF0000000000000 ∧
    B64.fadd 0x8000000000000000 0x8000000000000000 = 0x8000000000000000 := by decide +kernel

/-- IEEE 754: 1/3, and gradual underflow: the least normal halved, the least subnormal halved (a tie to even). -/
theorem test_fdiv : B64.fdiv 0x3FF0000000000000 0x4008000000000000 = 0x3FD5555555555555 ∧
    B64.fdiv 0x0010000000000000 0x4000000000000000 = 0x0008000000000000 ∧
    B64.fdiv 0x0000000000000001 0x4000000000000000 = 0 := by decide +kernel

/-! A state that meets the hypotheses of each obligation that has some. -/

theorem test_hyp_StepRunsDecodedCommand :
    let s := { sFrame with script := [.writeCsr 0 1, .reset] }
    s.script = .writeCsr 0 1 :: [.reset] ∧ decode 1 = .ok .unpack ∧ sFrame.script = [] := by decide

/-- R3, R62: a step carries out a LOAD of the script, and P1's frame gives `IN_LEN = 45`. -/
theorem test_step_load :
    (match step { start (cfgOf geomT ccmT) with script := [.loadIbuf inputA, .read .csr 3] } with
      | .next t => decide (t.inLen = 45 ∧ t.valid.ibuf = true ∧ t.script = [.read .csr 3])
      | _ => false) = true := by decide +kernel

theorem test_hyp_ReservedWordFaults :
    ({ sFrame with script := [.writeCsr 0 9] }).script = .writeCsr 0 9 :: [] ∧
    decode 9 = .error (.reservedOpcode 9) ∧ sFrame.busy = false ∧ sFrame.err = 0 ∧
    decode 0xFFFFFFFF = .error (.reservedBits 0xFFFFFFFF) ∧ sFaulted.busy = false ∧ sFaulted.err ≠ 0 := by decide

theorem test_hyp_CommandWriteFollowsDecoder :
    sBusy.busy = true ∧ (sFaulted.busy = false ∧ sFaulted.err ≠ 0 ∧ (5 : Word) ≠ 6) ∧
    (sFrame.busy = false ∧ sFrame.err = 0) ∧
    ¬ (1 ≤ (7 : Word).toNat ∧ (7 : Word).toNat ≤ 6) ∧ ¬ (1 ≤ (0 : Word).toNat ∧ (0 : Word).toNat ≤ 6) := by decide

theorem test_hyp_ResetEventEqualsClear : sFaulted.busy = false := by decide

theorem test_hyp_UnpackWritesSamples :
    sFrame.accepts ∧ sFrame.valid.ibuf = true ∧ Memory.wf sFrame.mosaic ∧
    sFrame.cfg.geom.dumpLen ≤ sFrame.inLen.toNat ∧
    (∀ k (hk : k < 4), Memory.read sFrame.ibuf (windowBase sFrame + k) = sFrame.cfg.geom.magic[k]) ∧
    3 < sFrame.cfg.geom.h ∧ 3 < sFrame.cfg.geom.w ∧ sFrame.cfg.geom.mosaicCount ≤ 16 := by decide +kernel

theorem test_hyp_SampleIsTenBitNumber : (0 : Nat) < 4 ∧ (3 : Nat) < 4 ∧ (1023 : Nat) ≤ 1023 := by decide

theorem test_hyp_OfIntExact : (2046 : Nat) < 2 ^ 53 ∧ (2046 : Nat) ≤ 2046 ∧ (2045 : Nat) < 2046 := by decide

theorem test_hyp_UnpackShortInputFaults :
    sShort.accepts ∧ sShort.valid.ibuf = true ∧ sShort.inLen.toNat + 1 = sShort.cfg.geom.dumpLen := by decide +kernel

theorem test_hyp_UnpackMagicMismatchFaults :
    sBadMagic.accepts ∧ sBadMagic.valid.ibuf = true ∧ sBadMagic.cfg.geom.dumpLen ≤ sBadMagic.inLen.toNat ∧
    Memory.read sBadMagic.ibuf (windowBase sBadMagic + 3) ≠ sBadMagic.cfg.geom.magic[3] := by decide +kernel

theorem test_hyp_UnpackIndicesInRange :
    geomT.wellFormed = true ∧ geomT.dumpLen ≤ 43 ∧ 3 < geomT.h ∧ 4 < geomT.actBytes ∧ 3 < geomT.w := by decide

theorem test_hyp_UnpackIgnoresUnreadBytes :
    let u := { sFrame with ibuf := Memory.writeAll [] ((inputA.set 0 0).set 44 1) }
    sFrame.cfg.geom.wellFormed = true ∧ u = { sFrame with ibuf := u.ibuf } ∧ u.ibuf ≠ sFrame.ibuf ∧
    (∀ k, k < 4 → Memory.read u.ibuf (windowBase sFrame + k) = Memory.read sFrame.ibuf (windowBase sFrame + k)) ∧
    (∀ r, r < sFrame.cfg.geom.h → ∀ j, j < sFrame.cfg.geom.actBytes →
      Memory.read u.ibuf (windowBase sFrame + sFrame.cfg.geom.hdrLen + r * sFrame.cfg.geom.stride + j) =
      Memory.read sFrame.ibuf (windowBase sFrame + sFrame.cfg.geom.hdrLen + r * sFrame.cfg.geom.stride + j)) :=
  ⟨by decide +kernel, rfl, by decide +kernel, by decide +kernel, by decide +kernel⟩

theorem test_hyp_DemosaicWritesPixels :
    sMosaic.accepts ∧ sMosaic.valid.mosaic = true ∧ Memory.wf sMosaic.f0 ∧
    2 < sMosaic.cfg.geom.h - 1 ∧ 2 < sMosaic.cfg.geom.w - 1 ∧ sMosaic.cfg.geom.imageCount ≤ 27 := by decide +kernel

/-- A state with a VALID `F0`. -/
def sRaw : State := withF0 (List.replicate 27 0x4049000000000000) (start (cfgOf geomT ccmT))

theorem test_hyp_CorrectWritesProducts :
    sRaw.accepts ∧ sRaw.valid.f0 = true ∧ Memory.wf sRaw.f1 ∧
    2 < sRaw.cfg.geom.h - 1 ∧ 2 < sRaw.cfg.geom.w - 1 ∧ sRaw.cfg.geom.imageCount ≤ 27 := by decide +kernel

theorem test_hyp_CorrectIdentityMatrix :
    rgbAll B64.isFinite (⟨0x4049000000000000, 0x8000000000000000, 0x7FEFFFFFFFFFFFFF⟩ : Rgb F64) = true := by decide

theorem test_imageP5_clean : logsClean 0x4054000000000000 imageP5 = true := by decide +kernel

/-- The range of the image of P5 is not zero, whichever neighbour each logarithm returns. -/
theorem test_imageP5_range :
    b64.feq (greatestOf b64 (logImage b64 0x4054000000000000 imageP5))
      (leastOf b64 (logImage b64 0x4054000000000000 imageP5)) = false :=
  range_of_clean test_imageP5_clean (a := 0xC053C00000000000) (b := 0x408CC00000000000) (by simp [imageP5])
    (by simp [imageP5]) 1 (by decide +kernel) (by decide +kernel) (by decide +kernel) (by decide +kernel)

theorem test_imageP5_elems : imageElems sImage.cfg.geom sImage.f1 = imageP5 := by decide +kernel

theorem test_hyp_TonemapWritesNormalisedImage :
    sImage.accepts ∧ sImage.valid.f1 = true ∧ Memory.wf sImage.f2 ∧ sImage.cfg.geom.imageCount = 9 ∧
    (∀ e, e < sImage.cfg.geom.imageCount →
      B64.isFinite (B64.fadd (Memory.read sImage.f1 e) sImage.cfg.consts.logOffset) = true ∧
      B64.flt (B64.ofInt 0) (B64.fadd (Memory.read sImage.f1 e) sImage.cfg.consts.logOffset) = true) ∧
    (let logs := (imageElems sImage.cfg.geom sImage.f1).map fun v => B64.fln (B64.fadd v sImage.cfg.consts.logOffset)
     B64.feq (greatestOf b64 logs) (leastOf b64 logs) = false) := by
  refine ⟨by decide +kernel, by decide +kernel, by decide +kernel, by decide +kernel, by decide +kernel, ?_⟩
  have off : sImage.cfg.consts.logOffset = 0x4054000000000000 := by decide +kernel
  have h := test_imageP5_range
  rw [logImage_b64, b64_feq] at h
  rw [test_imageP5_elems, off]
  exact h

theorem test_hyp_TonemapDomainFaults :
    let s := withF1 (imageP5.set 8 0xC054000000000000) sImage
    s.accepts ∧ s.valid.f1 = true ∧ 8 < s.cfg.geom.imageCount ∧
    B64.flt (B64.ofInt 0) (B64.fadd (Memory.read s.f1 8) s.cfg.consts.logOffset) = false ∧
    B64.isFinite (B64.fadd 0x7FF0000000000000 s.cfg.consts.logOffset) = false := by decide +kernel

/-- A uniform image of -79: every sum is 1, every logarithm +0. -/
def sUniform : State := withF1 (List.replicate 9 0xC053C00000000000) (start (cfgOf geomS ccmI))

theorem test_hyp_TonemapZeroRangeFaults :
    sUniform.accepts ∧ sUniform.valid.f1 = true ∧
    (∀ e, e < sUniform.cfg.geom.imageCount →
      B64.isFinite (B64.fadd (Memory.read sUniform.f1 e) sUniform.cfg.consts.logOffset) = true ∧
      B64.flt (B64.ofInt 0) (B64.fadd (Memory.read sUniform.f1 e) sUniform.cfg.consts.logOffset) = true) ∧
    (let logs := (imageElems sUniform.cfg.geom sUniform.f1).map fun v =>
      B64.fln (B64.fadd v sUniform.cfg.consts.logOffset)
     B64.feq (greatestOf b64 logs) (leastOf b64 logs) = true) := by
  refine ⟨by decide +kernel, by decide +kernel, by decide +kernel, ?_⟩
  have one : B64.fln (B64.fadd 0xC053C00000000000 sUniform.cfg.consts.logOffset) = 0 := by
    have : B64.fadd 0xC053C00000000000 sUniform.cfg.consts.logOffset = 0x3FF0000000000000 := by decide +kernel
    rw [this, test_ln_one]
  have elems : imageElems sUniform.cfg.geom sUniform.f1 = List.replicate 9 0xC053C00000000000 := by decide +kernel
  simp only [elems, List.map_replicate, one]
  decide +kernel

theorem test_hyp_ReductionFindsExtremes :
    NumLawful realNum ∧ ([3, 1, 2] : List ℝ) ≠ [] ∧ (∀ x ∈ ([3, 1, 2] : List ℝ), realNum.isFinite x = true) :=
  ⟨realNum_lawful, by simp, fun _ _ => rfl⟩

theorem test_hyp_ReductionOrderFree :
    NumLawful realNum ∧ ([3, 1, 2] : List ℝ) ≠ [] ∧ (∀ x ∈ ([3, 1, 2] : List ℝ), realNum.isFinite x = true) ∧
    List.Perm ([3, 1, 2] : List ℝ) [1, 3, 2] :=
  ⟨realNum_lawful, by simp, fun _ _ => rfl, List.Perm.swap 1 3 [2]⟩

theorem test_hyp_TonemapBounds : ∃ t : Toned ℝ,
    NumLawful realNum ∧ ([-79, 0] : List ℝ) ≠ [] ∧ tonemapImage realNum 80 [-79, 0] = .ok t ∧
    (∀ a ∈ logImage realNum 80 [-79, 0], ∀ b ∈ logImage realNum 80 [-79, 0],
      realNum.isFinite (realNum.fsub a b) = true) ∧
    (∀ y ∈ t.out, realNum.isFinite y = true) := by
  have hd : allInDomain realNum 80 [-79, 0] = true := by
    simp [allInDomain, inLogDomain, logArgument, realNum]
    norm_num
  have hf : realNum.feq (greatestOf realNum (logImage realNum 80 [-79, 0]))
      (leastOf realNum (logImage realNum 80 [-79, 0])) = false := by
    have h1 : logImage realNum 80 [-79, 0] = [0, Real.log 80] := by
      have h0 : realNum.fln ((-79 : ℝ) + 80) = 0 := by rw [realNum_fln (by norm_num)]; norm_num
      have h80 : realNum.fln ((0 : ℝ) + 80) = Real.log 80 := by rw [realNum_fln (by norm_num)]; norm_num
      simp only [logImage, logArgument, List.map_cons, List.map_nil]
      exact congrArg₂ (fun x y => [x, y]) h0 h80
    have h2 : 0 < Real.log 80 := Real.log_pos (by norm_num)
    rw [h1, Bool.eq_false_iff, ne_eq, realNum_feq]
    have lo : leastOf realNum [0, Real.log 80] ≤ 0 := leastOf_real_le (by simp)
    have hi : Real.log 80 ≤ greatestOf realNum [0, Real.log 80] := le_greatestOf_real (by simp)
    linarith
  rcases tonemapImage_cases realNum 80 [-79, 0] with ⟨h, -⟩ | ⟨-, h, -⟩ | ⟨-, -, h⟩
  · simp [hd] at h
  · simp [hf] at h
  · exact ⟨_, realNum_lawful, by simp, h, fun _ _ _ _ => rfl, fun _ _ => rfl⟩

theorem test_hyp_UniformImageFaults : NumLawful realNum ∧ 0 < 9 := ⟨realNum_lawful, by decide⟩

theorem test_hyp_StageInputNotValidFaults :
    sMosaic.accepts ∧ validOf sMosaic.valid (stageInput .unpack) = false ∧
    validOf sMosaic.valid (stageInput .correct) = false ∧ validOf sMosaic.valid (stageInput .tonemap) = false ∧
    validOf sMosaic.valid (stageInput .run) = false ∧ sFrame.accepts ∧
    validOf sFrame.valid (stageInput .demosaic) = false := by decide +kernel

theorem test_hyp_StageFaultLeavesNoOutput :
    sMosaic.accepts ∧ exec .correct sMosaic = .next (after (scriptCmd .correct) sMosaic) ∧
    (after (scriptCmd .correct) sMosaic).err ≠ 0 :=
  ⟨by decide +kernel, rfl, by decide +kernel⟩

theorem test_hyp_StagesReadOnlyTheirInput :
    let u := { sMosaic with f0 := [(0, 1)], minReg := 7 }
    sMosaic.accepts ∧ u.accepts ∧ sMosaic.canonical ∧ u.canonical ∧ sMosaic.cfg = u.cfg ∧
    sMosaic.ibuf = u.ibuf ∧ sMosaic.inLen = u.inLen ∧ sMosaic.valid = u.valid ∧ sMosaic.mosaic = u.mosaic ∧
    sMosaic.f1 = u.f1 := by
  refine ⟨by decide +kernel, by decide +kernel, ?_, ?_, rfl, rfl, rfl, rfl, rfl, rfl⟩ <;>
    (unfold Block.State.canonical; decide +kernel)

/-- TCFG2 with the source's block in both rows (S1): the smallest frame that runs through. -/
def sSmall : State :=
  withFrame [0x54, 0x53, 0x54, 0x30, 0x01, 0x02, 0x03, 0x04, 0x6C, 0x01, 0x02, 0x03, 0x04, 0x6C] (start (cfgOf geomS ccmI))

/-- Its samples (S1). -/
def samplesSmall : List Sample := [5, 10, 15, 16, 5, 10, 15, 16]

/-- Its image `F1`. -/
def imageSmall : List F64 := correctedImageOf sSmall.cfg (rawImageOf sSmall.cfg samplesSmall)

theorem test_small_unpack :
    unpackGrid sSmall.cfg.geom (Memory.read sSmall.ibuf) sSmall.inLen.toNat = .ok samplesSmall := by
  have h : (match unpackGrid sSmall.cfg.geom (Memory.read sSmall.ibuf) sSmall.inLen.toNat with
    | .ok l => some l
    | .error _ => none) = some samplesSmall := by decide +kernel
  split at h <;> simp_all

/-- The small frame's image as patterns: reds 5, 15, 15, greens 0.35 times 15, 25 and 31, blues 9, 9 and 14.4. -/
def imageSmallBits : List F64 :=
  [0x4014000000000000, 0x4015000000000000, 0x4022000000000000,
   0x402E000000000000, 0x4021800000000000, 0x4022000000000000,
   0x402E000000000000, 0x4025B33333333333, 0x402CCCCCCCCCCCCD]

theorem test_small_image : imageSmall = imageSmallBits := by decide +kernel

theorem test_small_clean : logsClean 0x4054000000000000 imageSmallBits = true := by decide +kernel

/-- Its range is not zero: ln 85 and ln 95 differ, whichever neighbours are returned. -/
theorem test_small_range : b64.feq (greatestOf b64 (logImage b64 0x4054000000000000 imageSmallBits))
    (leastOf b64 (logImage b64 0x4054000000000000 imageSmallBits)) = false :=
  range_of_clean test_small_clean (a := 0x4014000000000000) (b := 0x402E000000000000) (by simp [imageSmallBits])
    (by simp [imageSmallBits]) 0x4011D00000000000 (by decide +kernel) (by decide +kernel) (by decide +kernel)
    (by decide +kernel)

theorem test_hyp_RunWritesAllBuffers : ∃ t : Toned F64,
    sSmall.accepts ∧ sSmall.canonical ∧ sSmall.valid.ibuf = true ∧
    unpackGrid sSmall.cfg.geom (Memory.read sSmall.ibuf) sSmall.inLen.toNat = .ok samplesSmall ∧
    tonemapImage b64 sSmall.cfg.consts.logOffset
      (correctedImageOf sSmall.cfg (rawImageOf sSmall.cfg samplesSmall)) = .ok t := by
  have hi : correctedImageOf sSmall.cfg (rawImageOf sSmall.cfg samplesSmall) = imageSmallBits := test_small_image
  have hd := allInDomain_of_clean test_small_clean
  have hr := test_small_range
  rw [hi]
  rcases tonemapImage_cases b64 0x4054000000000000 imageSmallBits with ⟨h, -⟩ | ⟨-, h, -⟩ | ⟨-, -, h⟩
  · exact absurd (h.symm.trans hd) Bool.false_ne_true
  · exact absurd (hr.symm.trans h) Bool.false_ne_true
  · exact ⟨_, by decide +kernel, by unfold Block.State.canonical; decide +kernel, rfl, test_small_unpack, h⟩

/-- The small frame in a block whose matrix is -79 times the red channel: its first sum is negative. -/
def sDark : State :=
  { sSmall with cfg := cfgOf geomS ⟨⟨0xC053C00000000000, 0, 0⟩, ⟨0, 0, 0⟩, ⟨0, 0, 0⟩⟩ }

theorem test_hyp_RunStopsAtTonemapFault :
    sDark.accepts ∧ sDark.canonical ∧ sDark.valid.ibuf = true ∧
    unpackGrid sDark.cfg.geom (Memory.read sDark.ibuf) sDark.inLen.toNat = .ok samplesSmall ∧
    tonemapImage b64 sDark.cfg.consts.logOffset
      (correctedImageOf sDark.cfg (rawImageOf sDark.cfg samplesSmall)) = .error .logDomain := by
  refine ⟨by decide +kernel, by unfold Block.State.canonical; decide +kernel, rfl, test_small_unpack, ?_⟩
  have hd : allInDomain b64 sDark.cfg.consts.logOffset
      (correctedImageOf sDark.cfg (rawImageOf sDark.cfg samplesSmall)) = false := by decide +kernel
  simp [tonemapImage, hd]

theorem test_hyp_ClearDiscardsFrame : sFaulted.busy = false ∧ sFrame.busy = false := by decide

theorem test_hyp_LoadIbufWritesFrame :
    sFrame.accepts ∧ Memory.wf sFrame.ibuf ∧ (List.replicate 64 (7 : Byte)).length ≤ sFrame.cfg.geom.inCap := by
  decide +kernel

theorem test_hyp_LoadMosaicWritesGrid :
    sMosaic.accepts ∧ Memory.wf sMosaic.mosaic ∧ (List.replicate 16 1023).length = sMosaic.cfg.geom.mosaicCount ∧
    ∀ v ∈ List.replicate 16 1023, v ≤ 1023 := by decide +kernel

theorem test_hyp_LoadImageWritesFloats :
    sImage.accepts ∧ sImage.canonical ∧ imageP5.length = sImage.cfg.geom.imageCount ∧
    ∀ v ∈ imageP5, B64.isFinite v = true :=
  ⟨by decide +kernel, by unfold Block.State.canonical; decide +kernel, by decide +kernel,
    List.all_eq_true.1 (by decide +kernel)⟩

theorem test_hyp_OutsideTheRulesRefused :
    ¬ sFaulted.accepts ∧ ¬ sBusy.accepts ∧ sFrame.cfg.geom.inCap < (List.replicate 65 (0 : Byte)).length ∧
    (List.replicate 15 0).length ≠ sFrame.cfg.geom.mosaicCount ∧ (∃ v ∈ [1024], 1023 < v) ∧
    (List.replicate 26 (0 : F64)).length ≠ sFrame.cfg.geom.imageCount ∧
    B64.isFinite 0x7FF0000000000000 = false ∧ (1 : Nat) ≠ 0 ∧
    spaceSize sFrame.cfg.geom .csr ≤ 6 ∧ spaceSize sFrame.cfg.geom .mosaic ≤ 16 := by decide +kernel

/-- A state whose five buffers are all VALID. -/
def sAll : State := { sFrame with valid := ⟨true, true, true, true, true⟩ }

theorem test_hyp_ReadReturnsElement :
    sAll.busy = false ∧ sAll.valid = ⟨true, true, true, true, true⟩ ∧ 0 < sAll.inLen.toNat ∧
    0 < sAll.cfg.geom.inCap ∧ 0 < sAll.cfg.geom.mosaicCount ∧ 0 < sAll.cfg.geom.imageCount := by decide +kernel

theorem test_hyp_UnspecifiedReadIsFree :
    (start (cfgOf geomT ccmT)).busy = false ∧ (start (cfgOf geomT ccmT)).valid = ⟨false, false, false, false, false⟩ ∧
    (sFrame.busy = false ∧ sFrame.inLen.toNat ≤ 45 ∧ 45 < sFrame.cfg.geom.inCap) := by decide +kernel

theorem test_hyp_BusyRefusesAllButStatus : sBusy.busy = true := by decide

theorem test_hyp_CfgNeverChanges : ∃ t, step sFrame = .next t := ⟨_, rfl⟩

theorem test_hyp_FaultClearedOnlyByClearOrReset :
    let s := { sFaulted with script := [.loadIbuf inputA] }
    s.err ≠ 0 ∧ s.script = .loadIbuf inputA :: [] ∧ (.loadIbuf inputA : Transaction) ≠ .reset ∧
    (.loadIbuf inputA : Transaction) ≠ .writeCsr 0 6 ∧ ∃ t, step s = .next t :=
  ⟨by decide, rfl, by simp, by simp, _, rfl⟩

/-- A loaded frame with UNPACK as the next transaction. -/
def sReady : State := { sFrame with script := [scriptCmd .unpack] }

theorem test_ready_shaped : sReady.shaped where
  cfg := by decide +kernel
  canonical := by unfold Block.State.canonical; decide +kernel
  inside := by unfold Block.State.insideSpaces Memory.inside; decide +kernel
  len := by decide +kernel
  idle := by decide +kernel
  err := .inl rfl

theorem test_hyp_StepKeepsShape : sReady.shaped ∧ ∃ t, step sReady = .next t := ⟨test_ready_shaped, _, rfl⟩

theorem test_mosaic_shaped : ({ sMosaic with script := [scriptCmd .demosaic] }).shaped where
  cfg := by decide +kernel
  canonical := by unfold Block.State.canonical; decide +kernel
  inside := by unfold Block.State.insideSpaces Memory.inside; decide +kernel
  len := by decide +kernel
  idle := by decide +kernel
  err := .inl rfl

theorem test_hyp_StepKeepsTenBitSamples :
    let s := { sMosaic with script := [scriptCmd .demosaic] }
    s.shaped ∧ s.samplesTenBit ∧ s.valid.mosaic = true ∧ ∃ t, step s = .next t :=
  ⟨test_mosaic_shaped, by unfold Block.State.samplesTenBit; decide +kernel, by decide +kernel, _, rfl⟩

theorem test_hyp_StepKeepsRawImageFinite :
    let s := { sMosaic with script := [scriptCmd .demosaic] }
    s.shaped ∧ s.samplesTenBit ∧ s.rawFinite ∧ ∃ t, step s = .next t :=
  ⟨test_mosaic_shaped, by unfold Block.State.samplesTenBit; decide +kernel,
    by unfold Block.State.rawFinite; decide +kernel, _, rfl⟩

theorem test_image_shaped : ({ sImage with script := [scriptCmd .tonemap] }).shaped where
  cfg := by decide +kernel
  canonical := by unfold Block.State.canonical; decide +kernel
  inside := by unfold Block.State.insideSpaces Memory.inside; decide +kernel
  len := by decide +kernel
  idle := by decide +kernel
  err := .inl rfl

theorem test_hyp_StepKeepsNormalised :
    let s := { sImage with script := [scriptCmd .tonemap] }
    s.shaped ∧ s.normalised ∧ ∃ t, step s = .next t :=
  ⟨test_image_shaped, fun h => absurd h (by decide +kernel), _, rfl⟩

/-- The scenario of N8 is P1's: TCFG, `CCM_T` and the mosaic `M_A`. -/
theorem test_endToEnd_scenario :
    endToEnd.geom = geomT ∧ rgbMap (rgbMap b64.ofRat) endToEnd.ccm = ccmT ∧
    (mosaicOf endToEnd.geom endToEnd.mosaic) = samplesOf 16 (after (scriptCmd .unpack) sFrame).mosaic := by decide +kernel

/-- V-T8: the extremes of the scenario are ln 88.125 at element `[1][0][1]` and ln 261.25 at element `[2][1][0]`; V-C2's
first element is 251/4. -/
theorem test_endToEnd_extremes : exactF1.getD 0 0 + 80 = 142.75 ∧ exactF1.getD 10 0 + 80 = 88.125 ∧
    exactF1.getD 21 0 + 80 = 261.25 := by decide +kernel

theorem test_hyp_LogCurveIsFaithful :
    B64.isFinite 0x0000000000000001 = true ∧ B64.flt (B64.ofInt 0) 0x0000000000000001 = true ∧
    B64.isFinite 0x7FEFFFFFFFFFFFFF = true ∧ B64.flt (B64.ofInt 0) 0x7FEFFFFFFFFFFFFF = true := by decide +kernel

theorem test_hyp_B64CorrectlyRounded :
    B64.isFinite 0x3FF0000000000000 = true ∧ B64.isFinite 0x4008000000000000 = true ∧
    B64.isFinite (B64.fadd 0x3FF0000000000000 0x4008000000000000) = true ∧
    B64.isFinite (B64.fsub 0x3FF0000000000000 0x4008000000000000) = true ∧
    B64.isFinite (B64.fmul 0x3FF0000000000000 0x4008000000000000) = true ∧
    B64.toReal 0x4008000000000000 ≠ 0 ∧ B64.isFinite (B64.fdiv 0x3FF0000000000000 0x4008000000000000) = true := by
  refine ⟨by decide +kernel, by decide +kernel, by decide +kernel, by decide +kernel, by decide +kernel, ?_,
    by decide +kernel⟩
  have : B64.value 0x4008000000000000 ≠ 0 := by decide +kernel
  simpa [B64.toReal] using this

/-- A `NUM` of 16-bit whole numbers, no admissible one: it shows that the width and the operations are arguments. -/
def wholeNum : Num (BitVec 16) where
  fw := some 16
  ofInt := BitVec.ofNat 16
  ofRat := fun q => BitVec.ofNat 16 q.floor.toNat
  fadd := fun a b => a + b
  fsub := fun a b => a - b
  fmul := fun a b => a * b
  fdiv := fun a b => BitVec.ofNat 16 (a.toNat / b.toNat)
  fln := fun a => a
  flt := fun a b => decide (a.toNat < b.toNat)
  feq := fun a b => a == b
  isFinite := fun a => a.toNat != 0xFFFF

/-- A block of TCFG2's geometry with that `NUM`, weights 1 and 2, and the samples of V-D4 divided by 100. -/
def sWhole : Block.State 16 :=
  { Block.State.resetWith (fw := 16)
      ⟨geomS, ⟨1, 2, 1, 1, 80, ⟨⟨1, 0, 0⟩, ⟨0, 1, 0⟩, ⟨0, 0, 1⟩⟩⟩⟩ with
    mosaic := Memory.writeAll [] [1, 2, 3, 4, 5, 6, 7, 8], valid := ⟨false, true, false, false, false⟩ }

/-- V-D4's taps for pixel (0,0): red 5, greens 1 and 6, blue 2, in the arithmetic of the given `NUM`. -/
theorem test_anyNum_demosaic :
    (match execOf wholeNum .demosaic sWhole with
      | .next t => decide (pixelAt geomS t.f0 0 0 = ⟨5, 14, 2⟩)
      | _ => false) = true := by decide +kernel

/-- R64: `LOAD F0` refuses a value that is not finite in the block's own `NUM`. -/
theorem test_anyNum_load :
    (match transactOf wholeNum (.loadF0 (0xFFFF :: List.replicate 8 0)) sWhole with
      | .next t => t.response == .refused
      | _ => false) = true := by decide +kernel

theorem test_hyp_AnyNumStagesWriteResults :
    sWhole.accepts ∧ sWhole.valid.mosaic = true ∧ Memory.wf sWhole.f0 ∧ 0 < sWhole.cfg.geom.h - 1 ∧
    2 < sWhole.cfg.geom.w - 1 ∧ sWhole.cfg.geom.imageCount ≤ 9 ∧ sRaw.accepts ∧ sRaw.valid.f0 = true ∧
    Memory.wf sRaw.f1 ∧ sImage.accepts ∧ sImage.valid.f1 = true ∧ Memory.wf sImage.f2 := by decide +kernel

/-- Both answers of the tone mapper occur in such a block. -/
theorem test_hyp_AnyNumTonemap :
    (match tonemapImage wholeNum 80 [1, 2, 3] with
      | .ok t => t.mx == 83
      | .error _ => false) = true ∧
    (match tonemapImage wholeNum 80 [1, 1, 1] with
      | .ok _ => false
      | .error k => k == .zeroRange) = true := by decide +kernel

end Sys2Proof.Tests
end

section
/-! SUPPORT. What a step can do, said once for a block with any `NUM`: each stage's answers, the chain of RUN, and the
inversion of one transaction; and that the machine is that block at the default `B64` (00_scope.md R3, R11). -/

namespace Sys2Proof.Machine

variable {fw : Nat} {n : Num (BitVec fw)}

/-- A stage that does not complete takes a fault after its chain invalidation (R209, R210). -/
def StageFaults (body : Block.State fw → Block.State fw) (b : Space) (s : Block.State fw) : Prop :=
  ∃ c, body s = faultEntry c (beginWrite b s)

theorem unpackBody_cases (s : Block.State fw) : StageFaults unpackBody .mosaic s ∨
    s.valid.ibuf = true ∧ s.cfg.geom.dumpLen ≤ s.inLen.toNat ∧
      magicMatches s.cfg.geom (Memory.read s.ibuf) (windowBase s) = true ∧
      unpackBody s = endWrite .mosaic { beginWrite .mosaic s with
        mosaic := Memory.writeAll s.mosaic
          (mosaicOf s.cfg.geom (unpackAt s.cfg.geom (Memory.read s.ibuf) (windowBase s))) } := by
  cases hv : s.valid.ibuf
  · exact .inl ⟨_, unpackBody_notValid hv⟩
  · rcases unpackGrid_cases s.cfg.geom (Memory.read s.ibuf) s.inLen.toNat with
      ⟨-, hg⟩ | ⟨-, -, hg⟩ | ⟨hlen, hmagic, hg⟩
    · exact .inl ⟨_, unpackBody_error hv hg⟩
    · exact .inl ⟨_, unpackBody_error hv hg⟩
    · exact .inr ⟨rfl, hlen, hmagic, unpackBody_ok hv hg⟩

theorem demosaicBody_cases (n : Num (BitVec fw)) (s : Block.State fw) : StageFaults (demosaicBody n) .f0 s ∨
    s.valid.mosaic = true ∧ demosaicBody n s = endWrite .f0 { beginWrite .f0 s with
      f0 := Memory.writeAll s.f0
        (imageOf s.cfg.geom (demosaicPixel n s.cfg.consts (mosaicAt s.cfg.geom s.mosaic))) } := by
  cases hv : s.valid.mosaic
  · exact .inl ⟨_, demosaicBody_notValid n hv⟩
  · exact .inr ⟨rfl, demosaicBody_ok n hv⟩

theorem correctBody_cases (n : Num (BitVec fw)) (s : Block.State fw) : StageFaults (correctBody n) .f1 s ∨
    s.valid.f0 = true ∧ correctBody n s = endWrite .f1 { beginWrite .f1 s with
      f1 := Memory.writeAll s.f1
        (imageOf s.cfg.geom fun r c => correctPixel n s.cfg.consts.ccm (pixelAt s.cfg.geom s.f0 r c)) } := by
  cases hv : s.valid.f0
  · exact .inl ⟨_, correctBody_notValid n hv⟩
  · exact .inr ⟨rfl, correctBody_ok n hv⟩

theorem tonemapBody_cases (n : Num (BitVec fw)) (s : Block.State fw) : StageFaults (tonemapBody n) .f2 s ∨
    ∃ t, s.valid.f1 = true ∧ tonemapImage n s.cfg.consts.logOffset (imageElems s.cfg.geom s.f1) = .ok t ∧
      tonemapBody n s = endWrite .f2 { beginWrite .f2 s with
        minReg := t.mn, maxReg := t.mx, f2 := Memory.writeAll s.f2 t.out } := by
  cases hv : s.valid.f1
  · exact .inl ⟨_, tonemapBody_notValid n hv⟩
  · cases ht : tonemapImage n s.cfg.consts.logOffset (imageElems s.cfg.geom s.f1) with
    | error c => exact .inl ⟨c, tonemapBody_error n hv ht⟩
    | ok t => exact .inr ⟨t, rfl, rfl, tonemapBody_ok n hv ht⟩

/-- The tone mapper answers one value for each element of the image (R177). -/
theorem length_out_of_tonemapImage {off : BitVec fw} {g : Geometry} {m : Memory fw} {t : Toned (BitVec fw)}
    (h : tonemapImage n off (imageElems g m) = .ok t) : t.out.length = g.imageCount := by
  rcases tonemapImage_cases n off (imageElems g m) with ⟨-, he⟩ | ⟨-, -, he⟩ | ⟨-, -, he⟩ <;> rw [he] at h
  · cases h
  · cases h
  · cases h
    simp [logImage]

theorem thenStage_keeps {P : Block.State fw → Prop} {body : Block.State fw → Block.State fw}
    (hbody : ∀ s, P s → P (body s)) {s : Block.State fw} (hs : P s) : P (thenStage body s) := by
  by_cases he : s.err = 0
  · rw [thenStage_clean he]
    exact hbody s hs
  · rwa [thenStage_faulted he]

/-- RUN keeps what each of its four stages keeps (R190). -/
theorem runBody_keeps {P : Block.State fw → Prop} (hu : ∀ s, P s → P (unpackBody s))
    (hd : ∀ s, P s → P (demosaicBody n s)) (hc : ∀ s, P s → P (correctBody n s))
    (ht : ∀ s, P s → P (tonemapBody n s)) (s : Block.State fw) (hs : P s) : P (runBody n s) :=
  thenStage_keeps ht (thenStage_keeps hc (thenStage_keeps hd (hu s hs)))

/-- The bodies that run where `command` accepts: the four stages, RUN, and the fault of a reserved word (R82, R194). -/
inductive CommandBody (n : Num (BitVec fw)) : (Block.State fw → Block.State fw) → Prop
  | unpack : CommandBody n unpackBody
  | demosaic : CommandBody n (demosaicBody n)
  | correct : CommandBody n (correctBody n)
  | tonemap : CommandBody n (tonemapBody n)
  | run : CommandBody n (runBody n)
  | reserved : CommandBody n (faultEntry .illegalCommand)

/-- What one transaction can make of a state, one case per rule that changes the block. -/
inductive Transacted (n : Num (BitVec fw)) (s : Block.State fw) : Block.State fw → Prop
  /-- A read, or a transaction that is refused: only the model's own fields change (R60, R66). -/
  | unchanged (r : ResponseOf fw) (k : Nat) : Transacted n s { s with response := r, draws := k }
  /-- The reset event, or an accepted CLEAR (R192, R230). -/
  | discarded : Transacted n s (respond .done (discardFrame s))
  /-- Any other accepted command (R84). -/
  | command {body : Block.State fw → Block.State fw} (hbody : CommandBody n body) (ha : s.accepts) :
      Transacted n s (endCommand (body (startCommand s)))
  | loadIbuf (bytes : List Byte) (ha : s.accepts) (hok : ibufDataOk s.cfg.geom bytes = true) :
      Transacted n s (respond .done (endWrite .ibuf { beginWrite .ibuf s with
        ibuf := Memory.writeAll s.ibuf bytes, inLen := BitVec.ofNat 32 bytes.length }))
  | loadMosaic (values : List Nat) (ha : s.accepts) (hok : mosaicDataOk s.cfg.geom values = true) :
      Transacted n s (respond .done (endWrite .mosaic { beginWrite .mosaic s with
        mosaic := Memory.writeAll s.mosaic (values.map (BitVec.ofNat 16)) }))
  | loadF0 (values : List (BitVec fw)) (ha : s.accepts) (hok : imageDataOk n s.cfg.geom values = true) :
      Transacted n s (respond .done (endWrite .f0 { beginWrite .f0 s with f0 := Memory.writeAll s.f0 values }))
  | loadF1 (values : List (BitVec fw)) (ha : s.accepts) (hok : imageDataOk n s.cfg.geom values = true) :
      Transacted n s (respond .done (endWrite .f1 { beginWrite .f1 s with f1 := Memory.writeAll s.f1 values }))

namespace Transacted

theorem refuse (s : Block.State fw) : Transacted n s (Machine.refuse s) := unchanged .refused s.draws

theorem of_command {body : Block.State fw → Block.State fw} (hbody : CommandBody n body) (s : Block.State fw) :
    Transacted n s (Machine.command body s) := by
  by_cases ha : s.accepts
  · rw [command_accepted ha]
    exact command hbody ha
  · rw [command_refused ha]
    exact refuse s

theorem of_clear (s : Block.State fw) : Transacted n s (doClear s) := by
  cases hb : s.busy
  · rw [doClear, clearCommand_idle hb]
    exact discarded
  · rw [doClear, clearCommand_busy hb]
    exact refuse s

/-- A LOAD is refused, or its effect is one that an accepted LOAD has. -/
theorem of_load {ok : Bool} {effect : Block.State fw → Block.State fw} {s : Block.State fw}
    (heffect : s.accepts → ok = true → Transacted n s (respond .done (effect s))) :
    Transacted n s (load ok effect s) := by
  by_cases h : s.accepts ∧ ok = true
  · rw [load_accepted h.1 h.2]
    exact heffect h.1 h.2
  · rw [load_refused h]
    exact refuse s

theorem of_readElement {w : Nat} (ok : Bool) (v : BitVec w) (form : BitVec w → ResponseOf fw) (s : Block.State fw) :
    Transacted n s (readElement ok v form s) := by
  obtain ⟨r, k, h⟩ := readElement_frame ok v form s
  rw [h]
  exact unchanged r k

theorem of_respond (r : ResponseOf fw) (s : Block.State fw) : Transacted n s (respond r s) := unchanged r s.draws

theorem of_readRegister (i : Nat) (s : Block.State fw) : Transacted n s (readRegister i s) :=
  match i with
  | 0 | 1 | 2 | 3 => of_respond _ s
  | 4 | _ + 5 => of_readElement _ _ _ s

theorem of_hostRead (sp : Space) (i : Nat) (s : Block.State fw) : Transacted n s (hostRead sp i s) := by
  by_cases h : s.readable sp i
  · rw [hostRead_inside h]
    cases sp with
    | csr => exact of_readRegister i s
    | ibuf | mosaic | f0 | f1 | f2 => exact of_readElement _ _ _ s
  · rw [hostRead_refused h]
    exact refuse s

theorem of_execOf {i : Instr} {s t : Block.State fw} (h : execOf n i s = .next t) : Transacted n s t := by
  cases i <;> cases h
  case unpack => exact of_command .unpack s
  case demosaic => exact of_command .demosaic s
  case correct => exact of_command .correct s
  case tonemap => exact of_command .tonemap s
  case run => exact of_command .run s
  case clear => exact of_clear s

theorem of_writeCmd {w : Word} {s t : Block.State fw} (h : writeCmdWith (execOf n) w s = .next t) :
    Transacted n s t := by
  cases hd : decode w with
  | ok i =>
    rw [writeCmdWith_of_decode hd] at h
    exact of_execOf h
  | error e =>
    rw [writeCmdWith_of_reserved hd] at h
    cases h
    exact of_command .reserved s

/-- The inversion of a transaction: whatever it is, one of the cases of `Transacted` holds. -/
theorem of_transactOf {x : TransactionOf fw} {s t : Block.State fw} (h : transactOf n x s = .next t) :
    Transacted n s t := by
  cases x with
  | reset => cases h; exact discarded
  | loadIbuf bytes => cases h; exact of_load (loadIbuf bytes)
  | loadMosaic values => cases h; exact of_load (loadMosaic values)
  | loadF0 values => cases h; exact of_load (loadF0 values)
  | loadF1 values => cases h; exact of_load (loadF1 values)
  | loadF2 values => cases h; exact refuse s
  | read sp i => cases h; exact of_hostRead sp i s
  | writeCsr k w =>
    simp only [transactOf, transactWith] at h
    split at h
    · exact of_writeCmd h
    · cases h; exact refuse s

end Transacted

/-- The inversion of a step: nothing changes, or the next transaction is carried out (R3, R225). -/
theorem stepOf_cases {s t : Block.State fw} (h : stepOf n s = .next t) :
    t = s ∨ ∃ rest, Transacted n { s with script := rest } t := by
  cases hs : s.script with
  | nil =>
    rw [stepOf, nextTransactionWith_nil hs] at h
    cases h
    exact .inl rfl
  | cons x rest =>
    rw [stepOf, nextTransactionWith_cons hs] at h
    exact .inr ⟨rest, .of_transactOf h⟩

/-! The machine as the block with any `NUM` at `B64` (log entry 11). -/

theorem execOf_b64 : execOf b64 = exec := by
  funext i s
  cases i <;> rfl

theorem transactOf_b64 : transactOf b64 = transact := by
  funext t s
  rw [transactOf, transact, execOf_b64]

theorem stepOf_b64 : stepOf b64 = step := by
  funext s
  rw [stepOf, step, nextTransaction, execOf_b64]

end Sys2Proof.Machine

open Sys2Proof Sys2Proof.Machine

/-- Settles O59: `exec` is `execOf b64` command by command, and the rest of the machine is built on it. -/
theorem defaultNumIsB64 : Obligations.DefaultNumIsB64 :=
  ⟨fun i s => congrFun (congrFun execOf_b64 i) s, fun t s => congrFun (congrFun transactOf_b64 t) s,
    congrFun stepOf_b64, rfl, rfl⟩

/-- Settles O4, from what `step` does on an empty script and on a script with a next transaction. -/
theorem stepRunsDecodedCommand : Obligations.StepRunsDecodedCommand := by
  have hcmd (s : State) (w : Word) : transact (.writeCsr 0 w) s = writeCmd w s := rfl
  refine ⟨fun s x rest hs => nextTransaction_cons hs, hcmd, fun s w i rest hs hd => ?_,
    fun s hs => nextTransaction_nil hs⟩
  calc step s = transact (.writeCsr 0 w) { s with script := rest } := nextTransaction_cons hs
    _ = writeCmd w { s with script := rest } := hcmd _ w
    _ = exec i { s with script := rest } := writeCmd_of_decode hd _

end

section
/-! SUPPORT. What every step keeps, for a block with any `NUM`: the plain data of `CFG` (00_scope.md R6), the memories
inside their spaces, `IN_LEN` and `ERR` in their ranges, and an idle block. -/

namespace Sys2Proof.Machine

variable {fw : Nat} {n : Num (BitVec fw)}

/-! `CFG`. -/

theorem StageFaults.cfg {body : Block.State fw → Block.State fw} {b : Space} {s : Block.State fw}
    (h : StageFaults body b s) : (body s).cfg = s.cfg := by
  obtain ⟨c, h⟩ := h
  rw [h]
  rfl

@[simp] theorem unpackBody_cfg (s : Block.State fw) : (unpackBody s).cfg = s.cfg := by
  rcases unpackBody_cases s with h | ⟨-, -, -, h⟩
  · exact h.cfg
  · rw [h]; rfl

@[simp] theorem demosaicBody_cfg (s : Block.State fw) : (demosaicBody n s).cfg = s.cfg := by
  rcases demosaicBody_cases n s with h | ⟨-, h⟩
  · exact h.cfg
  · rw [h]; rfl

@[simp] theorem correctBody_cfg (s : Block.State fw) : (correctBody n s).cfg = s.cfg := by
  rcases correctBody_cases n s with h | ⟨-, h⟩
  · exact h.cfg
  · rw [h]; rfl

@[simp] theorem tonemapBody_cfg (s : Block.State fw) : (tonemapBody n s).cfg = s.cfg := by
  rcases tonemapBody_cases n s with h | ⟨t, -, -, h⟩
  · exact h.cfg
  · rw [h]; rfl

@[simp] theorem runBody_cfg (s : Block.State fw) : (runBody n s).cfg = s.cfg :=
  runBody_keeps (P := fun u => u.cfg = s.cfg) (fun u h => (unpackBody_cfg u).trans h)
    (fun u h => (demosaicBody_cfg u).trans h) (fun u h => (correctBody_cfg u).trans h)
    (fun u h => (tonemapBody_cfg u).trans h) s rfl

theorem CommandBody.cfg {body : Block.State fw → Block.State fw} (h : CommandBody n body) (s : Block.State fw) :
    (body s).cfg = s.cfg := by
  cases h <;> simp

theorem Transacted.cfg {s t : Block.State fw} (h : Transacted n s t) : t.cfg = s.cfg := by
  cases h with
  | command hbody => exact hbody.cfg (startCommand s)
  | _ => rfl

theorem stepOf_keeps_cfg {s t : Block.State fw} (h : stepOf n s = .next t) : t.cfg = s.cfg := by
  rcases stepOf_cases h with rfl | ⟨rest, h⟩
  · rfl
  · exact h.cfg

/-! The shape of the state, but for `CFG` and `BUSY`. -/

/-- A memory in canonical form that lists nothing outside a space of `size` elements. -/
structure Memory.Fits {w : Nat} (m : Memory w) (size : Nat) : Prop where
  wf : Memory.wf m
  inside : Memory.inside m size

theorem Memory.Fits.writeAll {w size : Nat} {m : Memory w} (h : Memory.Fits m size) {vs : List (BitVec w)}
    (hlen : vs.length ≤ size) : Memory.Fits (Memory.writeAll m vs) size where
  wf := Memory.wf_writeAll h.wf vs
  inside c hc := by
    rcases Memory.mem_writeFrom hc with hold | ⟨-, hnew⟩
    · exact h.inside c hold
    · omega

/-- Accepted data of `LOAD F0` and `LOAD F1` are one whole image (R64). -/
theorem length_of_imageDataOk {F : Type} {n : Num F} {g : Geometry} {values : List F}
    (h : imageDataOk n g values = true) : values.length = g.imageCount := by
  obtain ⟨hlen, -⟩ := Bool.and_eq_true_iff.1 h
  exact eq_of_beq hlen

/-- Accepted data of `LOAD MOSAIC` are one whole mosaic (R63). -/
theorem length_of_mosaicDataOk {g : Geometry} {values : List Nat} (h : mosaicDataOk g values = true) :
    values.length = g.mosaicCount := by
  obtain ⟨hlen, -⟩ := Bool.and_eq_true_iff.1 h
  exact eq_of_beq hlen

/-- What of `Block.State.shaped` holds also while a command runs, and in a block with any `NUM`. -/
structure Block.State.Tidy (s : Block.State fw) : Prop where
  ibuf : Memory.Fits s.ibuf (spaceSize s.cfg.geom .ibuf)
  mosaic : Memory.Fits s.mosaic (spaceSize s.cfg.geom .mosaic)
  f0 : Memory.Fits s.f0 (spaceSize s.cfg.geom .f0)
  f1 : Memory.Fits s.f1 (spaceSize s.cfg.geom .f1)
  f2 : Memory.Fits s.f2 (spaceSize s.cfg.geom .f2)
  len : s.inLen.toNat ≤ s.cfg.geom.inCap
  err : s.errKnown

theorem shaped_iff {s : State} : s.shaped ↔ cfgValid b64 s.cfg = true ∧ s.Tidy ∧ s.busy = false where
  mp h :=
    let ⟨ci, cm, c0, c1, c2⟩ := h.canonical
    let ⟨ii, im, i0, i1, i2⟩ := h.inside
    ⟨h.cfg, ⟨⟨ci, ii⟩, ⟨cm, im⟩, ⟨c0, i0⟩, ⟨c1, i1⟩, ⟨c2, i2⟩, h.len, h.err⟩, h.idle⟩
  mpr := fun ⟨hcfg, h, hidle⟩ =>
    { cfg := hcfg
      canonical := ⟨h.ibuf.wf, h.mosaic.wf, h.f0.wf, h.f1.wf, h.f2.wf⟩
      inside := ⟨h.ibuf.inside, h.mosaic.inside, h.f0.inside, h.f1.inside, h.f2.inside⟩
      len := h.len
      idle := hidle
      err := h.err }

namespace Block.State.Tidy

variable {s : Block.State fw}

theorem faultEntry (h : s.Tidy) (c : Cause) : (Machine.faultEntry c s).Tidy := { h with err := .inr ⟨c, rfl⟩ }

theorem of_faults {body : Block.State fw → Block.State fw} {b : Space} (h : s.Tidy) (hf : StageFaults body b s) :
    (body s).Tidy := by
  obtain ⟨c, hf⟩ := hf
  rw [hf]
  exact { h with err := .inr ⟨c, rfl⟩ }

theorem unpackBody (h : s.Tidy) : (Machine.unpackBody s).Tidy := by
  rcases unpackBody_cases s with hf | ⟨-, -, -, hw⟩
  · exact h.of_faults hf
  · rw [hw]
    exact { h with mosaic := h.mosaic.writeAll (length_mosaicOf _ _).le }

theorem demosaicBody (h : s.Tidy) : (Machine.demosaicBody n s).Tidy := by
  rcases demosaicBody_cases n s with hf | ⟨-, hw⟩
  · exact h.of_faults hf
  · rw [hw]
    exact { h with f0 := h.f0.writeAll (length_imageOf _ _).le }

theorem correctBody (h : s.Tidy) : (Machine.correctBody n s).Tidy := by
  rcases correctBody_cases n s with hf | ⟨-, hw⟩
  · exact h.of_faults hf
  · rw [hw]
    exact { h with f1 := h.f1.writeAll (length_imageOf _ _).le }

theorem tonemapBody (h : s.Tidy) : (Machine.tonemapBody n s).Tidy := by
  rcases tonemapBody_cases n s with hf | ⟨t, -, ht, hw⟩
  · exact h.of_faults hf
  · rw [hw]
    exact { h with f2 := h.f2.writeAll (length_out_of_tonemapImage ht).le }

theorem commandBody {body : Block.State fw → Block.State fw} (hbody : CommandBody n body) (h : s.Tidy) :
    (body s).Tidy := by
  cases hbody with
  | unpack => exact h.unpackBody
  | demosaic => exact h.demosaicBody
  | correct => exact h.correctBody
  | tonemap => exact h.tonemapBody
  | run =>
    exact runBody_keeps (fun _ h => h.unpackBody) (fun _ h => h.demosaicBody) (fun _ h => h.correctBody)
      (fun _ h => h.tonemapBody) s h
  | reserved => exact h.faultEntry .illegalCommand

theorem transacted {t : Block.State fw} (h : s.Tidy) (ht : Transacted n s t) : t.Tidy := by
  cases ht with
  | unchanged r k => exact { h with }
  | discarded => exact { h with len := Nat.zero_le _, err := .inl rfl }
  | command hbody =>
    have hstart : (startCommand s).Tidy := { h with }
    exact { hstart.commandBody hbody with }
  | loadIbuf bytes ha hok =>
    have hlen : bytes.length ≤ s.cfg.geom.inCap := of_decide_eq_true hok
    have hmod : (BitVec.ofNat 32 bytes.length).toNat ≤ bytes.length := by
      rw [BitVec.toNat_ofNat]
      exact Nat.mod_le _ _
    exact { h with ibuf := h.ibuf.writeAll hlen, len := hmod.trans hlen }
  | loadMosaic values ha hok =>
    exact { h with mosaic := h.mosaic.writeAll ((List.length_map _).trans (length_of_mosaicDataOk hok)).le }
  | loadF0 values ha hok => exact { h with f0 := h.f0.writeAll (length_of_imageDataOk hok).le }
  | loadF1 values ha hok => exact { h with f1 := h.f1.writeAll (length_of_imageDataOk hok).le }

end Block.State.Tidy

/-! An idle block. -/

/-- Every transaction on an idle block ends in an idle block (R29). -/
theorem Transacted.idle {s t : Block.State fw} (h : Transacted n s t) (hs : s.busy = false) : t.busy = false := by
  cases h with
  | discarded | command => rfl
  | _ => exact hs

theorem stepOf_keeps_idle {s t : Block.State fw} (h : stepOf n s = .next t) (hs : s.busy = false) :
    t.busy = false := by
  rcases stepOf_cases h with rfl | ⟨rest, h⟩
  · exact hs
  · exact h.idle hs

theorem stepOf_keeps_tidy {s t : Block.State fw} (h : stepOf n s = .next t) (hs : s.Tidy) : t.Tidy := by
  rcases stepOf_cases h with rfl | ⟨rest, h⟩
  · exact hs
  · have hrest : Block.State.Tidy { s with script := rest } := { hs with }
    exact hrest.transacted h

end Sys2Proof.Machine

open Sys2Proof Sys2Proof.Machine

/-- Settles O47: no case of a step in a block with any `NUM` writes `cfg`. -/
theorem cfgNeverChanges : Obligations.CfgNeverChanges := by
  intro s t h
  rw [← stepOf_b64] at h
  exact stepOf_keeps_cfg h

/-- Settles O49: `CFG` stays, `BUSY` is 0 again, and every case of a step keeps `Block.State.Tidy`. -/
theorem stepKeepsShape : Obligations.StepKeepsShape := by
  intro s t hs h
  obtain ⟨hcfg, htidy, hidle⟩ := shaped_iff.1 hs
  rw [← stepOf_b64] at h
  refine shaped_iff.2 ⟨?_, stepOf_keeps_tidy h htidy, stepOf_keeps_idle h hidle⟩
  rw [stepOf_keeps_cfg h]
  exact hcfg

end

section
/-! SUPPORT. What the float stages write in a block with any `NUM` (40_numerics.md R100, 42_demosaic.md R141,
43_correct.md R160, 44_tonemap.md R170). -/

namespace Sys2Proof.Machine

variable {fw : Nat} {n : Num (BitVec fw)} {s : Block.State fw}

/-- A whole image written over a canonical memory reads as that image, pixel by pixel (R51). -/
theorem pixelAt_writeAll_imageOf {g : Geometry} {m : Memory fw} (hm : Memory.wf m) (f : Nat → Nat → Rgb (BitVec fw))
    {r c : Nat} (hr : r < g.h - 1) (hc : c < g.w - 1) :
    pixelAt g (Memory.writeAll m (imageOf g f)) r c = f r c := by
  have hread {k : Nat} (hk : k < 3) :
      Memory.read (Memory.writeAll m (imageOf g f)) (g.imageIndex r c k) = (f r c).chan k := by
    rw [Memory.read_writeAll hm, length_imageOf, if_pos (imageIndex_lt hr hc hk), getD_imageOf g f 0 hr hc hk]
  simp only [pixelAt, hread (by decide : 0 < 3), hread (by decide : 1 < 3), hread (by decide : 2 < 3)]
  rfl

/-- A whole-buffer write leaves what stands behind the values written. -/
theorem Memory.read_writeAll_beyond {w : Nat} {m : Memory w} (hm : Memory.wf m) {vs : List (BitVec w)} {e : Nat}
    (he : vs.length ≤ e) : Memory.read (Memory.writeAll m vs) e = Memory.read m e := by
  rw [Memory.read_writeAll hm, if_neg (by omega)]

/-- A whole-buffer write reads as the values written. -/
theorem Memory.read_writeAll_within {w : Nat} {m : Memory w} (hm : Memory.wf m) {vs : List (BitVec w)} {e : Nat}
    (he : e < vs.length) : Memory.read (Memory.writeAll m vs) e = vs.getD e 0 := by
  rw [Memory.read_writeAll hm, if_pos he]

theorem execOf_demosaic_ok (ha : s.accepts) (hv : s.valid.mosaic = true) :
    execOf n .demosaic s = .next { s with
      f0 := Memory.writeAll s.f0 (imageOf s.cfg.geom (demosaicPixel n s.cfg.consts (mosaicAt s.cfg.geom s.mosaic)))
      valid := { s.valid with f0 := true, f1 := false, f2 := false }, response := .done } := by
  rw [execOf, doDemosaic, command_accepted ha, demosaicBody_ok n (s := startCommand s) hv, ha.1]
  rfl

theorem execOf_correct_ok (ha : s.accepts) (hv : s.valid.f0 = true) :
    execOf n .correct s = .next { s with
      f1 := Memory.writeAll s.f1
        (imageOf s.cfg.geom fun r c => correctPixel n s.cfg.consts.ccm (pixelAt s.cfg.geom s.f0 r c))
      valid := { s.valid with f1 := true, f2 := false }, response := .done } := by
  rw [execOf, doCorrect, command_accepted ha, correctBody_ok n (s := startCommand s) hv, ha.1]
  rfl

theorem execOf_tonemap_ok {t : Toned (BitVec fw)} (ha : s.accepts) (hv : s.valid.f1 = true)
    (ht : tonemapImage n s.cfg.consts.logOffset (imageElems s.cfg.geom s.f1) = .ok t) :
    execOf n .tonemap s = .next { s with
      f2 := Memory.writeAll s.f2 t.out, minReg := t.mn, maxReg := t.mx
      valid := { s.valid with f2 := true }, response := .done } := by
  rw [execOf, doTonemap, command_accepted ha, tonemapBody_ok n (s := startCommand s) hv ht, ha.1]
  rfl

theorem execOf_tonemap_error {k : Cause} (ha : s.accepts) (hv : s.valid.f1 = true)
    (ht : tonemapImage n s.cfg.consts.logOffset (imageElems s.cfg.geom s.f1) = .error k) :
    execOf n .tonemap s = .next { s with
      valid := { s.valid with f2 := false }, err := causeCode k, response := .done } := by
  rw [execOf, doTonemap, command_accepted ha, tonemapBody_error n (s := startCommand s) hv ht, ha.1]
  rfl

end Sys2Proof.Machine

open Sys2Proof Sys2Proof.Machine

/-- Settles O60: each stage's next state, and what its whole-image write reads as. After a fault of TONEMAP the model
keeps `F2`, `MIN` and `MAX` (log entry 7). -/
theorem anyNumStagesWriteResults : Obligations.AnyNumStagesWriteResults := by
  intro fw n s ha
  refine ⟨fun hv hm => ⟨_, execOf_demosaic_ok ha hv, fun r c => pixelAt_writeAll_imageOf hm _,
      fun e he => Memory.read_writeAll_beyond hm ((length_imageOf _ _).trans_le he)⟩,
    fun hv hm => ⟨_, execOf_correct_ok ha hv, fun r c => pixelAt_writeAll_imageOf hm _,
      fun e he => Memory.read_writeAll_beyond hm ((length_imageOf _ _).trans_le he)⟩,
    fun hv hm => ⟨fun t ht => ?_, fun k ht => ⟨_, _, _, execOf_tonemap_error ha hv ht⟩⟩⟩
  have hlen := length_out_of_tonemapImage ht
  exact ⟨_, execOf_tonemap_ok ha hv ht, fun e he => Memory.read_writeAll_within hm (he.trans_eq hlen.symm),
    fun e he => Memory.read_writeAll_beyond hm (hlen.trans_le he)⟩

end

section
/-! SUPPORT. What each stage leaves alone, and facts that hold of a buffer while its flag is 1 (10_state.md R23, R24, R27):
which transactions keep such a fact. -/

namespace Sys2Proof.Machine

variable {fw : Nat} {n : Num (BitVec fw)}

/-! The frame of a stage: its output buffer, the flags from there on, `ERR` and `BUSY` are all it writes (R27, R210). -/

theorem unpackBody_frame (s : Block.State fw) : ∃ m v e b, unpackBody s = { s with
    mosaic := m, valid := { s.valid with mosaic := v, f0 := false, f1 := false, f2 := false }, err := e, busy := b } := by
  rcases unpackBody_cases s with ⟨c, h⟩ | ⟨-, -, -, h⟩ <;> exact ⟨_, _, _, _, h⟩

theorem demosaicBody_frame (n : Num (BitVec fw)) (s : Block.State fw) : ∃ m v e b, demosaicBody n s = { s with
    f0 := m, valid := { s.valid with f0 := v, f1 := false, f2 := false }, err := e, busy := b } := by
  rcases demosaicBody_cases n s with ⟨c, h⟩ | ⟨-, h⟩ <;> exact ⟨_, _, _, _, h⟩

theorem correctBody_frame (n : Num (BitVec fw)) (s : Block.State fw) : ∃ m v e b, correctBody n s = { s with
    f1 := m, valid := { s.valid with f1 := v, f2 := false }, err := e, busy := b } := by
  rcases correctBody_cases n s with ⟨c, h⟩ | ⟨-, h⟩ <;> exact ⟨_, _, _, _, h⟩

theorem tonemapBody_frame (n : Num (BitVec fw)) (s : Block.State fw) : ∃ m lo hi v e b, tonemapBody n s = { s with
    f2 := m, minReg := lo, maxReg := hi, valid := { s.valid with f2 := v }, err := e, busy := b } := by
  rcases tonemapBody_cases n s with ⟨c, h⟩ | ⟨t, -, -, h⟩ <;> exact ⟨_, _, _, _, _, _, h⟩

/-- A command keeps what the four stages and the fault of a reserved word keep. -/
theorem CommandBody.keeps {P : Block.State fw → Prop} (hu : ∀ s, P s → P (unpackBody s))
    (hd : ∀ s, P s → P (demosaicBody n s)) (hc : ∀ s, P s → P (correctBody n s)) (ht : ∀ s, P s → P (tonemapBody n s))
    (hf : ∀ s, P s → P (faultEntry .illegalCommand s)) {body : Block.State fw → Block.State fw}
    (hbody : CommandBody n body) (s : Block.State fw) (hs : P s) : P (body s) := by
  cases hbody with
  | unpack => exact hu s hs
  | demosaic => exact hd s hs
  | correct => exact hc s hs
  | tonemap => exact ht s hs
  | run => exact runBody_keeps hu hd hc ht s hs
  | reserved => exact hf s hs

/-- The inversion of a step of the machine. -/
theorem step_cases {s t : State} (h : step s = .next t) :
    t = s ∨ ∃ rest, Transacted b64 { s with script := rest } t := by
  rw [← stepOf_b64] at h
  exact stepOf_cases h

/-! Elements of a buffer while its flag is 1. -/

/-- Where `flag` is 1, each of the first `count` elements of a memory satisfies `p`. -/
def Memory.AllWhen {w : Nat} (flag : Bool) (m : Memory w) (count : Nat) (p : BitVec w → Prop) : Prop :=
  flag = true → ∀ e, e < count → p (Memory.read m e)

theorem samplesTenBit_iff {s : Block.State fw} : s.samplesTenBit ↔
    Memory.AllWhen s.valid.mosaic s.mosaic s.cfg.geom.mosaicCount fun x => x.toNat ≤ 1023 := Iff.rfl

theorem rawFinite_iff {s : State} : s.rawFinite ↔
    Memory.AllWhen s.valid.f0 s.f0 s.cfg.geom.imageCount fun x => B64.isFinite x = true := Iff.rfl

theorem normalised_iff {s : State} : s.normalised ↔
    Memory.AllWhen s.valid.f2 s.f2 s.cfg.geom.imageCount (inUnitInterval b64) := Iff.rfl

theorem Memory.AllWhen.off {w count : Nat} {m : Memory w} {p : BitVec w → Prop} : Memory.AllWhen false m count p :=
  fun h => nomatch h

/-- A whole buffer of values that satisfy `p`, written over a canonical memory. -/
theorem Memory.AllWhen.writeAll {w count : Nat} {m : Memory w} {p : BitVec w → Prop} {vs : List (BitVec w)} {flag : Bool}
    (hm : Memory.wf m) (hlen : vs.length = count) (hvs : ∀ v ∈ vs, p v) :
    Memory.AllWhen flag (Memory.writeAll m vs) count p := by
  intro _ e he
  have he' : e < vs.length := he.trans_eq hlen.symm
  rw [Memory.read_writeAll_within hm he', List.getD_eq_getElem _ _ he']
  exact hvs _ (List.getElem_mem he')

theorem forall_mem_mosaicOf {α : Type} {g : Geometry} {f : Nat → Nat → α} {p : α → Prop} (h : ∀ r c, p (f r c)) :
    ∀ x ∈ mosaicOf g f, p x := by
  intro x hx
  obtain ⟨e, -, rfl⟩ := List.mem_map.1 hx
  exact h _ _

/-! A VALID `MOSAIC` holds 10-bit samples (R23, R127). -/

/-- Both parts of a sample are below 2^10, so it is (R127). -/
theorem unpackSample_le (b b4 : Byte) (p : Nat) : (unpackSample b b4 p).toNat ≤ 1023 := by
  have hshift : (widenShift b).toNat < 2 ^ 10 := by
    rw [widenShift, BitVec.toNat_shiftLeft, BitVec.toNat_setWidth, Nat.shiftLeft_eq]
    omega
  have hlow : (lowField (widenShift b4) p).toNat < 2 ^ 10 := by
    rw [lowField, BitVec.toNat_and]
    exact Nat.and_le_right.trans_lt (by decide)
  rw [unpackSample, BitVec.toNat_or]
  exact Nat.le_of_lt_succ (Nat.or_lt_two_pow hshift hlow)

/-- Accepted data of `LOAD MOSAIC` are 10-bit samples (R63). -/
theorem le_of_mosaicDataOk {g : Geometry} {values : List Nat} (h : mosaicDataOk g values = true) :
    ∀ x ∈ values.map (BitVec.ofNat 16), x.toNat ≤ 1023 := by
  obtain ⟨-, hall⟩ := Bool.and_eq_true_iff.1 h
  intro x hx
  obtain ⟨v, hv, rfl⟩ := List.mem_map.1 hx
  rw [BitVec.toNat_ofNat]
  exact (Nat.mod_le _ _).trans (of_decide_eq_true (List.all_eq_true.1 hall v hv))

namespace Block.State.samplesTenBit

variable {s : Block.State fw}

theorem unpackBody (hs : s.Tidy) : (Machine.unpackBody s).samplesTenBit := by
  rw [samplesTenBit_iff]
  rcases unpackBody_cases s with ⟨c, h⟩ | ⟨-, -, -, h⟩ <;> rw [h]
  · exact .off
  · exact .writeAll hs.mosaic.wf (length_mosaicOf _ _) (forall_mem_mosaicOf fun _ _ => unpackSample_le _ _ _)

theorem demosaicBody (h : s.samplesTenBit) : (Machine.demosaicBody n s).samplesTenBit := by
  obtain ⟨m, v, e, b, hb⟩ := demosaicBody_frame n s
  rw [hb]
  exact h

theorem correctBody (h : s.samplesTenBit) : (Machine.correctBody n s).samplesTenBit := by
  obtain ⟨m, v, e, b, hb⟩ := correctBody_frame n s
  rw [hb]
  exact h

theorem tonemapBody (h : s.samplesTenBit) : (Machine.tonemapBody n s).samplesTenBit := by
  obtain ⟨m, lo, hi, v, e, b, hb⟩ := tonemapBody_frame n s
  rw [hb]
  exact h

theorem commandBody {body : Block.State fw → Block.State fw} (hbody : CommandBody n body) (hs : s.Tidy)
    (h : s.samplesTenBit) : (body s).samplesTenBit :=
  have keeps := hbody.keeps (P := fun u => u.Tidy ∧ u.samplesTenBit)
    (fun _ hu => ⟨hu.1.unpackBody, unpackBody hu.1⟩) (fun _ hu => ⟨hu.1.demosaicBody, hu.2.demosaicBody⟩)
    (fun _ hu => ⟨hu.1.correctBody, hu.2.correctBody⟩) (fun _ hu => ⟨hu.1.tonemapBody, hu.2.tonemapBody⟩)
    (fun _ hu => ⟨hu.1.faultEntry _, hu.2⟩)
  (keeps s ⟨hs, h⟩).2

theorem transacted {t : Block.State fw} (hs : s.Tidy) (h : s.samplesTenBit) (ht : Transacted n s t) :
    t.samplesTenBit := by
  cases ht with
  | unchanged | loadF0 | loadF1 => exact h
  | discarded | loadIbuf => exact samplesTenBit_iff.2 .off
  | command hbody => exact commandBody (s := startCommand s) hbody { hs with } h
  | loadMosaic values _ hok =>
    exact samplesTenBit_iff.2 (.writeAll hs.mosaic.wf ((List.length_map _).trans (length_of_mosaicDataOk hok))
      (le_of_mosaicDataOk hok))

end Block.State.samplesTenBit

end Sys2Proof.Machine

open Sys2Proof Sys2Proof.Machine

/-- Settles O51: `MOSAIC` is written by UNPACK, whose samples have ten bits, by `LOAD MOSAIC`, which refuses other values,
and by nothing else. -/
theorem stepKeepsTenBitSamples : Obligations.StepKeepsTenBitSamples := by
  intro s t hs h hstep
  obtain ⟨-, htidy, -⟩ := shaped_iff.1 hs
  rcases step_cases hstep with rfl | ⟨rest, ht⟩
  · exact h
  · exact Block.State.samplesTenBit.transacted (s := { s with script := rest }) { htidy with } h ht

end

section
/-! SUPPORT. The rounding of `B64` (40_numerics.md R104): magnitude bits and units are ordered alike, rounding is monotone, and
which results are finite. -/

namespace Sys2Proof.Machine.B64

theorem lt_two_pow_of_le {a i j : Nat} (h : a < 2 ^ i) (hij : i ≤ j) : a < 2 ^ j :=
  h.trans_le (Nat.pow_le_pow_right (by decide) hij)

theorem div_two_pow_lt {a i j k : Nat} (h : a < 2 ^ i) (hi : i ≤ j + k) : a / 2 ^ j < 2 ^ k := by
  refine Nat.div_lt_of_lt_mul ?_
  rw [← pow_add]
  exact lt_two_pow_of_le h hi

theorem mul_two_pow_div_lt {a d i j : Nat} (hd : 0 < d) (h : a < 2 ^ i * d) : a * 2 ^ j / d < 2 ^ (i + j) := by
  rw [Nat.div_lt_iff_lt_mul hd, pow_add, Nat.mul_right_comm]
  exact Nat.mul_lt_mul_of_pos_right h (by positivity)

/-! Magnitude bits and units. -/

/-- The units that magnitude bits stand for. -/
def unitsOf (mag : Nat) : Nat :=
  if mag / 2 ^ 52 = 0 then mag % 2 ^ 52 else (2 ^ 52 + mag % 2 ^ 52) * 2 ^ (mag / 2 ^ 52 - 1)

theorem units_eq (x : F64) : units x = unitsOf (magBits x) := rfl

theorem unitsOf_lt (mag : Nat) : unitsOf mag < 2 ^ (52 + mag / 2 ^ 52) := by
  have hfrac : mag % 2 ^ 52 < 2 ^ 52 := Nat.mod_lt _ (by decide)
  unfold unitsOf
  split
  · exact hfrac.trans_le (Nat.pow_le_pow_right (by decide) (Nat.le_add_right _ _))
  · next he =>
    calc (2 ^ 52 + mag % 2 ^ 52) * 2 ^ (mag / 2 ^ 52 - 1)
        < 2 ^ 53 * 2 ^ (mag / 2 ^ 52 - 1) := Nat.mul_lt_mul_of_pos_right (by omega) (by positivity)
      _ = 2 ^ (52 + mag / 2 ^ 52) := by rw [← pow_add]; congr 1; omega

theorem le_unitsOf {mag : Nat} (h : mag / 2 ^ 52 ≠ 0) : 2 ^ (51 + mag / 2 ^ 52) ≤ unitsOf mag := by
  rw [unitsOf, if_neg h, show 51 + mag / 2 ^ 52 = 52 + (mag / 2 ^ 52 - 1) by omega, pow_add]
  exact Nat.mul_le_mul_right _ (Nat.le_add_right _ _)

/-- Greater magnitude bits stand for more units. -/
theorem unitsOf_strictMono : StrictMono unitsOf := by
  intro a b hab
  rcases (Nat.div_le_div_right hab.le : a / 2 ^ 52 ≤ b / 2 ^ 52).eq_or_lt with he | he
  · have hfrac : a % 2 ^ 52 < b % 2 ^ 52 := by omega
    unfold unitsOf
    rw [← he]
    split
    · exact hfrac
    · exact Nat.mul_lt_mul_of_pos_right (Nat.add_lt_add_left hfrac _) (by positivity)
  · calc unitsOf a < 2 ^ (52 + a / 2 ^ 52) := unitsOf_lt a
      _ ≤ 2 ^ (51 + b / 2 ^ 52) := Nat.pow_le_pow_right (by decide) (by omega)
      _ ≤ unitsOf b := le_unitsOf (by omega)

theorem unitsOf_zero : unitsOf 0 = 0 := rfl

theorem units_le_units_iff {x y : F64} : units x ≤ units y ↔ magBits x ≤ magBits y := unitsOf_strictMono.le_iff_le

theorem units_pos_iff {x : F64} : 0 < units x ↔ 0 < magBits x :=
  unitsOf_strictMono.lt_iff_lt (a := 0)

/-- A finite value is below 2^1024. -/
theorem units_lt_of_isFinite {x : F64} (h : isFinite x = true) : units x < 2 ^ 2098 := by
  have hmag : magBits x < 0x7FF * 2 ^ 52 := of_decide_eq_true h
  exact lt_two_pow_of_le (unitsOf_lt _) (by omega)

/-- `key` orders the values. -/
theorem value_le_value_iff {x y : F64} : value x ≤ value y ↔ key x ≤ key y := by
  have hxy : units x ≤ units y ↔ magBits x ≤ magBits y := units_le_units_iff
  have hyx : units y ≤ units x ↔ magBits y ≤ magBits x := units_le_units_iff
  have hx : 0 < units x ↔ 0 < magBits x := units_pos_iff
  have hy : 0 < units y ↔ 0 < magBits y := units_pos_iff
  unfold value key
  cases sign x <;> cases sign y <;> simp only [Bool.false_eq_true, if_true, if_false] <;> omega

theorem value_lt_value_iff {x y : F64} : value x < value y ↔ key x < key y := by
  rw [← not_le, value_le_value_iff, not_le]

theorem sign_mk {s : Bool} {k : Nat} (h : k < 2 ^ 63) : sign (mk s k) = s := by
  cases s <;> simp [sign, mk, BitVec.msb_eq_decide] <;> omega

theorem value_neg (x : F64) : value (neg x) = -value x := by
  have hsign : sign (neg x) = !sign x := by
    rw [sign, neg, BitVec.msb_xor, show (BitVec.ofNat 64 (2 ^ 63)).msb = true by decide, Bool.xor_true]
    rfl
  rw [value, value, units_neg, hsign]
  cases sign x <;> simp

/-! Rounding. -/

/-- A quotient of naturals, rounded to a natural. -/
def roundQuot (m : Rounding) (num den : Nat) : Nat :=
  if roundsUp m (num / den) (num % den) den then num / den + 1 else num / den

theorem roundMag_eq (m : Rounding) (num den : Nat) : roundMag m num den =
    min (spareBits (num / den) * 2 ^ 52 + roundQuot m num (den * 2 ^ spareBits (num / den))) infBits := rfl

theorem le_roundQuot (m : Rounding) (num den : Nat) : num / den ≤ roundQuot m num den := by
  unfold roundQuot
  split <;> omega

theorem roundQuot_le (m : Rounding) (num den : Nat) : roundQuot m num den ≤ num / den + 1 := by
  unfold roundQuot
  split <;> omega

/-- Of two quotients with the same floor, the greater one is rounded up if the other is. -/
theorem roundsUp_mono {m : Rounding} {q r₁ d₁ r₂ d₂ : Nat} (hd₁ : 0 < d₁) (hd₂ : 0 < d₂) (h : r₁ * d₂ ≤ r₂ * d₁)
    (hup : roundsUp m q r₁ d₁ = true) : roundsUp m q r₂ d₂ = true := by
  cases m with
  | down => exact hup
  | up =>
    have hr : 0 < r₁ := of_decide_eq_true hup
    exact decide_eq_true (Nat.pos_of_mul_pos_right ((Nat.mul_pos hr hd₂).trans_le h))
  | nearest =>
    simp only [roundsUp, Bool.or_eq_true, Bool.and_eq_true, decide_eq_true_eq, beq_iff_eq] at hup ⊢
    rcases hup with hlt | ⟨htie, hodd⟩
    · left
      refine Nat.lt_of_mul_lt_mul_right (a := d₁) ?_
      nlinarith
    · have hle : d₂ ≤ 2 * r₂ := by
        refine Nat.le_of_mul_le_mul_right (c := d₁) ?_ hd₁
        nlinarith
      rcases hle.lt_or_eq with hlt | heq
      · exact .inl hlt
      · exact .inr ⟨heq.symm, hodd⟩

theorem div_le_div_of_cross {n₁ d₁ n₂ d₂ : Nat} (hd₁ : 0 < d₁) (hd₂ : 0 < d₂) (h : n₁ * d₂ ≤ n₂ * d₁) :
    n₁ / d₁ ≤ n₂ / d₂ := by
  rw [Nat.le_div_iff_mul_le hd₂]
  refine Nat.le_of_mul_le_mul_right (c := d₁) ?_ hd₁
  nlinarith [Nat.div_mul_le_self n₁ d₁]

theorem roundQuot_mono {m : Rounding} {n₁ d₁ n₂ d₂ : Nat} (hd₁ : 0 < d₁) (hd₂ : 0 < d₂) (h : n₁ * d₂ ≤ n₂ * d₁) :
    roundQuot m n₁ d₁ ≤ roundQuot m n₂ d₂ := by
  have hq := div_le_div_of_cross hd₁ hd₂ h
  rcases hq.lt_or_eq with hq | hq
  · exact (roundQuot_le m n₁ d₁).trans (hq.trans_le (le_roundQuot m n₂ d₂))
  · have hr : (n₁ % d₁) * d₂ ≤ (n₂ % d₂) * d₁ := by
      have h₁ := Nat.div_add_mod n₁ d₁
      have h₂ := Nat.div_add_mod n₂ d₂
      rw [hq] at h₁
      nlinarith
    unfold roundQuot
    rw [hq]
    split
    · next hup => rw [if_pos (roundsUp_mono hd₁ hd₂ hr hup)]
    · split <;> omega

theorem lt_two_pow_spareBits (k : Nat) : k < 2 ^ (53 + spareBits k) :=
  Nat.lt_log2_self.trans_le (Nat.pow_le_pow_right (by decide) (by unfold spareBits; omega))

/-- Spare bits are counted only below a significand with its leading bit. -/
theorem two_pow_le_of_spareBits {k : Nat} (h : spareBits k ≠ 0) : 2 ^ (52 + spareBits k) ≤ k := by
  have hk : k ≠ 0 := by rintro rfl; exact h (by decide)
  have hlog : 52 + spareBits k = Nat.log2 k := by unfold spareBits at h ⊢; omega
  rw [hlog]
  exact Nat.log2_self_le hk

theorem spareBits_mono : Monotone spareBits := by
  intro a b hab
  by_contra hlt
  have hlt : spareBits b + 1 ≤ spareBits a := by omega
  have h₁ := two_pow_le_of_spareBits (k := a) (by omega)
  have h₂ := (lt_two_pow_spareBits b).trans_le (Nat.pow_le_pow_right (by decide) (show _ ≤ 52 + spareBits a by omega))
  omega

/-- The significand, before rounding, has 53 bits at most. -/
theorem significand_lt (num den : Nat) : num / (den * 2 ^ spareBits (num / den)) < 2 ^ 53 := by
  rw [← Nat.div_div_eq_div_mul]
  refine Nat.div_lt_of_lt_mul ?_
  rw [← pow_add, Nat.add_comm]
  exact lt_two_pow_spareBits _

theorem le_significand {num den : Nat} (h : spareBits (num / den) ≠ 0) :
    2 ^ 52 ≤ num / (den * 2 ^ spareBits (num / den)) := by
  rw [← Nat.div_div_eq_div_mul, Nat.le_div_iff_mul_le (by positivity), ← pow_add]
  exact two_pow_le_of_spareBits h

/-- Rounding is monotone, in each direction of rounding (R104). -/
theorem roundMag_mono {m : Rounding} {n₁ d₁ n₂ d₂ : Nat} (hd₁ : 0 < d₁) (hd₂ : 0 < d₂) (h : n₁ * d₂ ≤ n₂ * d₁) :
    roundMag m n₁ d₁ ≤ roundMag m n₂ d₂ := by
  have hq := div_le_div_of_cross hd₁ hd₂ h
  rw [roundMag_eq, roundMag_eq]
  refine min_le_min_right _ ?_
  rcases (spareBits_mono hq).eq_or_lt with hs | hs
  · rw [hs]
    refine Nat.add_le_add_left (roundQuot_mono (by positivity) (by positivity) ?_) _
    calc n₁ * (d₂ * 2 ^ spareBits (n₂ / d₂)) = n₁ * d₂ * 2 ^ spareBits (n₂ / d₂) := by ring
      _ ≤ n₂ * d₁ * 2 ^ spareBits (n₂ / d₂) := Nat.mul_le_mul_right _ h
      _ = n₂ * (d₁ * 2 ^ spareBits (n₂ / d₂)) := by ring
  · have hlow := (roundQuot_le m n₁ (d₁ * 2 ^ spareBits (n₁ / d₁))).trans (significand_lt n₁ d₁)
    have hhigh := (le_significand (num := n₂) (den := d₂) (by omega)).trans (le_roundQuot m _ _)
    omega

theorem roundMag_zero (m : Rounding) (den : Nat) : roundMag m 0 den = 0 := by
  cases m <;> simp [roundMag, spareBits, roundsUp]

theorem roundMag_le_infBits (m : Rounding) (num den : Nat) : roundMag m num den ≤ infBits := min_le_right _ _

/-! Finite results. -/

theorem isFinite_mk_roundMag {s : Bool} {m : Rounding} {num den : Nat} (h : num / den < 2 ^ 2097) :
    isFinite (mk s (roundMag m num den)) = true := isFinite_mk (roundMag_lt h)

theorem magBits_mk_roundMag (s : Bool) (m : Rounding) (num den : Nat) :
    magBits (mk s (roundMag m num den)) = roundMag m num den :=
  magBits_mk ((roundMag_le_infBits m num den).trans_lt (by decide))

theorem sign_mk_roundMag (s : Bool) (m : Rounding) (num den : Nat) : sign (mk s (roundMag m num den)) = s :=
  sign_mk ((roundMag_le_infBits m num den).trans_lt (by decide))

/-- A rounded quotient is within a factor of two of a power of two that bounds it. -/
theorem units_mk_roundMag_lt {s : Bool} {m : Rounding} {num den k : Nat} (hk : num / den < 2 ^ (53 + k)) :
    units (mk s (roundMag m num den)) < 2 ^ (54 + k) := by
  have hs : spareBits (num / den) ≤ k := by
    by_contra hlt
    have h₁ := two_pow_le_of_spareBits (k := num / den) (by omega)
    have h₂ := hk.trans_le (Nat.pow_le_pow_right (by decide) (show _ ≤ 52 + spareBits (num / den) by omega))
    omega
  have hq := (roundQuot_le m num (den * 2 ^ spareBits (num / den))).trans (significand_lt num den)
  have hmag : roundMag m num den ≤ (k + 2) * 2 ^ 52 := by
    rw [roundMag_eq]
    refine (min_le_left _ _).trans ?_
    calc spareBits (num / den) * 2 ^ 52 + roundQuot m num (den * 2 ^ spareBits (num / den))
        ≤ k * 2 ^ 52 + 2 ^ 53 := Nat.add_le_add (Nat.mul_le_mul_right _ hs) hq
      _ = (k + 2) * 2 ^ 52 := by ring
  rw [units_eq, magBits_mk_roundMag]
  exact (unitsOf_lt _).trans_le (Nat.pow_le_pow_right (by decide) (by omega))

theorem fmul_of_isFinite {a b : F64} (ha : isFinite a = true) (hb : isFinite b = true) :
    fmul a b = mk (sign a != sign b) (roundMag .nearest (units a * units b) (2 ^ 1074)) := by
  simp only [fmul, not_isNaN_of_finite ha, not_isNaN_of_finite hb, not_isInf_of_finite ha, not_isInf_of_finite hb,
    Bool.or_false, Bool.false_eq_true, if_false]

/-- A finite value of less than `2^k` units. -/
def Below (x : F64) (k : Nat) : Prop := isFinite x = true ∧ units x < 2 ^ k

/-- A rounded quotient is below twice a power of two that bounds the exact one. -/
theorem below_mk_roundMag {s : Bool} {m : Rounding} {num den k : Nat} (h : num / den < 2 ^ (53 + k)) (hk : k ≤ 2044) :
    Below (mk s (roundMag m num den)) (54 + k) :=
  ⟨isFinite_mk_roundMag (lt_two_pow_of_le h (by omega)), units_mk_roundMag_lt h⟩

theorem isFinite_fmul {a b : F64} {i j : Nat} (ha : Below a i) (hb : Below b j) (hij : i + j ≤ 1074 + 2097) :
    isFinite (fmul a b) = true := by
  rw [fmul_of_isFinite ha.1 hb.1]
  have hprod : units a * units b < 2 ^ (i + j) := by
    rw [pow_add]
    exact Nat.mul_lt_mul'' ha.2 hb.2
  exact isFinite_mk_roundMag (div_two_pow_lt hprod hij)

theorem ofInt_below {k : Nat} (h : k ≤ 2046) : Below (ofInt k) 1086 := by
  have hk := mul_two_pow_div_lt (a := k) (d := 1) (i := 11) (j := 1074) (by decide) (by omega)
  exact below_mk_roundMag (k := 1032) (lt_two_pow_of_le hk (by decide)) (by decide)

theorem ofInt_zero : ofInt 0 = mk false 0 := by rw [ofInt, Nat.zero_mul, roundMag_zero]

theorem key_ofInt_zero : key (ofInt 0) = 0 := by rw [ofInt_zero]; decide

theorem key_le_magBits (x : F64) : key x ≤ magBits x := by
  unfold key
  split <;> omega

theorem key_pos_of_nonneg {x : F64} (h0 : 0 ≤ key x) (h1 : 0 < magBits x) : 0 < key x := by
  unfold key at *
  split at h0 <;> simp_all

theorem units_pos_of_key_pos {x : F64} (h : 0 < key x) : 0 < units x := by
  have := key_le_magBits x
  exact units_pos_iff.2 (by omega)

end Sys2Proof.Machine.B64
end

section
/-! SUPPORT. A VALID `F0` holds finite values (10_state.md R24, 42_demosaic.md R146). -/

namespace Sys2Proof.Machine

/-- The four sites of a pixel lie inside its window (R142). -/
theorem sites_in_window (r c : Nat) : ∀ site ∈ [redSite r c, blueSite r c, (greenSites r c).1, (greenSites r c).2],
    site.1 ≤ r + 1 ∧ site.2 ≤ c + 1 := by
  unfold greenSites
  split <;> simp [redSite, blueSite] <;> omega

/-- The three weights of DEMOSAIC are finite and below 2 (R103, R143). -/
theorem demosaicWeights_below {c : Cfg} (h : cfgValid b64 c = true) : B64.Below c.consts.wr 1075 ∧
    B64.Below (B64.fmul c.consts.half c.consts.wg) 1075 ∧ B64.Below c.consts.wb 1075 := by
  obtain ⟨-, hconsts⟩ := Bool.and_eq_true_iff.1 h
  rw [eq_of_beq hconsts]
  change B64.Below (B64.ofRat 1) 1075 ∧ B64.Below (B64.fmul (B64.ofRat (1 / 2)) (B64.ofRat (7 / 10))) 1075 ∧
    B64.Below (B64.ofRat (9 / 10)) 1075
  unfold B64.Below
  decide +kernel

/-- A pixel of a window of 10-bit samples is finite (R146). -/
theorem isFinite_demosaicPixel {g : Cfg} (hcfg : cfgValid b64 g = true) {m : Nat → Nat → Nat} {r c : Nat}
    (hm : ∀ i j, i ≤ r + 1 → j ≤ c + 1 → m i j ≤ 1023) (k : Nat) :
    B64.isFinite ((demosaicPixel b64 g.consts m r c).chan k) = true := by
  obtain ⟨hwr, hwg, hwb⟩ := demosaicWeights_below hcfg
  have hsites := sites_in_window r c
  simp only [List.forall_mem_cons] at hsites
  obtain ⟨⟨r₁, r₂⟩, ⟨b₁, b₂⟩, ⟨g₁, g₂⟩, ⟨g₃, g₄⟩, -⟩ := hsites
  have hprod {w : F64} {v : Nat} (hw : B64.Below w 1075) (hv : v ≤ 2046) :
      B64.isFinite (B64.fmul w (B64.ofInt v)) = true := B64.isFinite_fmul hw (B64.ofInt_below hv) (by decide)
  match k with
  | 0 => exact hprod hwr ((hm _ _ r₁ r₂).trans (by decide))
  | 1 => exact hprod hwg (Nat.add_le_add (hm _ _ g₁ g₂) (hm _ _ g₃ g₄))
  | _ + 2 => exact hprod hwb ((hm _ _ b₁ b₂).trans (by decide))

/-- Accepted data of `LOAD F0` and `LOAD F1` are finite (R64). -/
theorem isFinite_of_imageDataOk {F : Type} {n : Num F} {g : Geometry} {values : List F}
    (h : imageDataOk n g values = true) : ∀ v ∈ values, n.isFinite v = true :=
  List.all_eq_true.1 (Bool.and_eq_true_iff.1 h).2

theorem forall_mem_imageOf {α : Type} {g : Geometry} {f : Nat → Nat → Rgb α} {p : α → Prop}
    (h : ∀ r c k, r < g.h - 1 → c < g.w - 1 → p ((f r c).chan k)) : ∀ x ∈ imageOf g f, p x := by
  intro x hx
  obtain ⟨e, he, rfl⟩ := List.mem_map.1 hx
  have he : e < g.imageCount := List.mem_range.1 he
  have hw : 0 < g.w - 1 := Nat.pos_of_ne_zero fun h0 => by simp [Geometry.imageCount, h0] at he
  refine h _ _ _ ?_ (Nat.mod_lt _ hw)
  rw [Geometry.imageCount] at he
  exact Nat.div_lt_of_lt_mul (by rw [Nat.mul_comm]; omega)

namespace Block.State.rawFinite

variable {s : Machine.State}

theorem unpackBody (s : Machine.State) : (Machine.unpackBody s).rawFinite := by
  obtain ⟨m, v, e, b, hb⟩ := unpackBody_frame s
  rw [hb]
  exact rawFinite_iff.2 .off

theorem demosaicBody (hcfg : cfgValid b64 s.cfg = true) (hs : s.Tidy) (hten : s.samplesTenBit) :
    (Machine.demosaicBody b64 s).rawFinite := by
  rw [rawFinite_iff]
  rcases demosaicBody_cases b64 s with ⟨c, h⟩ | ⟨hv, h⟩ <;> rw [h]
  · exact .off
  · exact .writeAll hs.f0.wf (length_imageOf _ _) (forall_mem_imageOf fun r c k hr hc =>
      isFinite_demosaicPixel hcfg (fun i j hi hj => hten hv _ (mosaicIndex_lt (by omega) (by omega))) k)

theorem correctBody (h : s.rawFinite) : (Machine.correctBody b64 s).rawFinite := by
  obtain ⟨m, v, e, b, hb⟩ := correctBody_frame b64 s
  rw [hb]
  exact h

theorem tonemapBody (h : s.rawFinite) : (Machine.tonemapBody b64 s).rawFinite := by
  obtain ⟨m, lo, hi, v, e, b, hb⟩ := tonemapBody_frame b64 s
  rw [hb]
  exact h

theorem commandBody {body : Machine.State → Machine.State} (hbody : CommandBody b64 body)
    (hcfg : cfgValid b64 s.cfg = true) (hs : s.Tidy) (hten : s.samplesTenBit) (h : s.rawFinite) : (body s).rawFinite :=
  have keeps := hbody.keeps
    (P := fun u => cfgValid b64 u.cfg = true ∧ (u.Tidy ∧ u.samplesTenBit) ∧ u.rawFinite)
    (fun u ⟨hc, ⟨ht, _⟩, _⟩ => ⟨(unpackBody_cfg u).symm ▸ hc, ⟨ht.unpackBody, .unpackBody ht⟩, unpackBody u⟩)
    (fun u ⟨hc, ⟨ht, hm⟩, _⟩ =>
      ⟨(demosaicBody_cfg u).symm ▸ hc, ⟨ht.demosaicBody, hm.demosaicBody⟩, demosaicBody hc ht hm⟩)
    (fun u ⟨hc, ⟨ht, hm⟩, hf⟩ => ⟨(correctBody_cfg u).symm ▸ hc, ⟨ht.correctBody, hm.correctBody⟩, hf.correctBody⟩)
    (fun u ⟨hc, ⟨ht, hm⟩, hf⟩ => ⟨(tonemapBody_cfg u).symm ▸ hc, ⟨ht.tonemapBody, hm.tonemapBody⟩, hf.tonemapBody⟩)
    (fun _ ⟨hc, ⟨ht, hm⟩, hf⟩ => ⟨hc, ⟨ht.faultEntry _, hm⟩, hf⟩)
  (keeps s ⟨hcfg, ⟨hs, hten⟩, h⟩).2.2

theorem transacted {t : Machine.State} (hcfg : cfgValid b64 s.cfg = true) (hs : s.Tidy) (hten : s.samplesTenBit)
    (h : s.rawFinite) (ht : Transacted b64 s t) : t.rawFinite := by
  cases ht with
  | unchanged | loadF1 => exact h
  | discarded | loadIbuf | loadMosaic => exact rawFinite_iff.2 .off
  | command hbody => exact commandBody (s := startCommand s) hbody hcfg { hs with } hten h
  | loadF0 values _ hok =>
    exact rawFinite_iff.2 (.writeAll hs.f0.wf (length_of_imageDataOk hok) (isFinite_of_imageDataOk hok))

end Block.State.rawFinite

end Sys2Proof.Machine

open Sys2Proof Sys2Proof.Machine

/-- Settles O52: DEMOSAIC multiplies weights below 2 by sums of 10-bit samples, and `LOAD F0` refuses what is not finite. -/
theorem stepKeepsRawImageFinite : Obligations.StepKeepsRawImageFinite := by
  intro s t hs hten h hstep
  obtain ⟨hcfg, htidy, -⟩ := shaped_iff.1 hs
  rcases step_cases hstep with rfl | ⟨rest, ht⟩
  · exact h
  · exact Block.State.rawFinite.transacted (s := { s with script := rest }) hcfg { htidy with } hten h ht

end

section
/-! SUPPORT. The logarithms of `B64` are finite and their differences too (40_numerics.md R106, R107), so what TONEMAP writes
lies in [0, 1] (44_tonemap.md R179), and a VALID `F2` holds nothing else (10_state.md R24). -/

namespace Sys2Proof.Machine

namespace B64

/-! How large a logarithm can be. -/

theorem atanhSum_bounds {z : Rat} (h0 : 0 ≤ z) (h1 : z ≤ 1) (k : Nat) : 0 ≤ atanhSum z k ∧ atanhSum z k ≤ k := by
  induction k with
  | zero => simp [atanhSum]
  | succ k ih =>
    have hpow : 0 ≤ z ^ (2 * k + 1) := pow_nonneg h0 _
    have hterm : z ^ (2 * k + 1) / (2 * k + 1 : Nat) ≤ 1 :=
      div_le_one_of_le₀ ((pow_le_one₀ h0 h1).trans (by exact_mod_cast Nat.le_add_left 1 _)) (by positivity)
    have hterm0 : 0 ≤ z ^ (2 * k + 1) / (2 * k + 1 : Nat) := by positivity
    simp only [atanhSum]
    push_cast at *
    constructor <;> linarith [ih.1, ih.2]

/-- Both bounds of a logarithm of a ratio are at most 132. -/
theorem lnRatio_bounds {z : Rat} (h0 : 0 ≤ z) (h1 : z ≤ 1 / 3) :
    (0 ≤ lnRatioLo z ∧ lnRatioLo z ≤ 132) ∧ 0 ≤ lnRatioHi z ∧ lnRatioHi z ≤ 132 := by
  obtain ⟨hlo, hhi⟩ := atanhSum_bounds h0 (h1.trans (by norm_num)) lnTerms
  have hden : 1 / 2 ≤ 1 - z ^ 2 := by nlinarith
  have htail0 : 0 ≤ z ^ (2 * lnTerms + 1) / (1 - z ^ 2) := div_nonneg (pow_nonneg h0 _) (by linarith)
  have htail : z ^ (2 * lnTerms + 1) / (1 - z ^ 2) ≤ 2 := by
    rw [div_le_iff₀ (by linarith)]
    linarith [pow_le_one₀ (n := 2 * lnTerms + 1) h0 (h1.trans (by norm_num))]
  have hterms : ((lnTerms : Nat) : Rat) = 64 := rfl
  rw [hterms] at hhi
  unfold lnRatioLo lnRatioHi
  refine ⟨⟨?_, ?_⟩, ?_, ?_⟩ <;> linarith

theorem lnArg_bounds {s : F64} (h : 0 < units s) : 0 ≤ lnArg s ∧ lnArg s ≤ 1 / 3 := by
  have hlo : ((2 ^ Nat.log2 (units s) : Nat) : Rat) ≤ units s := by exact_mod_cast Nat.log2_self_le h.ne'
  have hhi : (units s : Rat) ≤ 2 * (2 ^ Nat.log2 (units s) : Nat) := by
    have := (Nat.lt_log2_self (n := units s)).le
    rw [pow_succ, Nat.mul_comm] at this
    exact_mod_cast this
  have hpos : (0 : Rat) < units s := by exact_mod_cast h
  unfold lnArg
  push_cast at *
  constructor
  · exact div_nonneg (by linarith) (by linarith)
  · rw [div_le_iff₀ (by linarith)]
    linarith

theorem lnExponent_bounds {s : F64} (h : 0 < units s) (hf : isFinite s = true) :
    -1074 ≤ lnExponent s ∧ lnExponent s ≤ 1074 := by
  have hlog : Nat.log2 (units s) < 2098 := 
    (pow_lt_pow_iff_right₀ one_lt_two).1 ((Nat.log2_self_le h.ne').trans_lt (units_lt_of_isFinite hf))
  unfold lnExponent
  omega

/-- Neither bound of a logarithm is greater than 2^18. -/
theorem abs_lnBounds_le {s : F64} (h : 0 < units s) (hf : isFinite s = true) :
    |lnLo s| ≤ 2 ^ 18 ∧ |lnHi s| ≤ 2 ^ 18 := by
  obtain ⟨hz0, hz1⟩ := lnArg_bounds h
  obtain ⟨⟨a0, a1⟩, b0, b1⟩ := lnRatio_bounds hz0 hz1
  obtain ⟨⟨c0, c1⟩, d0, d1⟩ := lnRatio_bounds (z := 1 / 3) (by norm_num) le_rfl
  obtain ⟨e0, e1⟩ := lnExponent_bounds h hf
  have e0 : (-1074 : Rat) ≤ lnExponent s := by exact_mod_cast e0
  have e1 : (lnExponent s : Rat) ≤ 1074 := by exact_mod_cast e1
  have hmul {y : Rat} (y0 : 0 ≤ y) (y1 : y ≤ 132) : |(lnExponent s : Rat) * y| ≤ 1074 * 132 := by
    rw [abs_mul]
    exact mul_le_mul (abs_le.2 ⟨e0, e1⟩) (abs_le.2 ⟨by linarith, y1⟩) (abs_nonneg _) (by norm_num)
  have hc := abs_le.1 (hmul c0 c1)
  have hd := abs_le.1 (hmul d0 d1)
  unfold lnLo lnHi
  constructor <;> dsimp only <;> split <;> exact abs_le.2 ⟨by norm_num at *; linarith, by norm_num at *; linarith⟩

theorem ofRatWith_below {m : Rounding} {q : Rat} (h : |q| ≤ 2 ^ 18) : Below (ofRatWith m q) 1100 := by
  have hq : q.num.natAbs ≤ 2 ^ 18 * q.den := by
    rw [← Rat.num_div_den q, abs_div, Nat.abs_cast, div_le_iff₀ (by exact_mod_cast q.den_pos), ← Int.cast_abs,
      Int.abs_eq_natAbs] at h
    exact_mod_cast h
  have hquot := mul_two_pow_div_lt (j := 1074) q.den_pos
    (hq.trans_lt (Nat.mul_lt_mul_of_pos_right (by decide : 2 ^ 18 < 2 ^ 19) q.den_pos))
  exact below_mk_roundMag (k := 1046) (lt_two_pow_of_le hquot (by decide)) (by decide)

/-- The logarithm of a finite positive value is finite, and its magnitude is bounded (N6). -/
theorem fln_below {s : F64} (h : inLogDomain b64 s = true) : Below (fln s) 1100 := by
  have hdomain := h
  simp only [inLogDomain, b64, Bool.and_eq_true] at hdomain
  obtain ⟨hf, hlt⟩ := hdomain
  have hkey : key (ofInt 0) < key s := (flt_iff (by rw [ofInt_zero]; decide) (not_isNaN_of_finite hf)).1 hlt
  obtain ⟨hlo, hhi⟩ := abs_lnBounds_le (units_pos_of_key_pos (by rwa [key_ofInt_zero] at hkey)) hf
  refine fln_of_both (p := fun x => Below x 1100) h ?_ ?_
  · rw [lnAbove, ceilRat]
    exact ofRatWith_below hlo
  · rw [lnBelow, floorRat]
    exact ofRatWith_below hhi

/-! Differences and quotients of ordered values. -/

theorem fsub_of_isFinite {a b : F64} (ha : isFinite a = true) (hb : isFinite b = true) :
    fsub a b = if value a - value b = 0 then mk (sign a && sign (neg b)) 0
      else mk (decide (value a - value b < 0)) (roundMag .nearest (value a - value b).natAbs 1) := by
  have hb' := isFinite_neg hb
  simp only [fsub, sum, not_isNaN_of_finite ha, not_isNaN_of_finite hb', not_isInf_of_finite ha, not_isInf_of_finite hb',
    Bool.or_false, Bool.false_eq_true, if_false, addFinite, value_neg, ← sub_eq_add_neg]

theorem isFinite_fsub_of_below {a b : F64} {i : Nat} (ha : Below a i) (hb : Below b i) (hi : i + 1 ≤ 2097) :
    isFinite (fsub a b) = true := by
  rw [fsub_of_isFinite ha.1 hb.1]
  split
  · exact isFinite_mk (by decide)
  · refine isFinite_mk_roundMag (lt_two_pow_of_le ?_ hi)
    have hsum := Int.natAbs_sub_le (value a) (value b)
    rw [natAbs_value, natAbs_value] at hsum
    rw [Nat.div_one, pow_succ]
    have ua := ha.2
    have ub := hb.2
    omega

/-- A difference of ordered values is not negative, and it is the rounded exact one. -/
theorem fsub_of_le {a b : F64} (ha : isFinite a = true) (hb : isFinite b = true) (h : key b ≤ key a) :
    magBits (fsub a b) = roundMag .nearest (value a - value b).natAbs 1 ∧ 0 ≤ key (fsub a b) := by
  have hle : value b ≤ value a := value_le_value_iff.2 h
  rw [fsub_of_isFinite ha hb]
  split
  · next hz =>
    rw [hz, Int.natAbs_zero, roundMag_zero]
    have hmag (s : Bool) : magBits (mk s 0) = 0 := magBits_mk (by decide)
    simp [key, hmag]
  · rw [decide_eq_false (by omega)]
    simp [key, magBits_mk_roundMag, sign_mk_roundMag]

/-- A quotient of a value that is not negative by a positive one is not negative, and it is the rounded exact one. -/
theorem fdiv_of_nonneg {a b : F64} (ha : isFinite a = true) (hb : isFinite b = true) (h0 : 0 ≤ key a) (h1 : 0 < key b) :
    magBits (fdiv a b) = roundMag .nearest (units a * 2 ^ 1074) (units b) ∧ 0 ≤ key (fdiv a b) := by
  have hmag : magBits b ≠ 0 := fun h => by simp [key, h] at h1
  have hsb : sign b = false := by
    unfold key at h1
    split at h1
    · omega
    · next hs => exact Bool.eq_false_of_not_eq_true hs
  have heq : fdiv a b = mk (sign a) (roundMag .nearest (units a * 2 ^ 1074) (units b)) := by
    simp only [fdiv, not_isNaN_of_finite ha, not_isNaN_of_finite hb, not_isInf_of_finite ha, not_isInf_of_finite hb,
      Bool.or_false, Bool.false_eq_true, if_false, hmag, hsb, Bool.bne_false]
  refine ⟨by rw [heq, magBits_mk_roundMag], ?_⟩
  unfold key at h0 ⊢
  rw [heq, sign_mk_roundMag, magBits_mk_roundMag]
  split
  · next hs =>
    rw [if_pos hs] at h0
    have hu : units a = 0 := Nat.eq_zero_of_not_pos fun hu => by have := units_pos_iff.1 hu; omega
    rw [hu, Nat.zero_mul, roundMag_zero]
    rfl
  · exact Int.natCast_nonneg _

/-- A value that is not negative and at most `of_int(1)` in magnitude. -/
theorem inUnitInterval_of_key {x : F64} (h0 : 0 ≤ key x) (h1 : magBits x ≤ magBits (ofInt 1)) :
    inUnitInterval b64 x := by
  have hone : isFinite (ofInt 1) = true := (ofInt_below (by decide)).1
  have hfin : isFinite x = true := decide_eq_true (h1.trans_lt (of_decide_eq_true hone))
  have hkey : key (ofInt 1) = magBits (ofInt 1) := by rw [key, if_neg (by rw [ofInt, sign_mk_roundMag]; decide)]
  have hzero : isNaN (ofInt 0) = false := not_isNaN_of_finite (ofInt_below (by decide)).1
  simp only [inUnitInterval, b64]
  refine ⟨hfin, Bool.eq_false_iff.2 fun hlt => ?_, Bool.eq_false_iff.2 fun hlt => ?_⟩
  · have := (flt_iff (not_isNaN_of_finite hfin) hzero).1 hlt
    rw [key_ofInt_zero] at this
    omega
  · have := (flt_iff (not_isNaN_of_finite hone) (not_isNaN_of_finite hfin)).1 hlt
    have := key_le_magBits x
    omega

/-- Pass 2 of one value between two different extremes (R179): the differences are rounded alike, so their quotient is at
most 1, and so is what it rounds to. -/
theorem normalise_inUnitInterval {mn mx v : F64} (hmn : Below mn 1100) (hmx : Below mx 1100) (hv : Below v 1100)
    (hlo : key mn ≤ key v) (hhi : key v ≤ key mx) (hne : key mn < key mx) : inUnitInterval b64 (normalise b64 mn mx v) := by
  have hlo' := value_le_value_iff.2 hlo
  have hhi' := value_le_value_iff.2 hhi
  have hne' := value_lt_value_iff.2 hne
  obtain ⟨hp, hp0⟩ := fsub_of_le hv.1 hmn.1 hlo
  obtain ⟨hq, hq0⟩ := fsub_of_le hmx.1 hmn.1 hne.le
  have hpq : magBits (fsub v mn) ≤ magBits (fsub mx mn) := by
    rw [hp, hq]
    exact roundMag_mono (by decide) (by decide) (by omega)
  have hqpos : 1 ≤ magBits (fsub mx mn) := by
    rw [hq]
    exact (show 1 ≤ roundMag .nearest 1 1 by decide).trans (roundMag_mono (by decide) (by decide) (by omega))
  have hqfin := isFinite_fsub_of_below hmx hmn (by decide)
  have hpfin := isFinite_fsub_of_below hv hmn (by decide)
  have hqkey := key_pos_of_nonneg hq0 hqpos
  obtain ⟨hr, hr0⟩ := fdiv_of_nonneg hpfin hqfin hp0 hqkey
  refine inUnitInterval_of_key hr0 ?_
  rw [ofInt, magBits_mk_roundMag]
  refine hr.trans_le (roundMag_mono (units_pos_of_key_pos hqkey) (by decide) ?_)
  rw [Nat.mul_one, Nat.one_mul, Nat.mul_comm]
  exact Nat.mul_le_mul_left _ (units_le_units_iff.2 hpq)

end B64

/-! The tone mapper under `B64`. -/

theorem foldl_choose_mem {F : Type} (p : F → F → Bool) (x : F) (xs : List F) :
    xs.foldl (fun m y => if p m y then y else m) x ∈ x :: xs := by
  induction xs generalizing x with
  | nil => exact List.mem_cons_self
  | cons y ys ih =>
    rw [List.foldl_cons]
    split
    · exact List.mem_cons_of_mem x (ih y)
    · rcases List.mem_cons.1 (ih x) with h | h
      · rw [h]
        exact List.mem_cons_self
      · exact List.mem_cons_of_mem x (List.mem_cons_of_mem y h)

theorem leastOf_mem {F : Type} (n : Num F) {l : List F} (h : l ≠ []) : leastOf n l ∈ l :=
  match l, h with
  | x :: xs, _ => foldl_choose_mem (fun m y => n.flt y m) x xs

theorem greatestOf_mem {F : Type} (n : Num F) {l : List F} (h : l ≠ []) : greatestOf n l ∈ l :=
  match l, h with
  | x :: xs, _ => foldl_choose_mem n.flt x xs

/-- The reduction under `B64` bounds every member (R174). -/
theorem key_between_extremes {l : List F64} (h : ∀ x ∈ l, B64.isNaN x = false) {v : F64} (hv : v ∈ l) :
    B64.key (leastOf b64 l) ≤ B64.key v ∧ B64.key v ≤ B64.key (greatestOf b64 l) := by
  cases l with
  | nil => cases hv
  | cons x xs =>
    obtain ⟨hx, hxs⟩ := List.forall_mem_cons.1 h
    obtain ⟨-, lx, lxs⟩ := foldl_least hx hxs
    obtain ⟨-, gx, gxs⟩ := foldl_greatest hx hxs
    rcases List.mem_cons.1 hv with rfl | hv
    · exact ⟨lx, gx⟩
    · exact ⟨lxs v hv, gxs v hv⟩

/-- Whatever TONEMAP writes lies in [0, 1] (R179). -/
theorem tonemapImage_inUnitInterval {off : F64} {xs : List F64} {t : Toned F64} (h : tonemapImage b64 off xs = .ok t) :
    ∀ y ∈ t.out, inUnitInterval b64 y := by
  rcases tonemapImage_cases b64 off xs with ⟨-, he⟩ | ⟨-, -, he⟩ | ⟨hdom, hrange, he⟩ <;> rw [he] at h
  · cases h
  · cases h
  cases h
  intro y hy
  obtain ⟨v, hv, rfl⟩ := List.mem_map.1 hy
  have hbelow : ∀ x ∈ logImage b64 off xs, B64.Below x 1100 := by
    intro x hx
    obtain ⟨u, hu, rfl⟩ := List.mem_map.1 hx
    exact B64.fln_below (List.all_eq_true.1 hdom u hu)
  generalize logImage b64 off xs = logs at hv hbelow hrange
  have hne : logs ≠ [] := List.ne_nil_of_mem hv
  have hmn := hbelow _ (leastOf_mem b64 hne)
  have hmx := hbelow _ (greatestOf_mem b64 hne)
  obtain ⟨hlo, hhi⟩ := key_between_extremes (fun x hx => B64.not_isNaN_of_finite (hbelow x hx).1) hv
  have hkey : B64.key (greatestOf b64 logs) ≠ B64.key (leastOf b64 logs) := fun hk =>
    Bool.eq_false_iff.1 hrange
      ((B64.feq_iff (B64.not_isNaN_of_finite hmx.1) (B64.not_isNaN_of_finite hmn.1)).2 hk)
  exact B64.normalise_inUnitInterval hmn hmx (hbelow v hv) hlo hhi (by omega)

/-! Every transaction keeps a VALID `F2` normalised. -/

namespace Block.State.normalised

variable {s : Machine.State}

theorem unpackBody (s : Machine.State) : (Machine.unpackBody s).normalised := by
  obtain ⟨m, v, e, b, hb⟩ := unpackBody_frame s
  rw [hb]
  exact normalised_iff.2 .off

theorem demosaicBody (s : Machine.State) : (Machine.demosaicBody b64 s).normalised := by
  obtain ⟨m, v, e, b, hb⟩ := demosaicBody_frame b64 s
  rw [hb]
  exact normalised_iff.2 .off

theorem correctBody (s : Machine.State) : (Machine.correctBody b64 s).normalised := by
  obtain ⟨m, v, e, b, hb⟩ := correctBody_frame b64 s
  rw [hb]
  exact normalised_iff.2 .off

theorem tonemapBody (hs : s.Tidy) : (Machine.tonemapBody b64 s).normalised := by
  rw [normalised_iff]
  rcases tonemapBody_cases b64 s with ⟨c, h⟩ | ⟨t, -, ht, h⟩ <;> rw [h]
  · exact .off
  · exact .writeAll hs.f2.wf (length_out_of_tonemapImage ht) (tonemapImage_inUnitInterval ht)

theorem commandBody {body : Machine.State → Machine.State} (hbody : CommandBody b64 body) (hs : s.Tidy)
    (h : s.normalised) : (body s).normalised :=
  have keeps := hbody.keeps (P := fun u => u.Tidy ∧ u.normalised)
    (fun u hu => ⟨hu.1.unpackBody, unpackBody u⟩) (fun u hu => ⟨hu.1.demosaicBody, demosaicBody u⟩)
    (fun u hu => ⟨hu.1.correctBody, correctBody u⟩) (fun _ hu => ⟨hu.1.tonemapBody, tonemapBody hu.1⟩)
    (fun _ hu => ⟨hu.1.faultEntry _, hu.2⟩)
  (keeps s ⟨hs, h⟩).2

theorem transacted {t : Machine.State} (hs : s.Tidy) (h : s.normalised) (ht : Transacted b64 s t) : t.normalised := by
  cases ht with
  | unchanged => exact h
  | command hbody => exact commandBody (s := startCommand s) hbody { hs with } h
  | discarded | loadIbuf | loadMosaic | loadF0 | loadF1 => exact normalised_iff.2 .off

end Block.State.normalised

end Sys2Proof.Machine

open Sys2Proof Sys2Proof.Machine

/-- Settles O53: TONEMAP alone writes `F2`, and the quotients it writes lie in [0, 1] whichever neighbour each logarithm
is. -/
theorem stepKeepsNormalised : Obligations.StepKeepsNormalised := by
  intro s t hs h hstep
  obtain ⟨-, htidy, -⟩ := shaped_iff.1 hs
  rcases step_cases hstep with rfl | ⟨rest, ht⟩
  · exact h
  · exact Block.State.normalised.transacted (s := { s with script := rest }) { htidy with } h ht

end

section
/-! SUPPORT. What two runs of a stage have in common where its input is the same (10_state.md R20, 20_memory.md R71). -/

namespace Sys2Proof.Machine

variable {fw : Nat} {n : Num (BitVec fw)} {s u : Block.State fw}

theorem validOf_invalidateFrom (v : ValidFlags) (b : Space) : validOf (invalidateFrom v b) b = false := by
  cases b <;> rfl

theorem Memory.read_writeAll_congr {w : Nat} {m k : Memory w} (hm : Memory.wf m) (hk : Memory.wf k) {vs : List (BitVec w)}
    {e : Nat} (he : e < vs.length) : Memory.read (Memory.writeAll m vs) e = Memory.read (Memory.writeAll k vs) e := by
  rw [Memory.read_writeAll_within hm he, Memory.read_writeAll_within hk he]

/-- Two states after a stage with output buffer `b` agree on `ERR` and on the flag of `b`, and, without a fault, on the
output. -/
structure SameAnswer (b : Space) (output : Block.State fw → Block.State fw → Prop) (t v : Block.State fw) : Prop where
  err : t.err = v.err
  flag : validOf t.valid b = validOf v.valid b
  out : t.err = 0 → output t v

theorem SameAnswer.fault {b : Space} {output : Block.State fw → Block.State fw → Prop} (c : Cause)
    (s u : Block.State fw) :
    SameAnswer b output (faultEntry c (beginWrite b s)) (faultEntry c (beginWrite b u)) where
  err := rfl
  flag := (validOf_invalidateFrom _ _).trans (validOf_invalidateFrom _ _).symm
  out h := absurd h (causeCode_ne_zero c)

/-- What an accepted command answers (R84). -/
theorem next_command (h : s.accepts) (body : Block.State fw → Block.State fw) :
    (.next (command body s) : Host.Outcome (Block.State fw) Fault Refusal) = .next (endCommand (body (startCommand s))) :=
  congrArg _ (command_accepted h body)

theorem unpackBody_sameAnswer (he : s.err = u.err) (hs : Memory.wf s.mosaic) (hu : Memory.wf u.mosaic)
    (hcfg : s.cfg = u.cfg) (hibuf : s.ibuf = u.ibuf) (hlen : s.inLen = u.inLen) (hv : s.valid.ibuf = u.valid.ibuf) :
    SameAnswer .mosaic (fun t v => ∀ e, e < s.cfg.geom.mosaicCount → Memory.read t.mosaic e = Memory.read v.mosaic e)
      (unpackBody s) (unpackBody u) := by
  have hgrid : unpackGrid s.cfg.geom (Memory.read s.ibuf) s.inLen.toNat =
      unpackGrid u.cfg.geom (Memory.read u.ibuf) u.inLen.toNat := by rw [hcfg, hibuf, hlen]
  cases hi : s.valid.ibuf with
  | false =>
    rw [unpackBody_notValid hi, unpackBody_notValid (hv ▸ hi)]
    exact .fault ..
  | true =>
    rcases unpackGrid_cases s.cfg.geom (Memory.read s.ibuf) s.inLen.toNat with ⟨-, hg⟩ | ⟨-, -, hg⟩ | ⟨-, -, hg⟩
    · rw [unpackBody_error hi hg, unpackBody_error (hv ▸ hi) (hgrid ▸ hg)]
      exact .fault ..
    · rw [unpackBody_error hi hg, unpackBody_error (hv ▸ hi) (hgrid ▸ hg)]
      exact .fault ..
    · rw [unpackBody_ok hi hg, unpackBody_ok (hv ▸ hi) (hgrid ▸ hg)]
      exact ⟨he, rfl, fun _ e h =>
        Memory.read_writeAll_congr hs hu (h.trans_eq (length_mosaicOf _ _).symm)⟩

theorem demosaicBody_sameAnswer (he : s.err = u.err) (hs : Memory.wf s.f0) (hu : Memory.wf u.f0) (hcfg : s.cfg = u.cfg)
    (hmosaic : s.mosaic = u.mosaic) (hv : s.valid.mosaic = u.valid.mosaic) :
    SameAnswer .f0 (fun t v => ∀ e, e < s.cfg.geom.imageCount → Memory.read t.f0 e = Memory.read v.f0 e)
      (demosaicBody n s) (demosaicBody n u) := by
  cases hi : s.valid.mosaic with
  | false =>
    rw [demosaicBody_notValid n hi, demosaicBody_notValid n (hv ▸ hi)]
    exact .fault ..
  | true =>
    rw [demosaicBody_ok n hi, demosaicBody_ok n (hv ▸ hi), ← hcfg, ← hmosaic]
    exact ⟨he, rfl, fun _ e h =>
      Memory.read_writeAll_congr hs hu (h.trans_eq (length_imageOf _ _).symm)⟩

theorem correctBody_sameAnswer (he : s.err = u.err) (hs : Memory.wf s.f1) (hu : Memory.wf u.f1) (hcfg : s.cfg = u.cfg)
    (hf0 : s.f0 = u.f0) (hv : s.valid.f0 = u.valid.f0) :
    SameAnswer .f1 (fun t v => ∀ e, e < s.cfg.geom.imageCount → Memory.read t.f1 e = Memory.read v.f1 e)
      (correctBody n s) (correctBody n u) := by
  cases hi : s.valid.f0 with
  | false =>
    rw [correctBody_notValid n hi, correctBody_notValid n (hv ▸ hi)]
    exact .fault ..
  | true =>
    rw [correctBody_ok n hi, correctBody_ok n (hv ▸ hi), ← hcfg, ← hf0]
    exact ⟨he, rfl, fun _ e h =>
      Memory.read_writeAll_congr hs hu (h.trans_eq (length_imageOf _ _).symm)⟩

theorem tonemapBody_sameAnswer (he : s.err = u.err) (hs : Memory.wf s.f2) (hu : Memory.wf u.f2) (hcfg : s.cfg = u.cfg)
    (hf1 : s.f1 = u.f1) (hv : s.valid.f1 = u.valid.f1) :
    SameAnswer .f2 (fun t v => t.minReg = v.minReg ∧ t.maxReg = v.maxReg ∧
        ∀ e, e < s.cfg.geom.imageCount → Memory.read t.f2 e = Memory.read v.f2 e)
      (tonemapBody n s) (tonemapBody n u) := by
  have himage : tonemapImage n s.cfg.consts.logOffset (imageElems s.cfg.geom s.f1) =
      tonemapImage n u.cfg.consts.logOffset (imageElems u.cfg.geom u.f1) := by rw [hcfg, hf1]
  cases hi : s.valid.f1 with
  | false =>
    rw [tonemapBody_notValid n hi, tonemapBody_notValid n (hv ▸ hi)]
    exact .fault ..
  | true =>
    cases ht : tonemapImage n s.cfg.consts.logOffset (imageElems s.cfg.geom s.f1) with
    | error c =>
      rw [tonemapBody_error n hi ht, tonemapBody_error n (hv ▸ hi) (himage ▸ ht)]
      exact .fault ..
    | ok t =>
      rw [tonemapBody_ok n hi ht, tonemapBody_ok n (hv ▸ hi) (himage ▸ ht)]
      exact ⟨he, rfl, fun _ => ⟨rfl, rfl, fun e h =>
        Memory.read_writeAll_congr hs hu (h.trans_eq (length_out_of_tonemapImage ht).symm)⟩⟩

end Sys2Proof.Machine

open Sys2Proof Sys2Proof.Machine

/-- Settles O32: each stage answers a function of its input (`SameAnswer`), written over a buffer it does not read. -/
theorem stagesReadOnlyTheirInput : Obligations.StagesReadOnlyTheirInput := by
  intro s u hs hu ⟨_, sm, s0, s1, s2⟩ ⟨_, um, u0, u1, u2⟩ hcfg
  have he : s.err = u.err := hs.2.trans hu.2.symm
  refine ⟨fun hibuf hlen hv => ?_, fun hmosaic hv => ?_, fun hf0 hv => ?_, fun hf1 hv => ?_⟩
  · have h := unpackBody_sameAnswer (s := startCommand s) (u := startCommand u) he sm um hcfg hibuf hlen hv
    exact ⟨_, _, next_command hs _, next_command hu _, h.err, h.flag, h.out⟩
  · have h := demosaicBody_sameAnswer (n := b64) (s := startCommand s) (u := startCommand u) he s0 u0 hcfg hmosaic hv
    exact ⟨_, _, next_command hs _, next_command hu _, h.err, h.flag, h.out⟩
  · have h := correctBody_sameAnswer (n := b64) (s := startCommand s) (u := startCommand u) he s1 u1 hcfg hf0 hv
    exact ⟨_, _, next_command hs _, next_command hu _, h.err, h.flag, h.out⟩
  · have h := tonemapBody_sameAnswer (n := b64) (s := startCommand s) (u := startCommand u) he s2 u2 hcfg hf1 hv
    exact ⟨_, _, next_command hs _, next_command hu _, h.err, h.flag, h.out⟩

end

section
/-! SUPPORT. The register words made of flags (10_state.md R34, R35), and the state after reset (R40). -/

namespace Sys2Proof.Machine

theorem getLsbD_flagBit (b : Bool) {i : Nat} (hi : i < 32) (k : Nat) :
    (flagBit b i).getLsbD k = (b && decide (k = i)) := by
  cases b with
  | false => simp [flagBit]
  | true =>
    simp only [flagBit, if_true, BitVec.getLsbD_ofNat, Nat.testBit_two_pow, Bool.true_and]
    by_cases h : k = i
    · simp [h, hi]
    · simp [h, Ne.symm h]

theorem smallestGeometry_wellFormed : smallestGeometry.wellFormed = true := by decide

/-- The geometry of the block after reset is valid, whatever the free value is (R8, log entry 2). -/
theorem builtCfgOf_wellFormed {fw : Nat} (n : Num (BitVec fw)) : (builtCfgOf n).geom.wellFormed = true := by
  unfold builtCfgOf
  split
  · next h => exact h
  · exact smallestGeometry_wellFormed

theorem isFinite_finiteOrZero {F : Type} {n : Num F} (h0 : n.isFinite (n.ofInt 0) = true) (x : F) :
    n.isFinite (finiteOrZero n x) = true := by
  unfold finiteOrZero
  split
  · next h => exact h
  · exact h0

/-- The block after reset has a valid record `CFG`, for any `NUM` in which 0 is finite. -/
theorem cfgValid_builtCfgOf {fw : Nat} {n : Num (BitVec fw)} (h0 : n.isFinite (n.ofInt 0) = true) :
    cfgValid n (builtCfgOf n) = true := by
  have hccm : ccmFinite n (builtCfgOf n).consts.ccm = true := by
    simp [builtCfgOf, sourceConsts, ccmFinite, rgbAll, rgbMap, isFinite_finiteOrZero h0]
  have hconsts : ((builtCfgOf n).consts == sourceConsts n (builtCfgOf n).consts.ccm) = true := beq_self_eq_true _
  rw [cfgValid, builtCfgOf_wellFormed, hccm, hconsts]
  rfl

theorem Memory.fits_nil {w : Nat} (size : Nat) : Memory.Fits ([] : Memory w) size := ⟨Memory.wf_nil, by simp [Memory.inside]⟩

theorem tidy_resetWith {fw : Nat} (c : CfgOf fw) : (Block.State.resetWith c).Tidy where
  ibuf := Memory.fits_nil _
  mosaic := Memory.fits_nil _
  f0 := Memory.fits_nil _
  f1 := Memory.fits_nil _
  f2 := Memory.fits_nil _
  len := Nat.zero_le _
  err := .inl rfl

end Sys2Proof.Machine

open Sys2Proof Sys2Proof.Machine

/-- Settles O44: `STATUS` is a union of single bits, and `ERR` is widened with zeros. -/
theorem registerWordBits : Obligations.RegisterWordBits := by
  intro s k
  constructor
  · simp (disch := decide) only [statusWord, BitVec.getLsbD_or, getLsbD_flagBit]
    split_ifs <;> simp [*]
  · rw [errWord, BitVec.getLsbD_setWidth]
    split
    · next h => rw [decide_eq_true (by omega), Bool.true_and]
    · next h => rw [BitVec.getLsbD_of_ge _ _ (by omega), Bool.and_false]

/-- Settles O7: the values with which `Block.State.resetWith` builds the state; `STATUS` copies flags that are all 0. -/
theorem resetStateValues : Obligations.ResetStateValues := ⟨rfl, rfl, rfl, rfl, rfl⟩

/-- Settles O50: the built `CFG` is valid, the memories list nothing, and no flag is set. -/
theorem resetMeetsInvariants : Obligations.ResetMeetsInvariants := by
  have hzero : b64.isFinite (b64.ofInt 0) = true := by
    simp only [b64]
    exact (B64.ofInt_below (by decide)).1
  exact ⟨shaped_iff.2 ⟨cfgValid_builtCfgOf hzero, tidy_resetWith _, rfl⟩,
    samplesTenBit_iff.2 .off, rawFinite_iff.2 .off, normalised_iff.2 .off⟩

end

section
/-! SUPPORT. The host transactions other than commands, one rule each (20_memory.md R60 to R67, 10_state.md R32): when the
data of a LOAD are accepted, what a read answers and leaves alone, and what a busy block does. -/

namespace Sys2Proof.Machine

variable {fw : Nat} {s : Block.State fw}

/-! LOADs (R62 to R64). -/

theorem ibufDataOk_iff {g : Geometry} {bytes : List Byte} : ibufDataOk g bytes = true ↔ bytes.length ≤ g.inCap :=
  decide_eq_true_iff

theorem mosaicDataOk_iff {g : Geometry} {values : List Nat} :
    mosaicDataOk g values = true ↔ values.length = g.mosaicCount ∧ ∀ v ∈ values, v ≤ 1023 := by
  simp [mosaicDataOk]

theorem imageDataOk_iff {F : Type} {n : Num F} {g : Geometry} {values : List F} :
    imageDataOk n g values = true ↔ values.length = g.imageCount ∧ ∀ v ∈ values, n.isFinite v = true := by
  simp [imageDataOk]

theorem not_ibufDataOk_iff {g : Geometry} {bytes : List Byte} :
    ¬ ibufDataOk g bytes = true ↔ g.inCap < bytes.length := by
  rw [ibufDataOk_iff, Nat.not_le]

theorem not_mosaicDataOk_iff {g : Geometry} {values : List Nat} :
    ¬ mosaicDataOk g values = true ↔ values.length ≠ g.mosaicCount ∨ ∃ v ∈ values, 1023 < v := by
  simp [mosaicDataOk_iff, imp_iff_not_or]

theorem not_imageDataOk_iff {F : Type} {n : Num F} {g : Geometry} {values : List F} :
    ¬ imageDataOk n g values = true ↔ values.length ≠ g.imageCount ∨ ∃ v ∈ values, n.isFinite v = false := by
  simp [imageDataOk_iff, imp_iff_not_or]

/-- A LOAD is refused where the block does not accept it, and where its data are not as its rule asks (R66). -/
theorem load_outside {ok : Bool} (h : ¬ s.accepts ∨ ¬ ok = true) (effect : Block.State fw → Block.State fw) :
    load ok effect s = refuse s := load_refused (not_and_or.2 h) effect

/-- An accepted mosaic reads back as the numbers loaded, which fit in 16 bits (R63). -/
theorem toNat_read_writeAll_samples {m : Memory 16} (hm : Memory.wf m) {values : List Nat}
    (hle : ∀ v ∈ values, v ≤ 1023) {e : Nat} (he : e < values.length) :
    (Memory.read (Memory.writeAll m (values.map (BitVec.ofNat 16))) e).toNat = values.getD e 0 := by
  have hv : values[e] ≤ 1023 := hle _ (List.getElem_mem he)
  have he' : e < (values.map (BitVec.ofNat 16)).length := he.trans_eq (List.length_map _).symm
  rw [Memory.read_writeAll_within hm he', List.getD_eq_getElem _ _ he', List.getElem_map, BitVec.toNat_ofNat,
    List.getD_eq_getElem _ _ he]
  omega

/-! READs (R60, R65). -/

theorem readElement_meaningful {w : Nat} {ok : Bool} (h : ok = true) (v : BitVec w) (form : BitVec w → ResponseOf fw)
    (s : Block.State fw) : readElement ok v form s = respond (form v) s := if_pos h

theorem readElement_unspecified {w : Nat} {ok : Bool} (h : ok = false) (v : BitVec w) (form : BitVec w → ResponseOf fw)
    (s : Block.State fw) : readElement ok v form s = drawRead form s := if_neg (by simp [h])

theorem readRegister_frame (i : Nat) (s : Block.State fw) :
    ∃ r k, readRegister i s = { s with response := r, draws := k } :=
  match i with
  | 0 | 1 | 2 | 3 => ⟨_, s.draws, rfl⟩
  | 4 | _ + 5 => readElement_frame _ _ _ s

theorem readInside_frame (sp : Space) (i : Nat) (s : Block.State fw) :
    ∃ r k, readInside sp i s = { s with response := r, draws := k } := by
  cases sp with
  | csr => exact readRegister_frame i s
  | ibuf | mosaic | f0 | f1 | f2 => exact readElement_frame _ _ _ s

theorem hostRead_frame (sp : Space) (i : Nat) (s : Block.State fw) :
    ∃ r k, hostRead sp i s = { s with response := r, draws := k } := by
  by_cases h : s.readable sp i
  · rw [hostRead_inside h]
    exact readInside_frame sp i s
  · exact ⟨.refused, s.draws, hostRead_refused h⟩

/-- A read inside a space of an idle block is carried out (R60). -/
theorem hostRead_idle (hb : s.busy = false) {sp : Space} {i : Nat} (hi : i < spaceSize s.cfg.geom sp) :
    hostRead sp i s = readInside sp i s :=
  hostRead_inside ⟨hi, .inl hb⟩

section

variable {s t : State} {sp : Space} {i : Nat} {w : Nat} {ok : Bool} {v : BitVec w}

theorem transact_read_idle (hb : s.busy = false) (hi : i < spaceSize s.cfg.geom sp) (h : readInside sp i s = t) :
    transact (.read sp i) s = .next t :=
  congrArg Host.Outcome.next ((hostRead_idle hb hi).trans h)

/-- A read of an element whose condition `ok` holds answers the element. -/
theorem transact_read_meaningful (sp : Space) (form : BitVec w → Response) (hb : s.busy = false)
    (hread : readInside sp i s = readElement ok v form s) (hok : ok = true) (hi : i < spaceSize s.cfg.geom sp) :
    transact (.read sp i) s = .next (respond (form v) s) :=
  transact_read_idle hb hi (hread.trans (readElement_meaningful hok v form s))

/-- A read of an element whose condition `ok` does not hold answers a free value (R65). -/
theorem transact_read_unspecified (sp : Space) (form : BitVec w → Response) (hb : s.busy = false)
    (hread : readInside sp i s = readElement ok v form s) (hok : ok = false) (hi : i < spaceSize s.cfg.geom sp) :
    transact (.read sp i) s = .next (drawRead form s) :=
  transact_read_idle hb hi (hread.trans (readElement_unspecified hok v form s))

end

/-! A busy block (R66, R236). -/

theorem not_accepts_of_busy (hb : s.busy = true) : ¬ s.accepts := fun ha => absurd (ha.1.symm.trans hb) (by decide)

theorem execOf_busy (n : Num (BitVec fw)) (hb : s.busy = true) (i : Instr) : execOf n i s = .next (refuse s) := by
  have hcommand := command_refused (not_accepts_of_busy hb)
  cases i with
  | unpack | demosaic | correct | tonemap | run => exact congrArg _ (hcommand _)
  | clear => exact congrArg _ (clearCommand_busy hb _)

theorem writeCmdWith_busy (n : Num (BitVec fw)) (hb : s.busy = true) (w : Word) :
    writeCmdWith (execOf n) w s = .next (refuse s) := by
  cases hd : decode w with
  | ok i => rw [writeCmdWith_of_decode hd, execOf_busy n hb]
  | error e =>
    rw [writeCmdWith_of_reserved hd, reservedCommand, command_refused (not_accepts_of_busy hb)]

theorem hostRead_busy (hb : s.busy = true) {sp : Space} {i : Nat} (h : ¬ (sp = .csr ∧ i = 1)) :
    hostRead sp i s = refuse s :=
  hostRead_refused fun hr => hr.2.elim (fun hidle => absurd (hidle.symm.trans hb) (by decide)) h

theorem transactOf_busy (n : Num (BitVec fw)) (hb : s.busy = true) (x : TransactionOf fw) (hreset : x ≠ .reset)
    (hstatus : x ≠ .read .csr 1) : transactOf n x s = .next (refuse s) := by
  cases x with
  | reset => exact absurd rfl hreset
  | loadIbuf | loadMosaic | loadF0 | loadF1 => exact congrArg _ (load_outside (.inl (not_accepts_of_busy hb)) _)
  | loadF2 => rfl
  | writeCsr k w =>
    by_cases hk : k = 0
    · exact (if_pos hk).trans (writeCmdWith_busy n hb w)
    · exact if_neg hk
  | read sp i => exact congrArg _ (hostRead_busy hb fun ⟨hsp, hi⟩ => hstatus (by rw [hsp, hi]))

end Sys2Proof.Machine

open Sys2Proof Sys2Proof.Machine

/-- Settles O37: the LOAD is accepted, and the whole-buffer write reads as the bytes. -/
theorem loadIbufWritesFrame : Obligations.LoadIbufWritesFrame := by
  intro s bytes ha hm hlen
  exact ⟨_, congrArg _ (load_accepted ha (ibufDataOk_iff.2 hlen) _), fun i hi => Memory.read_writeAll_within hm hi⟩

/-- Settles O38: the LOAD is accepted, and 16 bits hold every value up to 1023. -/
theorem loadMosaicWritesGrid : Obligations.LoadMosaicWritesGrid := by
  intro s values ha hm hlen hle
  exact ⟨_, congrArg _ (load_accepted ha (mosaicDataOk_iff.2 ⟨hlen, hle⟩) _),
    fun e he => toNat_read_writeAll_samples hm hle (he.trans_eq hlen.symm)⟩

/-- Settles O39: both LOADs are accepted, and a whole-buffer write reads as the values, and as before behind them. -/
theorem loadImageWritesFloats : Obligations.LoadImageWritesFloats := by
  intro s values ha ⟨_, _, hf0, hf1, _⟩ hlen hfin
  have hok : imageDataOk b64 s.cfg.geom values = true := imageDataOk_iff.2 ⟨hlen, hfin⟩
  exact ⟨⟨_, congrArg _ (load_accepted ha hok _), Memory.read_writeAll hf0 values⟩,
    ⟨_, congrArg _ (load_accepted ha hok _), Memory.read_writeAll hf1 values⟩⟩

/-- Settles O40: a LOAD is accepted only in an accepting state with the data its rule asks for, a register write only for
register 0, and a read only inside its space. -/
theorem outsideTheRulesRefused : Obligations.OutsideTheRulesRefused := by
  intro s
  refine ⟨fun bytes h => ?_, fun values h => ?_, fun values h => ?_, fun values => rfl, fun n w hn => if_neg hn,
    fun sp i hi => ?_⟩
  · exact congrArg _ (load_outside (h.imp_right not_ibufDataOk_iff.2) _)
  · exact congrArg _ (load_outside (h.imp_right not_mosaicDataOk_iff.2) _)
  · have hout := h.imp_right (not_imageDataOk_iff (n := b64)).2
    exact ⟨congrArg _ (load_outside hout _), congrArg _ (load_outside hout _)⟩
  · exact congrArg _ (hostRead_refused fun hr => hi.not_gt hr.1)

/-- Settles O41: the block is idle, so a read inside its space is carried out, and the element is meaningful
(one of `IBUF` where it lies below `IN_LEN`). -/
theorem readReturnsElement : Obligations.ReadReturnsElement := by
  intro s i hb
  refine ⟨fun hv hlen hi => transact_read_meaningful .ibuf .byte hb rfl ?_ hi,
    transact_read_meaningful .mosaic .sample hb rfl, transact_read_meaningful .f0 .float hb rfl,
    transact_read_meaningful .f1 .float hb rfl, transact_read_meaningful .f2 .float hb rfl,
    transact_read_idle hb (by decide : 0 < 6) rfl, transact_read_idle hb (by decide : 1 < 6) rfl,
    transact_read_idle hb (by decide : 2 < 6) rfl, transact_read_idle hb (by decide : 3 < 6) rfl,
    fun hv => ⟨transact_read_meaningful .csr .float hb rfl hv (by decide : 4 < 6),
      transact_read_meaningful .csr .float hb rfl hv (by decide : 5 < 6)⟩⟩
  rw [hv, decide_eq_true hlen, Bool.and_true]

/-- Settles O42: the block is idle, so a read inside its space is carried out, and draws a free value where the element is
not meaningful. -/
theorem unspecifiedReadIsFree : Obligations.UnspecifiedReadIsFree := by
  intro s i hb after
  refine ⟨fun h hi => transact_read_unspecified .ibuf .byte hb rfl ?_ hi,
    transact_read_unspecified .mosaic .sample hb rfl, transact_read_unspecified .f0 .float hb rfl,
    transact_read_unspecified .f1 .float hb rfl, transact_read_unspecified .f2 .float hb rfl,
    fun hv => ⟨transact_read_unspecified .csr .float hb rfl hv (by decide : 4 < 6),
      transact_read_unspecified .csr .float hb rfl hv (by decide : 5 < 6)⟩⟩
  rcases h with hv | hlen
  · rw [hv, Bool.false_and]
  · rw [decide_eq_false hlen.not_gt, Bool.and_false]

/-- Settles O43: a read is refused, or it answers with an element, a register or a free value. -/
theorem readChangesNothing : Obligations.ReadChangesNothing := by
  intro s sp i
  obtain ⟨r, k, h⟩ := hostRead_frame sp i s
  exact ⟨r, k, congrArg _ h⟩

/-- Settles O45: no acceptance rule but those of the reset event and of a read of `STATUS` lets a busy block go on. -/
theorem busyRefusesAllButStatus : Obligations.BusyRefusesAllButStatus := by
  intro s hb
  rw [← transactOf_b64, ← execOf_b64]
  exact ⟨transactOf_busy b64 hb, execOf_busy b64 hb,
    congrArg _ (hostRead_inside ⟨(by decide : 1 < 6), .inr ⟨rfl, rfl⟩⟩)⟩

end

section
/-! SUPPORT. The decoder of the `CMD` word (30_encoding.md R80 to R83): the two fields of a word, the words of the
commands, and what `decode` answers, said once. -/

namespace Sys2Proof

theorem toNat_reservedField (w : Word) : (reservedField w).toNat = w.toNat / 256 := by
  rw [reservedField, BitVec.extractLsb'_toNat, Nat.shiftRight_eq_div_pow]
  omega

theorem toNat_opcodeField (w : Word) : (opcodeField w).toNat = w.toNat % 256 := BitVec.extractLsb'_toNat 0 8 w

theorem reservedField_eq_zero_iff {w : Word} : reservedField w = 0 ↔ w.toNat < 256 := by
  rw [← BitVec.toNat_inj, toNat_reservedField]
  exact Nat.div_eq_zero_iff_lt (by decide)

/-- The encoder puts zeros above the opcode (R80). -/
theorem toNat_encode (i : Instr) : (encode i).toNat = (opcodeOf i).toNat := by cases i <;> rfl

/-- The words of the commands are 1 to 6 (R82). -/
theorem exists_eq_encode_iff {w : Word} : (∃ i, w = encode i) ↔ 1 ≤ w.toNat ∧ w.toNat ≤ 6 := by
  constructor
  · rintro ⟨i, rfl⟩
    cases i <;> decide
  · rintro ⟨hlow, hhigh⟩
    obtain h | h | h | h | h | h : w.toNat = 1 ∨ w.toNat = 2 ∨ w.toNat = 3 ∨ w.toNat = 4 ∨ w.toNat = 5 ∨ w.toNat = 6 := by
      omega
    exacts [⟨.unpack, BitVec.eq_of_toNat_eq h⟩, ⟨.demosaic, BitVec.eq_of_toNat_eq h⟩,
      ⟨.correct, BitVec.eq_of_toNat_eq h⟩, ⟨.tonemap, BitVec.eq_of_toNat_eq h⟩,
      ⟨.run, BitVec.eq_of_toNat_eq h⟩, ⟨.clear, BitVec.eq_of_toNat_eq h⟩]

theorem opcodeOf_of_decodeOpcode {op : BitVec 8} {i : Instr} (h : decodeOpcode op = some i) : op = opcodeOf i := by
  unfold decodeOpcode at h
  split_ifs at h <;> cases h <;> assumption

theorem decode_encode (i : Instr) : decode (encode i) = .ok i := by cases i <;> rfl

/-- What `decode` answers (R83, R85): bits 31:8 are tested first, then the opcode is looked up. -/
theorem decode_cases (w : Word) :
    (256 ≤ w.toNat ∧ decode w = .error (.reservedBits w)) ∨
    (w.toNat < 256 ∧ decode w = .error (.reservedOpcode w)) ∨
    ∃ i, w = encode i ∧ decode w = .ok i := by
  by_cases hup : reservedField w = 0
  · have hlt := reservedField_eq_zero_iff.1 hup
    cases hop : decodeOpcode (opcodeField w) with
    | none => exact .inr (.inl ⟨hlt, by simp [decode, hup, hop]⟩)
    | some i =>
      have hw : w = encode i := BitVec.eq_of_toNat_eq <| calc
        w.toNat = (opcodeField w).toNat := by rw [toNat_opcodeField, Nat.mod_eq_of_lt hlt]
        _ = (encode i).toNat := by rw [opcodeOf_of_decodeOpcode hop, toNat_encode]
      exact .inr (.inr ⟨i, hw, by rw [hw, decode_encode]⟩)
  · exact .inl ⟨not_lt.1 (mt reservedField_eq_zero_iff.2 hup), if_pos hup⟩

theorem decode_eq_ok_iff {w : Word} {i : Instr} : decode w = .ok i ↔ w = encode i := by
  refine ⟨fun h => ?_, fun h => h ▸ decode_encode i⟩
  rcases decode_cases w with ⟨-, hd⟩ | ⟨-, hd⟩ | ⟨j, hw, hd⟩ <;> cases hd.symm.trans h
  exact hw

theorem exists_decode_eq_ok_iff {w : Word} : (∃ i, decode w = .ok i) ↔ 1 ≤ w.toNat ∧ w.toNat ≤ 6 :=
  (exists_congr fun _ => decode_eq_ok_iff).trans exists_eq_encode_iff

/-- A word other than 1 to 6 is reserved (R83). -/
theorem exists_decode_eq_error {w : Word} (h : ¬ (1 ≤ w.toNat ∧ w.toNat ≤ 6)) : ∃ e, decode w = .error e := by
  cases hd : decode w with
  | ok i => exact absurd (exists_decode_eq_ok_iff.1 ⟨i, hd⟩) h
  | error e => exact ⟨e, rfl⟩

end Sys2Proof

open Sys2Proof

/-- Settles O2: `decode` answers a command on no other word than the command's own. -/
theorem decodeEncodeAgree : Obligations.DecodeEncodeAgree := fun _ _ => decode_eq_ok_iff

/-- Settles O3: the three answers of `decode` exclude each other, and so do the three ranges. -/
theorem reservedWordsAreAllOthers : Obligations.ReservedWordsAreAllOthers := by
  intro w
  rw [exists_decode_eq_ok_iff]
  rcases decode_cases w with ⟨hup, hd⟩ | ⟨hlt, hd⟩ | ⟨i, hw, hd⟩
  · simp [hd, hup]
  · have hout : ¬ (1 ≤ w.toNat ∧ w.toNat ≤ 6) := fun h => by
      obtain ⟨i, hi⟩ := exists_decode_eq_ok_iff.2 h
      cases hd.symm.trans hi
    simp [hd, hlt, hout]
  · have hin := exists_eq_encode_iff.1 ⟨i, hw⟩
    have hlt : ¬ 256 ≤ w.toNat := by omega
    simp [hd, hin, hlt]

/-- Settles O1: six words are the commands' own, and four are looked up. -/
theorem tableWordsDecode : Obligations.TableWordsDecode :=
  ⟨decode_encode .unpack, decode_encode .demosaic, decode_encode .correct, decode_encode .tonemap, decode_encode .run,
    decode_encode .clear, rfl, rfl, rfl, rfl⟩

end

section
/-! SUPPORT. A write to `CMD` by acceptance (30_encoding.md R84, R85): what a state that accepts no command but CLEAR
refuses, and what an accepted reserved word leaves behind (45_control.md R194). -/

namespace Sys2Proof.Machine

variable {fw : Nat} {s : Block.State fw}

theorem execOf_refused (n : Num (BitVec fw)) (ha : ¬ s.accepts) {i : Instr} (hi : i ≠ .clear) :
    execOf n i s = .next (refuse s) := by
  cases i with
  | unpack | demosaic | correct | tonemap | run => exact congrArg _ (command_refused ha _)
  | clear => exact absurd rfl hi

theorem writeCmdWith_refused (n : Num (BitVec fw)) (ha : ¬ s.accepts) {w : Word} (hw : w ≠ encode .clear) :
    writeCmdWith (execOf n) w s = .next (refuse s) := by
  cases hd : decode w with
  | ok i =>
    have hi : i ≠ .clear := fun h => hw (decode_eq_ok_iff.1 (h ▸ hd))
    rw [writeCmdWith_of_decode hd, execOf_refused n ha hi]
  | error e => rw [writeCmdWith_of_reserved hd, reservedCommand, command_refused ha]

/-- An accepted reserved word changes `ERR` and nothing else of the block (R194). -/
theorem reservedCommand_accepted (ha : s.accepts) :
    reservedCommand s = { s with err := 0x40, response := .done } := by
  calc reservedCommand s = { s with busy := false, err := 0x40, response := .done } := command_accepted ha _
    _ = { s with err := 0x40, response := .done } := by rw [← ha.1]

end Sys2Proof.Machine

open Sys2Proof Sys2Proof.Machine

/-- Settles O6: a busy block refuses every word and a faulted one every word but CLEAR's; elsewhere a command word runs
its command, and every other word is reserved. -/
theorem commandWriteFollowsDecoder : Obligations.CommandWriteFollowsDecoder := by
  intro w s
  have hruns (i : Instr) (hw : w = encode i) : writeCmd w s = exec i s := writeCmd_of_decode (decode_eq_ok_iff.2 hw) s
  refine ⟨fun hb => ?_, fun _ he hw => ?_, fun hb he => ⟨hruns .unpack, hruns .demosaic, hruns .correct, hruns .tonemap,
    hruns .run, fun hw => ?_⟩, fun _ => hruns .clear⟩
  · rw [writeCmd, ← execOf_b64]
    exact writeCmdWith_busy b64 hb w
  · rw [writeCmd, ← execOf_b64]
    exact writeCmdWith_refused b64 (fun ha => he ha.2) hw
  · obtain ⟨e, hd⟩ := exists_decode_eq_error hw
    rw [writeCmd_of_reserved hd, reservedCommand_accepted ⟨hb, he⟩]

end

section
/-! SUPPORT. The reduction over any `NUM` with the properties of R106 (40_numerics.md R110, 44_tonemap.md R174): the chosen
value is extreme, so it does not depend on the order of the elements. -/

namespace Sys2Proof.Machine

/-- Keeping the preferred of two values leaves one to which no value seen is preferred, where the preference is asymmetric
and what is not preferred composes. -/
theorem foldl_choose_extreme {F : Type} {fin : F → Prop} {p : F → F → Bool}
    (hasymm : ∀ a b, fin a → fin b → p a b = true → p b a = false)
    (htrans : ∀ a b c, fin a → fin b → fin c → p b a = false → p c b = false → p c a = false)
    {xs : List F} {x : F} (hfin : ∀ y ∈ x :: xs, fin y) :
    ∀ y ∈ x :: xs, p y (xs.foldl (fun m y => if p y m then y else m) x) = false := by
  have hrefl (a : F) (ha : fin a) : p a a = false := by
    by_contra h
    exact h (hasymm a a ha ha (Bool.eq_true_of_not_eq_false h))
  induction xs generalizing x with
  | nil => simpa using hrefl x (hfin x List.mem_cons_self)
  | cons z zs ih =>
    obtain ⟨hx, hz, hzs⟩ : fin x ∧ fin z ∧ ∀ y ∈ zs, fin y := by simpa using hfin
    have hkeep : let w := if p z x then z else x; fin w ∧ p x w = false ∧ p z w = false := by
      by_cases h : p z x = true
      · simpa [h] using ⟨hz, hasymm z x hz hx h, hrefl z hz⟩
      · simpa [h] using ⟨hx, hrefl x hx⟩
    rw [List.foldl_cons]
    generalize (if p z x then z else x) = w at hkeep ⊢
    obtain ⟨hw, hxw, hzw⟩ := hkeep
    have hall : ∀ y ∈ w :: zs, fin y := List.forall_mem_cons.2 ⟨hw, hzs⟩
    have hrest := ih hall
    have hmem := hall _ (foldl_choose_mem (fun m y => p y m) w zs)
    have hlast := hrest w List.mem_cons_self
    intro y hy
    rcases List.mem_cons.1 hy with rfl | hy
    · exact htrans _ _ _ hmem hw hx hlast hxw
    rcases List.mem_cons.1 hy with rfl | hy
    · exact htrans _ _ _ hmem hw hz hlast hzw
    · exact hrest y (List.mem_cons_of_mem w hy)

section

variable {F : Type} {n : Num F}

theorem NumLawful.lt_asymm (hn : NumLawful n) (a b : F) (ha : n.isFinite a = true) (hb : n.isFinite b = true)
    (h : n.flt a b = true) : n.flt b a = false := by
  by_contra hc
  have hloop := hn.lt_trans a b a ha hb ha h (Bool.eq_true_of_not_eq_false hc)
  exact Bool.false_ne_true ((hn.lt_irrefl a ha).symm.trans hloop)

/-- No member is less than the least one (R174). -/
theorem leastOf_extreme (hn : NumLawful n) {l : List F} (hfin : ∀ x ∈ l, n.isFinite x = true) :
    ∀ x ∈ l, n.flt x (leastOf n l) = false := by
  cases l with
  | nil => exact fun _ h => absurd h List.not_mem_nil
  | cons y ys =>
    exact foldl_choose_extreme (p := n.flt) (fin := fun x => n.isFinite x = true) hn.lt_asymm hn.not_lt_trans hfin

/-- The greatest member is less than no member (R174). -/
theorem greatestOf_extreme (hn : NumLawful n) {l : List F} (hfin : ∀ x ∈ l, n.isFinite x = true) :
    ∀ x ∈ l, n.flt (greatestOf n l) x = false := by
  cases l with
  | nil => exact fun _ h => absurd h List.not_mem_nil
  | cons y ys =>
    exact foldl_choose_extreme (p := fun a b => n.flt b a) (fin := fun x => n.isFinite x = true)
      (fun a b ha hb => hn.lt_asymm b a hb ha)
      (fun a b c ha hb hc hab hbc => hn.not_lt_trans c b a hc hb ha hbc hab) hfin

end

end Sys2Proof.Machine

open Sys2Proof Sys2Proof.Machine

/-- Settles O27: each extreme is a member of both lists, so of the two none is less than the other. -/
theorem reductionOrderFree : Obligations.ReductionOrderFree := by
  intro F n l k hn hl hfin hperm
  have hk : k ≠ [] := fun h => hl (List.Perm.eq_nil (h ▸ hperm))
  have hfink : ∀ x ∈ k, n.isFinite x = true := fun x hx => hfin x (hperm.mem_iff.2 hx)
  have hleast := hperm.mem_iff.2 (leastOf_mem n hk)
  have hleast' := hperm.mem_iff.1 (leastOf_mem n hl)
  have hgreatest := hperm.mem_iff.2 (greatestOf_mem n hk)
  have hgreatest' := hperm.mem_iff.1 (greatestOf_mem n hl)
  constructor
  · exact (hn.eq_iff _ _ (hfink _ hleast') (hfin _ hleast)).2
      ⟨leastOf_extreme hn hfink _ hleast', leastOf_extreme hn hfin _ hleast⟩
  · exact (hn.eq_iff _ _ (hfink _ hgreatest') (hfin _ hgreatest)).2
      ⟨greatestOf_extreme hn hfin _ hgreatest, greatestOf_extreme hn hfink _ hgreatest'⟩

end

section
/-! SUPPORT. The magnitudes of `B64` as a grid on the number line (40_numerics.md R104): the distance from one to the next, and
what each direction of rounding picks. -/

namespace Sys2Proof.Machine.B64

/-! The grid. -/

/-- How many units the next magnitude is away. -/
def gap (mag : Nat) : Nat := 2 ^ (mag / 2 ^ 52 - 1)

theorem gap_pos (k : Nat) : 0 < gap k := Nat.two_pow_pos _

theorem gap_mono : Monotone gap := fun _ _ h =>
  Nat.pow_le_pow_right (by decide) (Nat.sub_le_sub_right (Nat.div_le_div_right h) 1)

theorem ulp_eq (x : F64) : ulp x = (gap (magBits x) : ℝ) / 2 ^ 1074 := by
  rw [ulp, gap, Nat.cast_pow, Nat.cast_ofNat]

/-- The units of a significand `q` shifted by `s`, which is normalised or not shifted at all. -/
theorem unitsOf_shifted {s q : Nat} (hq : q ≤ 2 ^ 53) (hs : s = 0 ∨ 2 ^ 52 ≤ q) :
    unitsOf (s * 2 ^ 52 + q) = q * 2 ^ s := by
  rcases lt_or_ge q (2 ^ 52) with hlow | hhigh
  · obtain rfl : s = 0 := hs.resolve_right hlow.not_ge
    rw [unitsOf, if_pos (by omega)]
    omega
  rcases hq.eq_or_lt with rfl | hq
  · rw [unitsOf, if_neg (by omega), show (s * 2 ^ 52 + 2 ^ 53) / 2 ^ 52 - 1 = s + 1 by omega,
      show (s * 2 ^ 52 + 2 ^ 53) % 2 ^ 52 = 0 by omega, pow_succ]
    ring
  · rw [unitsOf, if_neg (by omega), show (s * 2 ^ 52 + q) / 2 ^ 52 - 1 = s by omega,
      show 2 ^ 52 + (s * 2 ^ 52 + q) % 2 ^ 52 = q by omega]

theorem gap_shifted {s q : Nat} (hq : q < 2 ^ 53) (hs : s = 0 ∨ 2 ^ 52 ≤ q) : gap (s * 2 ^ 52 + q) = 2 ^ s := by
  rw [gap, show (s * 2 ^ 52 + q) / 2 ^ 52 - 1 = s by omega]

/-- Every magnitude is a significand of at most 53 bits, shifted. -/
theorem exists_eq_shifted (k : Nat) : ∃ s q, q < 2 ^ 53 ∧ (s = 0 ∨ 2 ^ 52 ≤ q) ∧ k = s * 2 ^ 52 + q :=
  ⟨k / 2 ^ 52 - 1, k - (k / 2 ^ 52 - 1) * 2 ^ 52, by omega, by omega, by omega⟩

theorem unitsOf_succ (k : Nat) : unitsOf (k + 1) = unitsOf k + gap k := by
  obtain ⟨s, q, hq, hs, rfl⟩ := exists_eq_shifted k
  rw [unitsOf_shifted hq.le hs, gap_shifted hq hs, Nat.add_assoc, unitsOf_shifted hq (by omega), Nat.succ_mul]

/-- From `2^(52 + k)` units on, a magnitude is a multiple of `2^k` units. -/
theorem two_pow_dvd_unitsOf {k mag : Nat} (h : 2 ^ (52 + k) ≤ unitsOf mag) : 2 ^ k ∣ unitsOf mag := by
  have he : 52 + k < 52 + mag / 2 ^ 52 := (Nat.pow_lt_pow_iff_right (by decide)).1 (h.trans_lt (unitsOf_lt mag))
  rw [unitsOf, if_neg (by omega)]
  exact Dvd.dvd.mul_left (pow_dvd_pow 2 (by omega)) _

/-! Rounding picks one of two neighbours. -/

/-- Whether a quotient is rounded up depends on its last bit only. -/
theorem roundsUp_congr {m : Rounding} {p q : Nat} (h : p % 2 = q % 2) (r d : Nat) :
    roundsUp m p r d = roundsUp m q r d := by
  cases m <;> simp only [roundsUp, h]

/-- Rounding a quotient: the magnitude below it, or the next one, as the direction and the rest say. -/
theorem roundMag_grid (m : Rounding) (num : Nat) {den : Nat} (hd : 0 < den) :
    ∃ lo r, num = unitsOf lo * den + r ∧ r < gap lo * den ∧
      roundMag m num den = min (if roundsUp m lo r (gap lo * den) then lo + 1 else lo) infBits := by
  have hq := significand_lt num den
  have hs : spareBits (num / den) = 0 ∨ 2 ^ 52 ≤ num / (den * 2 ^ spareBits (num / den)) :=
    or_iff_not_imp_left.2 le_significand
  have hround := roundMag_eq m num den
  rw [roundQuot] at hround
  generalize spareBits (num / den) = s at hq hs hround
  have hr : num % (den * 2 ^ s) < den * 2 ^ s := Nat.mod_lt _ (by positivity)
  have hnum := Nat.div_add_mod num (den * 2 ^ s)
  generalize num / (den * 2 ^ s) = q at hq hs hround hnum
  generalize num % (den * 2 ^ s) = r at hr hround hnum
  refine ⟨s * 2 ^ 52 + q, r, ?_, ?_, ?_⟩
  · rw [unitsOf_shifted hq.le hs, ← hnum]
    ring
  · rwa [gap_shifted hq hs, Nat.mul_comm]
  · rw [hround, gap_shifted hq hs, Nat.mul_comm (2 ^ s), roundsUp_congr (p := s * 2 ^ 52 + q) (q := q) (by omega)]
    split
    · rw [Nat.add_assoc]
    · rfl

/-- A magnitude is not changed by rounding. -/
theorem roundMag_unitsOf (m : Rounding) {k den : Nat} (hd : 0 < den) (hk : k ≤ infBits) :
    roundMag m (unitsOf k * den) den = k := by
  obtain ⟨lo, r, hnum, hr, hround⟩ := roundMag_grid m (unitsOf k * den) hd
  have hlo : unitsOf lo ≤ unitsOf k := Nat.le_of_mul_le_mul_right (by omega) hd
  have hhi : unitsOf k < unitsOf (lo + 1) := by
    refine Nat.lt_of_mul_lt_mul_right (a := den) ?_
    rw [unitsOf_succ, Nat.add_mul]
    omega
  obtain rfl : lo = k := Nat.le_antisymm (unitsOf_strictMono.le_iff_le.1 hlo)
    (Nat.lt_succ_iff.1 (unitsOf_strictMono.lt_iff_lt.1 hhi))
  obtain rfl : r = 0 := by omega
  have hstay : roundsUp m lo 0 (gap lo * den) = false := by
    have := (Nat.mul_pos (gap_pos lo) hd).ne
    cases m <;> simp [roundsUp, this]
  rw [hround, hstay, if_neg Bool.false_ne_true, min_eq_left hk]

/-- The quotient in units, as the grid of `roundMag_grid` gives it. -/
theorem quot_eq {num den u r : Nat} (hd : 0 < den) (h : num = u * den + r) : (num : ℝ) / den = u + (r : ℝ) / den := by
  have hd : (den : ℝ) ≠ 0 := by exact_mod_cast hd.ne'
  rw [h]
  push_cast
  field_simp

/-- Rounding down: the greatest magnitude at most the quotient. -/
theorem roundMag_down {num den k : Nat} (hd : 0 < den) (hk : roundMag .down num den = k) (hfin : k < infBits) :
    (unitsOf k : ℝ) ≤ num / den ∧ (num : ℝ) / den < unitsOf (k + 1) := by
  obtain ⟨lo, r, hnum, hr, hround⟩ := roundMag_grid .down num hd
  obtain rfl : lo = k := by
    have : min lo infBits = k := hround.symm.trans hk
    omega
  have hd' : (0 : ℝ) < den := by exact_mod_cast hd
  have hr' : (r : ℝ) < gap lo * den := by exact_mod_cast hr
  rw [quot_eq hd hnum, unitsOf_succ, Nat.cast_add]
  exact ⟨le_add_of_nonneg_right (by positivity), add_lt_add_right ((div_lt_iff₀ hd').2 hr') _⟩

/-- Rounding up: the least magnitude at least the quotient. -/
theorem roundMag_up {num den k : Nat} (hd : 0 < den) (hk : roundMag .up num den = k) (hfin : k < infBits) :
    (num : ℝ) / den ≤ unitsOf k ∧ ∀ j, (num : ℝ) / den ≤ unitsOf j → k ≤ j := by
  obtain ⟨lo, r, hnum, hr, hround⟩ := roundMag_grid .up num hd
  have hd' : (0 : ℝ) < den := by exact_mod_cast hd
  have hr' : (r : ℝ) < gap lo * den := by exact_mod_cast hr
  rw [quot_eq hd hnum]
  rcases Nat.eq_zero_or_pos r with rfl | hpos
  · obtain rfl : lo = k := by
      have : min lo infBits = k := hround.symm.trans hk
      omega
    simp only [Nat.cast_zero, zero_div, add_zero, Nat.cast_le]
    exact ⟨le_rfl, fun j => unitsOf_strictMono.le_iff_le.1⟩
  · obtain rfl : lo + 1 = k := by
      rw [roundsUp, if_pos (decide_eq_true hpos)] at hround
      omega
    have hrest : (0 : ℝ) < r / den := div_pos (by exact_mod_cast hpos) hd'
    rw [unitsOf_succ, Nat.cast_add]
    refine ⟨add_le_add_right ((div_le_iff₀ hd').2 hr'.le) _, fun j hj => unitsOf_strictMono.lt_iff_lt.1 ?_⟩
    have : (unitsOf lo : ℝ) < unitsOf j := by linarith
    exact_mod_cast this

/-- Rounding to nearest: the magnitude just below the quotient or the one just above it, at most half a gap away and with an
even last bit where it is exactly half a gap. -/
theorem roundMag_nearest_cases {num den k : Nat} (hd : 0 < den) (hk : roundMag .nearest num den = k) (hfin : k < infBits) :
    let t := (num : ℝ) / den
    (0 ≤ t - unitsOf k ∧ 2 * (t - unitsOf k) ≤ gap k ∧ (2 * (t - unitsOf k) = gap k → k % 2 = 0)) ∨
    ∃ lo, k = lo + 1 ∧ 0 ≤ unitsOf k - t ∧ 2 * (unitsOf k - t) ≤ gap lo ∧ (2 * (unitsOf k - t) = gap lo → k % 2 = 0) := by
  obtain ⟨lo, r, hnum, hr, hround⟩ := roundMag_grid .nearest num hd
  have hd' : (0 : ℝ) < den := by exact_mod_cast hd
  have hr' : (r : ℝ) / den < gap lo := (div_lt_iff₀ hd').2 (by exact_mod_cast hr)
  have hr0 : (0 : ℝ) ≤ r / den := by positivity
  have hle : 2 * ((r : ℝ) / den) ≤ gap lo ↔ 2 * r ≤ gap lo * den := by
    rw [← mul_div_assoc, div_le_iff₀ hd']
    exact_mod_cast Iff.rfl
  have hge : (gap lo : ℝ) ≤ 2 * (r / den) ↔ gap lo * den ≤ 2 * r := by
    rw [← mul_div_assoc, le_div_iff₀ hd']
    exact_mod_cast Iff.rfl
  simp only [quot_eq hd hnum]
  rw [hk] at hround
  by_cases hup : roundsUp .nearest lo r (gap lo * den) = true
  · rw [if_pos hup] at hround
    obtain rfl : k = lo + 1 := by omega
    simp only [roundsUp, Bool.or_eq_true, Bool.and_eq_true, decide_eq_true_eq, beq_iff_eq] at hup
    have hhalf := hge.2 (by omega)
    refine .inr ⟨lo, rfl, ?_, ?_, fun htie => ?_⟩ <;> rw [unitsOf_succ, Nat.cast_add] at *
    · linarith
    · linarith
    · have := hle.1 (by linarith)
      omega
  · rw [if_neg hup] at hround
    obtain rfl : k = lo := by omega
    simp only [roundsUp, Bool.or_eq_true, Bool.and_eq_true, decide_eq_true_eq, beq_iff_eq] at hup
    have hhalf := hle.2 (by omega)
    refine .inl ⟨?_, ?_, fun htie => ?_⟩
    · linarith
    · linarith
    · have := hge.1 (by linarith)
      omega

/-- Rounding to nearest errs by half a gap at most. -/
theorem abs_roundMag_nearest_sub_le {num den k : Nat} (hd : 0 < den) (hk : roundMag .nearest num den = k)
    (hfin : k < infBits) : |(unitsOf k : ℝ) - num / den| ≤ gap k / 2 := by
  rcases roundMag_nearest_cases hd hk hfin with ⟨h0, hhalf, -⟩ | ⟨lo, rfl, h0, hhalf, -⟩
  · rw [abs_sub_comm, abs_of_nonneg h0]
    linarith
  · have hmono : (gap lo : ℝ) ≤ gap (lo + 1) := by exact_mod_cast gap_mono (Nat.le_succ lo)
    rw [abs_of_nonneg h0]
    linarith

/-- Rounding to nearest: no magnitude is nearer, and where another one is as near the last bit is 0. -/
theorem roundMag_nearest {num den k : Nat} (hd : 0 < den) (hk : roundMag .nearest num den = k) (hfin : k < infBits)
    (j : Nat) : |(unitsOf k : ℝ) - num / den| ≤ |(unitsOf j : ℝ) - num / den| ∧
      (|(unitsOf k : ℝ) - num / den| = |(unitsOf j : ℝ) - num / den| → j = k ∨ k % 2 = 0) := by
  have hmono {a b : Nat} (h : a ≤ b) : (unitsOf a : ℝ) ≤ unitsOf b := by exact_mod_cast unitsOf_strictMono.monotone h
  have hsucc (a : Nat) : (unitsOf (a + 1) : ℝ) = unitsOf a + gap a := by rw [unitsOf_succ, Nat.cast_add]
  have hgap (a : Nat) : (0 : ℝ) < gap a := by exact_mod_cast gap_pos a
  rcases eq_or_ne j k with rfl | hne
  · exact ⟨le_rfl, fun _ => .inl rfl⟩
  rcases roundMag_nearest_cases hd hk hfin with ⟨h0, hhalf, htie⟩ | ⟨lo, rfl, h0, hhalf, htie⟩
  · rw [abs_sub_comm, abs_of_nonneg h0]
    rcases Nat.lt_or_gt_of_ne hne with hj | hj
    · have h1 := hmono hj
      have h2 := hgap j
      rw [hsucc] at h1
      have h3 := neg_le_abs ((unitsOf j : ℝ) - num / den)
      exact ⟨by linarith, fun h => absurd h (by linarith)⟩
    · have h1 := hmono hj
      rw [hsucc] at h1
      have h3 := le_abs_self ((unitsOf j : ℝ) - num / den)
      exact ⟨by linarith, fun h => .inr (htie (by linarith))⟩
  · rw [abs_of_nonneg h0]
    rcases Nat.lt_or_gt_of_ne hne with hj | hj
    · have h1 := hmono (Nat.lt_succ_iff.1 hj)
      have h2 := hsucc lo
      have h3 := neg_le_abs ((unitsOf j : ℝ) - num / den)
      exact ⟨by linarith, fun h => .inr (htie (by linarith))⟩
    · have h1 := hmono hj
      have h2 := hgap (lo + 1)
      rw [hsucc] at h1
      have h3 := le_abs_self ((unitsOf j : ℝ) - num / den)
      exact ⟨by linarith, fun h => absurd h (by linarith)⟩

end Sys2Proof.Machine.B64
end

section
/-! SUPPORT. The operations of `B64` on finite values as rounded real numbers (40_numerics.md R102, R104): each is the nearest
value to the exact result, and within half a unit in the last place of it. -/

namespace Sys2Proof.Machine.B64

/-! Finite values as real numbers. -/

/-- A number negated where the sign bit says so. -/
noncomputable def signed (s : Bool) (x : ℝ) : ℝ := if s then -x else x

theorem abs_signed_sub_signed (s : Bool) (x y : ℝ) : |signed s x - signed s y| = |x - y| := by
  cases s
  · rfl
  · simp only [signed, if_true, neg_sub_neg, abs_sub_comm y x]

/-- Of two numbers that are not negative, given different signs, the distance is their sum. -/
theorem abs_signed_sub_signed_of_ne {r s : Bool} (h : r ≠ s) {x y : ℝ} (hx : 0 ≤ x) (hy : 0 ≤ y) :
    |signed r x - signed s y| = x + y := by
  cases r <;> cases s <;> simp only [signed, Bool.false_eq_true, if_true, if_false, ne_eq, not_true_eq_false] at h ⊢
  · rw [sub_neg_eq_add, abs_of_nonneg (by linarith)]
  · rw [abs_of_nonpos (by linarith)]
    ring

theorem value_cast (x : F64) : (value x : ℝ) = signed (sign x) (unitsOf (magBits x)) := by
  rw [value, signed, units_eq]
  split <;> simp

theorem value_mk {s : Bool} {k : Nat} (h : k ≤ infBits) : (value (mk s k) : ℝ) = signed s (unitsOf k) := by
  have hk : k < 2 ^ 63 := h.trans_lt (by decide)
  rw [value_cast, sign_mk hk, magBits_mk hk]

theorem toReal_lt_toReal_iff {x y : F64} : toReal x < toReal y ↔ key x < key y := by
  rw [toReal, toReal, div_lt_div_iff_of_pos_right (by positivity), Int.cast_lt, value_lt_value_iff]

theorem toReal_le_toReal_iff {x y : F64} : toReal x ≤ toReal y ↔ key x ≤ key y := by
  rw [← not_lt, toReal_lt_toReal_iff, not_lt]

/-- `flt` is the less-than of the values (R100). -/
theorem flt_iff_toReal_lt {x y : F64} (hx : isFinite x = true) (hy : isFinite y = true) :
    flt x y = true ↔ toReal x < toReal y := by
  rw [flt_iff (not_isNaN_of_finite hx) (not_isNaN_of_finite hy), toReal_lt_toReal_iff]

/-! Correct rounding. -/

theorem isFinite_mk_roundMag_iff {s : Bool} {m : Rounding} {num den : Nat} :
    isFinite (mk s (roundMag m num den)) = true ↔ roundMag m num den < infBits := by
  rw [isFinite, magBits_mk_roundMag, decide_eq_true_iff]

theorem getLsbD_zero_mk {s : Bool} {k : Nat} (h : k % 2 = 0) : (mk s k).getLsbD 0 = false := by
  have hodd : (k + if s then 2 ^ 63 else 0) % 2 = 0 := by split <;> omega
  simp only [mk, BitVec.getLsbD_ofNat, Nat.testBit_zero, hodd]
  rfl

/-- `r` is the real number `x` rounded to nearest, be it finite or not. -/
def Rounded (r : F64) (x : ℝ) : Prop :=
  ∃ s num den, 0 < den ∧ r = mk s (roundMag .nearest num den) ∧ x = signed s ((num : ℝ) / den) / 2 ^ 1074

/-- A finite rounded number is correctly rounded (R104): values of its own sign are magnitudes, and those of the other
sign are no nearer than 0. -/
theorem Rounded.nearestTo {r : F64} {x : ℝ} (h : Rounded r x) (hfin : isFinite r = true) : nearestTo r x := by
  obtain ⟨s, num, den, hd, rfl, rfl⟩ := h
  have hk := isFinite_mk_roundMag_iff.1 hfin
  have hnear := roundMag_nearest hd rfl hk
  generalize roundMag .nearest num den = k at hk hnear ⊢
  intro y _
  have hpos : (0 : ℝ) < 2 ^ 1074 := by positivity
  have hquot : (0 : ℝ) ≤ num / den := by positivity
  simp only [toReal, ← sub_div, abs_div, div_le_div_iff_of_pos_right (abs_pos.2 hpos.ne'),
    div_left_inj' (abs_pos.2 hpos.ne').ne', div_left_inj' hpos.ne', value_mk hk.le, value_cast y, abs_signed_sub_signed]
  by_cases hs : sign y = s
  · rw [hs, abs_signed_sub_signed]
    refine ⟨(hnear _).1, fun heq => ?_⟩
    rcases (hnear _).2 heq with hj | heven
    · exact .inl (by rw [hj])
    · exact .inr (getLsbD_zero_mk heven)
  · have hy : (0 : ℝ) ≤ unitsOf (magBits y) := Nat.cast_nonneg _
    have hzero := hnear 0
    rw [unitsOf_zero, Nat.cast_zero, zero_sub, abs_neg, abs_of_nonneg hquot] at hzero
    rw [abs_signed_sub_signed_of_ne hs hy hquot]
    refine ⟨by linarith [hzero.1], fun heq => ?_⟩
    have hy0 : (unitsOf (magBits y) : ℝ) = 0 := by linarith [hzero.1]
    rcases hzero.2 (by linarith) with rfl | heven
    · left
      rw [hy0, unitsOf_zero, Nat.cast_zero]
      simp only [signed, neg_zero, ite_self]
    · exact .inr (getLsbD_zero_mk heven)

/-- A finite rounded number is within half a unit in the last place (N8). -/
theorem Rounded.abs_sub_le {r : F64} {x : ℝ} (h : Rounded r x) (hfin : isFinite r = true) :
    |toReal r - x| ≤ ulp r / 2 := by
  obtain ⟨s, num, den, hd, rfl, rfl⟩ := h
  have hk := isFinite_mk_roundMag_iff.1 hfin
  have herr := abs_roundMag_nearest_sub_le hd rfl hk
  rw [ulp_eq, magBits_mk_roundMag, toReal, value_mk hk.le, ← sub_div, abs_div, abs_signed_sub_signed, div_right_comm,
    abs_of_pos (a := (2 : ℝ) ^ 1074) (by positivity)]
  exact div_le_div_of_nonneg_right herr (by positivity)

/-! The four operations. -/

/-- A sum of finite values in units, as `addFinite` rounds it. -/
theorem rounded_units (zero : Bool) (v : Int) :
    Rounded (if v = 0 then mk zero 0 else mk (decide (v < 0)) (roundMag .nearest v.natAbs 1)) ((v : ℝ) / 2 ^ 1074) := by
  split
  · next hv => exact ⟨zero, 0, 1, one_pos, by rw [roundMag_zero], by simp [hv, signed]⟩
  · refine ⟨decide (v < 0), v.natAbs, 1, one_pos, rfl, ?_⟩
    rw [Nat.cast_one, div_one, Nat.cast_natAbs, Int.cast_abs]
    rcases lt_or_ge v 0 with hv | hv
    · have hv' : (v : ℝ) < 0 := by exact_mod_cast hv
      rw [decide_eq_true hv, signed, if_pos rfl, abs_of_neg hv', neg_neg]
    · have hv' : (0 : ℝ) ≤ v := by exact_mod_cast hv
      rw [decide_eq_false hv.not_gt, signed, if_neg Bool.false_ne_true, abs_of_nonneg hv']

theorem fadd_of_isFinite {a b : F64} (ha : isFinite a = true) (hb : isFinite b = true) :
    fadd a b = if value a + value b = 0 then mk (sign a && sign b) 0
      else mk (decide (value a + value b < 0)) (roundMag .nearest (value a + value b).natAbs 1) := by
  simp only [fadd, sum, not_isNaN_of_finite ha, not_isNaN_of_finite hb, not_isInf_of_finite ha, not_isInf_of_finite hb,
    Bool.or_false, Bool.false_eq_true, if_false, addFinite]

theorem fdiv_of_isFinite {a b : F64} (ha : isFinite a = true) (hb : isFinite b = true) (h0 : magBits b ≠ 0) :
    fdiv a b = mk (sign a != sign b) (roundMag .nearest (units a * 2 ^ 1074) (units b)) := by
  simp only [fdiv, not_isNaN_of_finite ha, not_isNaN_of_finite hb, not_isInf_of_finite ha, not_isInf_of_finite hb,
    Bool.or_false, Bool.false_eq_true, if_false, h0]

theorem toReal_eq (x : F64) : toReal x = signed (sign x) (units x) / 2 ^ 1074 := by
  rw [toReal, value_cast, units_eq]

theorem fadd_rounded {a b : F64} (ha : isFinite a = true) (hb : isFinite b = true) :
    Rounded (fadd a b) (toReal a + toReal b) := by
  rw [fadd_of_isFinite ha hb, toReal, toReal, ← add_div, ← Int.cast_add]
  exact rounded_units _ _

theorem fsub_rounded {a b : F64} (ha : isFinite a = true) (hb : isFinite b = true) :
    Rounded (fsub a b) (toReal a - toReal b) := by
  rw [fsub_of_isFinite ha hb, toReal, toReal, ← sub_div, ← Int.cast_sub]
  exact rounded_units _ _

theorem signed_mul_signed (r s : Bool) (x y : ℝ) : signed r x * signed s y = signed (r != s) (x * y) := by
  cases r <;> cases s <;> simp [signed]

theorem signed_div_signed (r s : Bool) (x y : ℝ) : signed r x / signed s y = signed (r != s) (x / y) := by
  cases r <;> cases s <;> simp [signed, neg_div, div_neg]

theorem signed_div (s : Bool) (x y : ℝ) : signed s (x / y) = signed s x / y := by
  cases s <;> simp [signed, neg_div]

theorem fmul_rounded {a b : F64} (ha : isFinite a = true) (hb : isFinite b = true) :
    Rounded (fmul a b) (toReal a * toReal b) := by
  refine ⟨_, _, _, ?_, fmul_of_isFinite ha hb, ?_⟩
  · positivity
  rw [toReal_eq, toReal_eq, div_mul_div_comm, signed_mul_signed, signed_div, Nat.cast_mul, Nat.cast_pow, Nat.cast_ofNat,
    div_div]

theorem magBits_pos_of_toReal_ne_zero {x : F64} (h : toReal x ≠ 0) : 0 < magBits x := by
  refine Nat.pos_of_ne_zero fun h0 => h ?_
  rw [toReal, value_cast, h0, unitsOf_zero]
  simp [signed]

theorem fdiv_rounded {a b : F64} (ha : isFinite a = true) (hb : isFinite b = true) (h0 : toReal b ≠ 0) :
    Rounded (fdiv a b) (toReal a / toReal b) := by
  have hmag := magBits_pos_of_toReal_ne_zero h0
  refine ⟨_, _, _, units_pos_iff.2 hmag, fdiv_of_isFinite ha hb hmag.ne', ?_⟩
  have hpos : (2 : ℝ) ^ 1074 ≠ 0 := by positivity
  rw [toReal_eq, toReal_eq, div_div_div_cancel_right₀ hpos, signed_div_signed, Nat.cast_mul, Nat.cast_pow, Nat.cast_ofNat,
    ← signed_div, mul_div_right_comm, mul_div_cancel_right₀ _ hpos]

/-! `of_int`. -/

/-- A number below 2^53 is a significand that needs no rounding (R102). -/
theorem exists_unitsOf_eq {k : Nat} (h : k < 2 ^ 53) : ∃ j, j < infBits ∧ unitsOf j = k * 2 ^ 1074 := by
  rcases Nat.eq_zero_or_pos k with rfl | hk
  · exact ⟨0, by decide, by rw [Nat.zero_mul, unitsOf_zero]⟩
  have hlow := Nat.log2_self_le hk.ne'
  have hhigh := Nat.lt_log2_self (n := k)
  have hlog : Nat.log2 k < 53 := (Nat.log2_lt hk.ne').2 h
  generalize Nat.log2 k = e at hlow hhigh hlog
  have hmin : 2 ^ 52 ≤ k * 2 ^ (52 - e) := by
    calc 2 ^ 52 = 2 ^ e * 2 ^ (52 - e) := by rw [← pow_add]; congr 1; omega
      _ ≤ k * 2 ^ (52 - e) := Nat.mul_le_mul_right _ hlow
  have hmax : k * 2 ^ (52 - e) < 2 ^ 53 := by
    calc k * 2 ^ (52 - e) < 2 ^ (e + 1) * 2 ^ (52 - e) := Nat.mul_lt_mul_of_pos_right hhigh (by positivity)
      _ = 2 ^ 53 := by rw [← pow_add]; congr 1; omega
  refine ⟨(1022 + e) * 2 ^ 52 + k * 2 ^ (52 - e), by unfold infBits; omega, ?_⟩
  rw [unitsOf_shifted hmax.le (.inr hmin), Nat.mul_assoc, ← pow_add]
  congr 2
  omega

theorem ofInt_exact {k : Nat} (h : k < 2 ^ 53) : isFinite (ofInt k) = true ∧ toReal (ofInt k) = k := by
  obtain ⟨j, hj, hunits⟩ := exists_unitsOf_eq h
  have hmag : ofInt k = mk false j := by
    rw [ofInt, ← hunits, ← Nat.mul_one (unitsOf j), roundMag_unitsOf .nearest one_pos hj.le]
  rw [hmag, toReal, value_mk hj.le, hunits]
  refine ⟨isFinite_mk hj, ?_⟩
  rw [signed, if_neg Bool.false_ne_true, Nat.cast_mul, Nat.cast_pow, Nat.cast_ofNat,
    mul_div_cancel_right₀ _ (by positivity : (2 : ℝ) ^ 1074 ≠ 0)]

theorem ofInt_strictMono {j k : Nat} (hk : k < 2 ^ 53) (hjk : j < k) : flt (ofInt j) (ofInt k) = true := by
  obtain ⟨hjf, hjr⟩ := ofInt_exact (hjk.trans hk)
  obtain ⟨hkf, hkr⟩ := ofInt_exact hk
  rw [flt_iff_toReal_lt hjf hkf, hjr, hkr]
  exact_mod_cast hjk

end Sys2Proof.Machine.B64

open Sys2Proof Sys2Proof.Machine

/-- Settles O56: each operation rounds its exact result to the grid of magnitudes, and keeps its sign. -/
theorem b64CorrectlyRounded : Obligations.B64CorrectlyRounded := fun _ _ ha hb =>
  ⟨(B64.fadd_rounded ha hb).nearestTo, (B64.fsub_rounded ha hb).nearestTo, (B64.fmul_rounded ha hb).nearestTo,
    fun h0 => (B64.fdiv_rounded ha hb h0).nearestTo⟩

/-- Settles O57: a number below 2^53 has a significand of at most 53 bits, so `of_int` does not round it; what is exact is
injective and monotone. -/
theorem ofIntExact : Obligations.OfIntExact := by
  refine ⟨fun k => B64.ofInt_exact, fun j k hk => ⟨fun heq hj => ?_, B64.ofInt_strictMono (hk.trans_lt (by decide))⟩⟩
  have hreal : (j : ℝ) = k := by
    rw [← (B64.ofInt_exact (hj.trans_lt (by decide))).2, heq, (B64.ofInt_exact (hk.trans_lt (by decide))).2]
  exact_mod_cast hreal

/-- Settles O19: fixed values, converted and multiplied. -/
theorem constantEncodings : Obligations.ConstantEncodings := by
  unfold Obligations.ConstantEncodings
  decide +kernel

end

section
/-! SUPPORT. `B64` among the instantiations of `NUM` (40_numerics.md R106, N1 to N7): its comparisons by the ordered number
`key`, and its differences and quotients as monotone functions of exact ones. -/

namespace Sys2Proof.Machine.B64

/-! Values by sign and magnitude. -/

theorem eq_of_sign_of_magBits {x y : F64} (hs : sign x = sign y) (hm : magBits x = magBits y) : x = y := by
  refine BitVec.eq_of_toNat_eq ?_
  simp only [sign, magBits, BitVec.msb_eq_decide, decide_eq_decide] at hs hm
  omega

theorem key_mk {s : Bool} {k : Nat} (h : k < 2 ^ 63) : key (mk s k) = if s then -(k : Int) else k := by
  rw [key, sign_mk h, magBits_mk h]

theorem magBits_eq_zero_of_key {x : F64} (h : key x = 0) : magBits x = 0 := by
  unfold key at h
  split at h <;> omega

theorem value_eq_zero_iff {x : F64} : value x = 0 ↔ key x = 0 := by
  have hpos : 0 < units x ↔ 0 < magBits x := units_pos_iff
  unfold value key
  split <;> omega

/-- Values that are equal as numbers are the same, or the two zeros. -/
theorem eq_or_key_eq_zero {x y : F64} (h : key x = key y) : x = y ∨ key x = 0 := by
  have hmag : magBits x = magBits y := by
    unfold key at h
    split at h <;> split at h <;> omega
  refine or_iff_not_imp_right.2 fun h0 => eq_of_sign_of_magBits (by_contra fun hs => h0 ?_) hmag
  unfold key at h ⊢
  generalize sign x = r, sign y = s at h hs ⊢
  cases r <;> cases s <;> simp only [Bool.false_eq_true, if_true, if_false, not_true_eq_false] at h hs ⊢ <;> omega

theorem feq_zero_iff {x : F64} (h : isNaN x = false) : feq x (ofInt 0) = true ↔ key x = 0 := by
  rw [feq_iff h (not_isNaN_of_finite (ofInt_below (by decide)).1), key_ofInt_zero]

theorem zero_flt_iff {x : F64} (h : isNaN x = false) : flt (ofInt 0) x = true ↔ 0 < key x := by
  rw [flt_iff (not_isNaN_of_finite (ofInt_below (by decide)).1) h, key_ofInt_zero]

theorem flt_eq_false_iff {x y : F64} (hx : isNaN x = false) (hy : isNaN y = false) :
    flt x y = false ↔ key y ≤ key x := by
  rw [Bool.eq_false_iff, ne_eq, flt_iff hx hy, not_lt]

theorem isNaN_mk_roundMag (s : Bool) (m : Rounding) (num den : Nat) : isNaN (mk s (roundMag m num den)) = false := by
  rw [isNaN, magBits_mk_roundMag, decide_eq_false_iff_not]
  exact (roundMag_le_infBits m num den).not_gt

/-! Differences and quotients. -/

/-- The ordered number of `v * p / d` units rounded to nearest. -/
def roundKey (v : Int) (p d : Nat) : Int :=
  if v < 0 then -(roundMag .nearest (v.natAbs * p) d : Int) else roundMag .nearest (v.natAbs * p) d

/-- Rounding keeps the order of numbers of either sign (R104). -/
theorem roundKey_mono {d : Nat} (hd : 0 < d) (p : Nat) : Monotone fun v => roundKey v p d := by
  intro v w hvw
  have hmag {x y : Nat} (h : x ≤ y) : roundMag .nearest (x * p) d ≤ roundMag .nearest (y * p) d :=
    roundMag_mono hd hd (Nat.mul_le_mul_right _ (Nat.mul_le_mul_right _ h))
  simp only [roundKey]
  split <;> split
  · have := hmag (x := w.natAbs) (y := v.natAbs) (by omega)
    omega
  · omega
  · omega
  · have := hmag (x := v.natAbs) (y := w.natAbs) (by omega)
    omega

theorem roundKey_zero (p d : Nat) : roundKey 0 p d = 0 := by
  rw [roundKey, if_neg (lt_irrefl _), Int.natAbs_zero, Nat.zero_mul, roundMag_zero, Nat.cast_zero]

/-- No whole number of units but 0 is rounded to 0. -/
theorem roundKey_one_eq_zero_iff {v : Int} : roundKey v 1 1 = 0 ↔ v = 0 := by
  refine ⟨fun h => ?_, fun h => h ▸ roundKey_zero 1 1⟩
  by_contra hv
  have hone : 1 ≤ roundMag .nearest (v.natAbs * 1) 1 :=
    (show 1 ≤ roundMag .nearest 1 1 by decide).trans (roundMag_mono one_pos one_pos (by omega))
  unfold roundKey at h
  split at h <;> omega

theorem fsub_key {a b : F64} (ha : isFinite a = true) (hb : isFinite b = true) :
    isNaN (fsub a b) = false ∧ key (fsub a b) = roundKey (value a - value b) 1 1 := by
  rw [fsub_of_isFinite ha hb]
  split
  · next h =>
    rw [h, roundKey_zero]
    generalize (sign a && sign (neg b)) = s
    revert s
    decide
  · rw [key_mk ((roundMag_le_infBits _ _ _).trans_lt (by decide)), roundKey, Nat.mul_one]
    exact ⟨isNaN_mk_roundMag _ _ _ _, by simp only [decide_eq_true_eq]⟩

theorem sign_of_key_pos {x : F64} (h : 0 < key x) : sign x = false := by
  unfold key at h
  split at h
  · omega
  · next hs => exact Bool.eq_false_of_not_eq_true hs

/-- A quotient by a positive value has the sign of the dividend. -/
theorem fdiv_of_pos {a d : F64} (ha : isFinite a = true) (hd : isFinite d = true) (h : 0 < key d) :
    fdiv a d = mk (sign a) (roundMag .nearest (units a * 2 ^ 1074) (units d)) := by
  rw [fdiv_of_isFinite ha hd (units_pos_iff.1 (units_pos_of_key_pos h)).ne', sign_of_key_pos h, Bool.bne_false]

theorem fdiv_key {a d : F64} (ha : isFinite a = true) (hd : isFinite d = true) (h : 0 < key d) :
    isNaN (fdiv a d) = false ∧ key (fdiv a d) = roundKey (value a) (2 ^ 1074) (units d) := by
  rw [fdiv_of_pos ha hd h, key_mk ((roundMag_le_infBits _ _ _).trans_lt (by decide)), roundKey, natAbs_value]
  refine ⟨isNaN_mk_roundMag _ _ _ _, ?_⟩
  rcases Nat.eq_zero_or_pos (units a) with h0 | hpos
  · rw [h0, Nat.zero_mul, roundMag_zero]
    simp only [Nat.cast_zero, neg_zero, ite_self]
  · have hsign : sign a = true ↔ value a < 0 := by
      unfold value
      cases sign a <;> simp only [Bool.false_eq_true, if_true, if_false, true_iff, false_iff] <;> omega
    simp only [hsign]

/-- Equal quotients round alike. -/
theorem roundMag_congr {m : Rounding} {n₁ d₁ n₂ d₂ : Nat} (hd₁ : 0 < d₁) (hd₂ : 0 < d₂) (h : n₁ * d₂ = n₂ * d₁) :
    roundMag m n₁ d₁ = roundMag m n₂ d₂ :=
  le_antisymm (roundMag_mono hd₁ hd₂ h.le) (roundMag_mono hd₂ hd₁ h.ge)

/-- A positive value divided by itself is 1 exactly: the two quotients are the same number (N4). -/
theorem fdiv_self {d : F64} (hd : isFinite d = true) (h : 0 < key d) : fdiv d d = ofInt 1 := by
  have hround : roundMag .nearest (units d * 2 ^ 1074) (units d) = roundMag .nearest (1 * 2 ^ 1074) 1 :=
    roundMag_congr (units_pos_of_key_pos h) one_pos (by rw [Nat.mul_one, Nat.one_mul, Nat.mul_comm])
  rw [fdiv_of_pos hd hd h, sign_of_key_pos h, ofInt, hround]

/-- Multiplying by 1 rounds a magnitude to itself (N7). -/
theorem one_fmul {x : F64} (hx : isFinite x = true) : fmul (ofRat 1) x = x := by
  obtain ⟨hfin, hsign, hunits⟩ : isFinite (ofRat 1) = true ∧ sign (ofRat 1) = false ∧ units (ofRat 1) = 2 ^ 1074 := by
    decide +kernel
  have hmag : magBits x < infBits := of_decide_eq_true hx
  have hround : roundMag .nearest (units x * 2 ^ 1074) (2 ^ 1074) = magBits x :=
    roundMag_unitsOf .nearest (by positivity) hmag.le
  rw [fmul_of_isFinite hfin hx, hsign, hunits, Nat.mul_comm, hround, Bool.false_bne]
  exact eq_of_sign_of_magBits (sign_mk (hmag.trans (by decide))) (magBits_mk (hmag.trans (by decide)))

/-- `B64` has N1 to N7: its comparisons are those of `key`, and every operation is monotone in the exact result. -/
theorem lawful : NumLawful b64 where
  lt_irrefl a ha := (flt_eq_false_iff (not_isNaN_of_finite ha) (not_isNaN_of_finite ha)).2 le_rfl
  lt_trans a b c ha hb hc hab hbc := (flt_iff (not_isNaN_of_finite ha) (not_isNaN_of_finite hc)).2
    (((flt_iff (not_isNaN_of_finite ha) (not_isNaN_of_finite hb)).1 hab).trans
      ((flt_iff (not_isNaN_of_finite hb) (not_isNaN_of_finite hc)).1 hbc))
  lt_total a b ha hb hne := by
    have ha := not_isNaN_of_finite ha
    have hb := not_isNaN_of_finite hb
    rcases lt_trichotomy (key a) (key b) with h | h | h
    · exact .inl ((flt_iff ha hb).2 h)
    · have h0 := (eq_or_key_eq_zero h).resolve_left hne
      exact .inr (.inr ⟨(feq_zero_iff ha).2 h0, (feq_zero_iff hb).2 (h ▸ h0)⟩)
    · exact .inr (.inl ((flt_iff hb ha).2 h))
  zeros_two a b c ha hb hc h0a h0b h0c := by
    have ha := magBits_eq_zero_of_key ((feq_zero_iff (not_isNaN_of_finite ha)).1 h0a)
    have hb := magBits_eq_zero_of_key ((feq_zero_iff (not_isNaN_of_finite hb)).1 h0b)
    have hc := magBits_eq_zero_of_key ((feq_zero_iff (not_isNaN_of_finite hc)).1 h0c)
    have hsigns : sign a = sign b ∨ sign a = sign c ∨ sign b = sign c := by
      cases sign a <;> cases sign b <;> cases sign c <;> decide
    exact hsigns.imp (eq_of_sign_of_magBits · (ha.trans hb.symm))
      (.imp (eq_of_sign_of_magBits · (ha.trans hc.symm)) (eq_of_sign_of_magBits · (hb.trans hc.symm)))
  eq_iff a b ha hb := by
    have ha := not_isNaN_of_finite ha
    have hb := not_isNaN_of_finite hb
    change feq a b = true ↔ flt a b = false ∧ flt b a = false
    rw [feq_iff ha hb, flt_eq_false_iff ha hb, flt_eq_false_iff hb ha, eq_comm, le_antisymm_iff]
  not_lt_trans a b c ha hb hc hba hcb := (flt_eq_false_iff (not_isNaN_of_finite hc) (not_isNaN_of_finite ha)).2
    (((flt_eq_false_iff (not_isNaN_of_finite hb) (not_isNaN_of_finite ha)).1 hba).trans
      ((flt_eq_false_iff (not_isNaN_of_finite hc) (not_isNaN_of_finite hb)).1 hcb))
  int_finite k hk := by
    simp only [b64]
    exact (ofInt_below hk).1
  int_strictMono j k hk hjk := by
    simp only [b64]
    exact ofInt_strictMono (hk.trans_lt (by decide)) hjk
  sub_self a ha := by
    obtain ⟨hnan, hkey⟩ := fsub_key ha ha
    exact (feq_zero_iff hnan).2 (hkey.trans (by rw [sub_self, roundKey_zero]))
  sub_zero_iff a b ha hb := by
    obtain ⟨hnan, hkey⟩ := fsub_key ha hb
    change feq (fsub a b) (ofInt 0) = true ↔ feq a b = true
    rw [feq_zero_iff hnan, hkey, roundKey_one_eq_zero_iff, sub_eq_zero,
      feq_iff (not_isNaN_of_finite ha) (not_isNaN_of_finite hb), le_antisymm_iff, le_antisymm_iff, value_le_value_iff,
      value_le_value_iff]
  div_self d hd h := by
    simp only [b64] at *
    exact fdiv_self hd ((zero_flt_iff (not_isNaN_of_finite hd)).1 h)
  zero_div z d hz h0 hd hpos := by
    simp only [b64] at *
    obtain ⟨hnan, hkey⟩ := fdiv_key hz hd ((zero_flt_iff (not_isNaN_of_finite hd)).1 hpos)
    have hvalue := value_eq_zero_iff.2 ((feq_zero_iff (not_isNaN_of_finite hz)).1 h0)
    exact (feq_zero_iff hnan).2 (by rw [hkey, hvalue, roundKey_zero])
  sub_mono a b m ha hb hm h := by
    obtain ⟨hnana, hkeya⟩ := fsub_key ha hm
    obtain ⟨hnanb, hkeyb⟩ := fsub_key hb hm
    have hle := value_le_value_iff.2 ((flt_eq_false_iff (not_isNaN_of_finite hb) (not_isNaN_of_finite ha)).1 h)
    refine (flt_eq_false_iff hnanb hnana).2 ?_
    rw [hkeya, hkeyb]
    exact roundKey_mono one_pos 1 (sub_le_sub_right hle _)
  div_mono a b d ha hb hd hpos h := by
    simp only [b64] at *
    have hpos := (zero_flt_iff (not_isNaN_of_finite hd)).1 hpos
    obtain ⟨hnana, hkeya⟩ := fdiv_key ha hd hpos
    obtain ⟨hnanb, hkeyb⟩ := fdiv_key hb hd hpos
    have hle := value_le_value_iff.2 ((flt_eq_false_iff (not_isNaN_of_finite hb) (not_isNaN_of_finite ha)).1 h)
    refine (flt_eq_false_iff hnanb hnana).2 ?_
    rw [hkeya, hkeyb]
    exact roundKey_mono (units_pos_of_key_pos hpos) _ hle
  ln_finite s hs hpos := (fln_below (Bool.and_eq_true_iff.2 ⟨hs, hpos⟩)).1
  one_mul x hx := by
    simp only [b64] at *
    exact one_fmul hx

end Sys2Proof.Machine.B64

open Sys2Proof Sys2Proof.Machine

/-- Settles O54: the comparisons are those of the ordered number of a value, and rounding is monotone and exact where a
magnitude needs none. -/
theorem b64MeetsRequiredProperties : Obligations.B64MeetsRequiredProperties := B64.lawful

end

section
/-! SUPPORT. The log curve of `B64` is faithful (40_numerics.md R107): its two rational bounds enclose the real logarithm so
tightly that no two values of the format lie between them. -/

namespace Sys2Proof.Machine.B64

/-! The neighbours of a real number. -/

/-- `r` is the greatest value at most `x`. -/
def FloorOf (r : F64) (x : ℝ) : Prop :=
  toReal r ≤ x ∧ ∀ y : F64, isFinite y = true → toReal y ≤ x → toReal y ≤ toReal r

/-- `r` is the least value at least `x`. -/
def CeilOf (r : F64) (x : ℝ) : Prop :=
  x ≤ toReal r ∧ ∀ y : F64, isFinite y = true → x ≤ toReal y → toReal r ≤ toReal y

theorem faithfulTo_iff {r : F64} {x : ℝ} : faithfulTo r x ↔ FloorOf r x ∨ CeilOf r x := Iff.rfl

theorem toReal_neg (x : F64) : toReal (neg x) = -toReal x := by
  rw [toReal, value_neg, Int.cast_neg, neg_div, toReal]

theorem FloorOf.ceilOf_neg {r s : F64} {x : ℝ} (h : FloorOf r x) (hs : toReal s = -toReal r) : CeilOf s (-x) := by
  refine ⟨by linarith [h.1], fun y hy hxy => ?_⟩
  have := h.2 (neg y) (isFinite_neg hy) (by rw [toReal_neg]; linarith)
  rw [toReal_neg] at this
  linarith

theorem toReal_ofRatWith (m : Rounding) (q : Rat) : toReal (ofRatWith m q) =
    signed (decide (q < 0)) (unitsOf (roundMag m (q.num.natAbs * 2 ^ 1074) q.den)) / 2 ^ 1074 := by
  rw [ofRatWith, toReal, value_mk (roundMag_le_infBits _ _ _)]

/-- The units of a rational, as `ofRatWith` rounds them. -/
theorem units_of_rat (q : Rat) : ((q.num.natAbs * 2 ^ 1074 : Nat) : ℝ) / q.den = |(q : ℝ)| * 2 ^ 1074 := by
  have hq : |(q : ℝ)| = (q.num.natAbs : ℝ) / q.den := by
    rw [Rat.cast_def, abs_div, Nat.abs_cast, Nat.cast_natAbs, Int.cast_abs]
  rw [hq, Nat.cast_mul, Nat.cast_pow, Nat.cast_ofNat, mul_div_right_comm]

/-- The floor in units. -/
theorem floorOf_iff {r : F64} {u : ℝ} : FloorOf r (u / 2 ^ 1074) ↔
    (value r : ℝ) ≤ u ∧ ∀ y : F64, isFinite y = true → (value y : ℝ) ≤ u → (value y : ℝ) ≤ value r := by
  have hpos : (0 : ℝ) < 2 ^ 1074 := by positivity
  simp only [FloorOf, toReal, div_le_div_iff_of_pos_right hpos]

/-- Below zero the floor has the least magnitude that is not too small. -/
theorem floorOf_up {num den : Nat} (hn : 0 < num) (hd : 0 < den) (hfin : roundMag .up num den < infBits) :
    FloorOf (mk true (roundMag .up num den)) (-((num : ℝ) / den) / 2 ^ 1074) := by
  obtain ⟨hle, hleast⟩ := roundMag_up hd rfl hfin
  have hquot : (0 : ℝ) < num / den := div_pos (by exact_mod_cast hn) (by exact_mod_cast hd)
  rw [floorOf_iff, value_mk hfin.le, signed, if_pos rfl]
  refine ⟨neg_le_neg hle, fun y _ hy => ?_⟩
  rw [value_cast, signed] at hy ⊢
  split at hy
  · have hmono := unitsOf_strictMono.monotone (hleast _ (neg_le_neg_iff.1 hy))
    rw [if_pos ‹_›, neg_le_neg_iff]
    exact_mod_cast hmono
  · exact absurd ((Nat.cast_nonneg _).trans hy) (neg_neg_of_pos hquot).not_ge

/-- From zero on the floor has the greatest magnitude that is not too great. -/
theorem floorOf_down {num den : Nat} (hd : 0 < den) (hfin : roundMag .down num den < infBits) :
    FloorOf (mk false (roundMag .down num den)) ((num : ℝ) / den / 2 ^ 1074) := by
  obtain ⟨hle, hlt⟩ := roundMag_down hd rfl hfin
  rw [floorOf_iff, value_mk hfin.le, signed, if_neg Bool.false_ne_true]
  refine ⟨hle, fun y _ hy => ?_⟩
  rw [value_cast, signed] at hy ⊢
  split at hy
  · rw [if_pos ‹_›, neg_le_iff_add_nonneg]
    positivity
  · have hmag : unitsOf (magBits y) < unitsOf (roundMag .down num den + 1) := by exact_mod_cast hy.trans_lt hlt
    rw [if_neg ‹_›]
    exact_mod_cast unitsOf_strictMono.monotone (Nat.lt_succ_iff.1 (unitsOf_strictMono.lt_iff_lt.1 hmag))

/-- Downwards is away from zero below it and towards zero above it. -/
theorem floorRat_spec {q : Rat} (hfin : isFinite (floorRat q) = true) : FloorOf (floorRat q) q := by
  have hpos : (2 : ℝ) ^ 1074 ≠ 0 := by positivity
  have hunits := units_of_rat q
  rw [floorRat, ofRatWith] at hfin ⊢
  rw [isFinite_mk_roundMag_iff] at hfin
  rcases lt_or_ge q 0 with hq | hq
  · have hq' : (q : ℝ) < 0 := by exact_mod_cast hq
    have hnum : 0 < q.num.natAbs * 2 ^ 1074 :=
      Nat.mul_pos (Int.natAbs_pos.2 (Rat.num_neg.2 hq).ne) (by positivity)
    rw [if_pos hq] at hfin ⊢
    have h := floorOf_up hnum q.den_pos hfin
    rwa [hunits, abs_of_neg hq', neg_mul, neg_neg, mul_div_cancel_right₀ _ hpos, ← decide_eq_true hq] at h
  · have hq' : (0 : ℝ) ≤ q := by exact_mod_cast hq
    rw [if_neg hq.not_gt] at hfin ⊢
    have h := floorOf_down q.den_pos hfin
    rwa [hunits, abs_of_nonneg hq', mul_div_cancel_right₀ _ hpos, ← decide_eq_false hq.not_gt] at h

/-- Rounding up is rounding the negated number down. -/
theorem toReal_ceilRat (q : Rat) : toReal (ceilRat q) = -toReal (floorRat (-q)) := by
  rw [ceilRat, floorRat, toReal_ofRatWith, toReal_ofRatWith, Rat.neg_num, Rat.neg_den, Int.natAbs_neg, ← neg_div]
  congr 1
  rcases lt_trichotomy q 0 with hq | rfl | hq
  · have hq' : ¬ -q < 0 := (neg_pos.2 hq).not_gt
    rw [if_pos hq, if_neg hq', decide_eq_true hq, decide_eq_false hq']
    rfl
  · rw [Rat.num_zero, Int.natAbs_zero, Nat.zero_mul, roundMag_zero, roundMag_zero, unitsOf_zero]
    simp only [signed, Nat.cast_zero, neg_zero, ite_self]
  · have hq' : -q < 0 := neg_neg_of_pos hq
    rw [if_neg hq.not_gt, if_pos hq', decide_eq_false hq.not_gt, decide_eq_true hq']
    exact (neg_neg _).symm

theorem ceilRat_spec {q : Rat} (hfin : isFinite (floorRat (-q)) = true) : CeilOf (ceilRat q) q := by
  have h := (floorRat_spec hfin).ceilOf_neg (toReal_ceilRat q)
  rwa [Rat.cast_neg, neg_neg] at h

/-- Where no two values lie between two bounds of a number, the floor of the upper bound is a neighbour of the number, and
so is the ceiling of the lower one. -/
theorem faithfulTo_of_narrow {lo hi x : ℝ} (hlo : lo ≤ x) (hhi : x ≤ hi)
    (hnarrow : ∀ y z : F64, isFinite y = true → isFinite z = true → lo ≤ toReal y → toReal z ≤ hi → toReal z ≤ toReal y)
    {r : F64} (hr : isFinite r = true) (h : FloorOf r hi ∨ CeilOf r lo) : faithfulTo r x := by
  rw [faithfulTo_iff]
  rcases h with ⟨hle, hgreatest⟩ | ⟨hge, hleast⟩
  · rcases le_total (toReal r) x with hrx | hxr
    · exact .inl ⟨hrx, fun y hy hyx => hgreatest y hy (hyx.trans hhi)⟩
    · exact .inr ⟨hxr, fun y hy hxy => hnarrow y r hy hr (hlo.trans hxy) hle⟩
  · rcases le_total x (toReal r) with hxr | hrx
    · exact .inr ⟨hxr, fun y hy hxy => hleast y hy (hlo.trans hxy)⟩
    · exact .inl ⟨hrx, fun y hy hyx => hnarrow r y hr hy hge (hyx.trans hhi)⟩

/-! The two bounds enclose the logarithm. -/

theorem atanhSum_cast (z : Rat) (k : Nat) :
    (atanhSum z k : ℝ) = ∑ i ∈ Finset.range k, (z : ℝ) ^ (2 * i + 1) / (2 * i + 1) := by
  induction k with
  | zero => rw [atanhSum, Rat.cast_zero, Finset.sum_range_zero]
  | succ k ih =>
    rw [atanhSum, Finset.sum_range_succ, ← ih]
    push_cast
    rfl

/-- The series and its tail bound the logarithm of the ratio. -/
theorem lnRatio_spec {z : Rat} (h0 : 0 ≤ z) (h1 : z < 1) :
    (lnRatioLo z : ℝ) ≤ Real.log ((1 + z) / (1 - z)) ∧ Real.log ((1 + z) / (1 - z)) ≤ lnRatioHi z := by
  have h0 : (0 : ℝ) ≤ z := by exact_mod_cast h0
  have h1 : (z : ℝ) < 1 := by exact_mod_cast h1
  have hlo := Real.sum_range_le_log_div h0 h1 lnTerms
  have hhi := Real.log_div_le_sum_range_add h0 h1 lnTerms
  rw [← atanhSum_cast] at hlo hhi
  rw [lnRatioLo, lnRatioHi]
  push_cast
  constructor <;> linarith

/-- How far apart the two bounds of a logarithm of a ratio are: the tail. -/
theorem lnRatio_width {z : Rat} (h0 : 0 ≤ z) (h1 : z ≤ 1 / 3) :
    0 ≤ lnRatioHi z - lnRatioLo z ∧ lnRatioHi z - lnRatioLo z ≤ 1 / 2 ^ 202 := by
  have hden : 8 / 9 ≤ 1 - z ^ 2 := by nlinarith
  have hpow : z ^ (2 * lnTerms + 1) ≤ (1 / 3) ^ (2 * lnTerms + 1) := pow_le_pow_left₀ h0 h1 _
  have hwidth : lnRatioHi z - lnRatioLo z = 2 * (z ^ (2 * lnTerms + 1) / (1 - z ^ 2)) := by
    rw [lnRatioHi, lnRatioLo]
    ring
  rw [hwidth]
  constructor
  · exact mul_nonneg zero_le_two (div_nonneg (pow_nonneg h0 _) (by linarith))
  · calc 2 * (z ^ (2 * lnTerms + 1) / (1 - z ^ 2)) ≤ 2 * ((1 / 3) ^ (2 * lnTerms + 1) / (8 / 9)) :=
          mul_le_mul_of_nonneg_left (div_le_div₀ (by positivity) hpow (by norm_num) hden) zero_le_two
      _ ≤ 1 / 2 ^ 202 := by norm_num [lnTerms]

/-- The real logarithm, split at the leading bit as `lnLo` and `lnHi` split it. -/
theorem log_toReal {s : F64} (h : 0 < key s) : Real.log (toReal s) =
    Real.log ((1 + lnArg s) / (1 - lnArg s)) + lnExponent s * Real.log ((1 + (1 / 3 : ℚ)) / (1 - (1 / 3 : ℚ))) := by
  have hu : (0 : ℝ) < units s := by exact_mod_cast units_pos_of_key_pos h
  have hp : (0 : ℝ) < 2 ^ Nat.log2 (units s) := by positivity
  have hratio : ((1 : ℝ) + lnArg s) / (1 - lnArg s) = units s / 2 ^ Nat.log2 (units s) := by
    rw [lnArg]
    push_cast
    generalize (2 : ℝ) ^ Nat.log2 (units s) = p at hp ⊢
    generalize (units s : ℝ) = u at hu ⊢
    have hsum : u + p ≠ 0 := (add_pos hu hp).ne'
    rw [one_add_div hsum, one_sub_div hsum, div_div_div_cancel_right₀ hsum, add_add_sub_cancel, add_sub_sub_cancel,
      ← two_mul, ← two_mul, mul_div_mul_left _ _ two_ne_zero]
  have htwo : ((1 : ℝ) + (1 / 3 : ℚ)) / (1 - (1 / 3 : ℚ)) = 2 := by norm_num
  have hreal : toReal s = units s / 2 ^ 1074 := by
    rw [toReal_eq, sign_of_key_pos h, signed, if_neg Bool.false_ne_true]
  rw [hratio, htwo, hreal, Real.log_div hu.ne' hp.ne', Real.log_div hu.ne' (by positivity), Real.log_pow, Real.log_pow,
    lnExponent]
  push_cast
  ring

theorem log_between {s : F64} (h : 0 < key s) : (lnLo s : ℝ) ≤ Real.log (toReal s) ∧ Real.log (toReal s) ≤ lnHi s := by
  obtain ⟨hz0, hz1⟩ := lnArg_bounds (units_pos_of_key_pos h)
  obtain ⟨hlo, hhi⟩ := lnRatio_spec hz0 (hz1.trans_lt (by norm_num))
  obtain ⟨hlo2, hhi2⟩ := lnRatio_spec (z := 1 / 3) (by norm_num) (by norm_num)
  rw [log_toReal h, lnLo, lnHi]
  split
  · next he =>
    have he : (0 : ℝ) ≤ lnExponent s := by exact_mod_cast he
    push_cast at *
    exact ⟨add_le_add hlo (mul_le_mul_of_nonneg_left hlo2 he), add_le_add hhi (mul_le_mul_of_nonneg_left hhi2 he)⟩
  · next he =>
    have he : (lnExponent s : ℝ) ≤ 0 := by exact_mod_cast (not_le.1 he).le
    push_cast at *
    exact ⟨add_le_add hlo (mul_le_mul_of_nonpos_left hhi2 he), add_le_add hhi (mul_le_mul_of_nonpos_left hlo2 he)⟩

/-- The bounds of a logarithm are at most 2^-190 apart. -/
theorem lnHi_sub_lnLo_le {s : F64} (h : 0 < key s) (hf : isFinite s = true) : lnHi s - lnLo s ≤ 1 / 2 ^ 190 := by
  have hu := units_pos_of_key_pos h
  obtain ⟨hz0, hz1⟩ := lnArg_bounds hu
  obtain ⟨-, hw⟩ := lnRatio_width hz0 hz1
  obtain ⟨hw0, hw2⟩ := lnRatio_width (z := 1 / 3) (by norm_num) le_rfl
  obtain ⟨he0, he1⟩ := lnExponent_bounds hu hf
  have he : |(lnExponent s : Rat)| ≤ 1074 := abs_le.2 ⟨by exact_mod_cast he0, by exact_mod_cast he1⟩
  have hwidth : lnHi s - lnLo s = (lnRatioHi (lnArg s) - lnRatioLo (lnArg s)) +
      |(lnExponent s : Rat)| * (lnRatioHi (1 / 3) - lnRatioLo (1 / 3)) := by
    rw [lnHi, lnLo]
    split
    · next hs =>
      rw [abs_of_nonneg (by exact_mod_cast hs)]
      ring
    · next hs =>
      rw [abs_of_neg (by exact_mod_cast not_le.1 hs)]
      ring
  have hmul := mul_le_mul he hw2 hw0 (by norm_num)
  rw [hwidth]
  norm_num at *
  linarith

/-! No two values lie between the bounds. -/

theorem atanhSum_zero (k : Nat) : atanhSum 0 k = 0 := by
  induction k with
  | zero => rfl
  | succ k ih => rw [atanhSum, ih, zero_pow (by omega), zero_div, add_zero]

/-- The bounds of the logarithm of 1 are exact. -/
theorem lnBounds_one {s : F64} (h : units s = 2 ^ 1074) : lnLo s = 0 ∧ lnHi s = 0 := by
  have harg : lnArg s = 0 := by
    rw [lnArg, h, Nat.log2_two_pow, Nat.cast_pow, Nat.cast_ofNat, sub_self, zero_div]
  have hexp : lnExponent s = 0 := by
    rw [lnExponent, h, Nat.log2_two_pow]
    rfl
  constructor
  · rw [lnLo, harg, hexp, lnRatioLo, atanhSum_zero, mul_zero, Int.cast_zero, zero_mul, add_zero]
  · rw [lnHi, harg, hexp, lnRatioHi, atanhSum_zero, zero_pow (by decide), zero_div, add_zero, mul_zero, Int.cast_zero,
      zero_mul, add_zero]

/-- No positive value but 1 has a logarithm near 0: the values next to 1 are 2^-53 and 2^-52 away. -/
theorem le_abs_log {s : F64} (h : 0 < key s) (h1 : units s ≠ 2 ^ 1074) : 1 / 2 ^ 53 ≤ |Real.log (toReal s)| := by
  have hpos : (0 : ℝ) < 2 ^ 1074 := by positivity
  have hreal : toReal s = units s / 2 ^ 1074 := by
    rw [toReal_eq, sign_of_key_pos h, signed, if_neg Bool.false_ne_true]
  have hs : 0 < toReal s := by
    rw [hreal]
    exact div_pos (by exact_mod_cast units_pos_of_key_pos h) hpos
  have hone : unitsOf (1021 * 2 ^ 52 + 2 ^ 53) = 2 ^ 1074 := by
    rw [unitsOf_shifted le_rfl (.inr (by decide)), ← pow_add]
  rcases lt_or_gt_of_ne h1 with hlt | hgt
  · have hmag : magBits s ≤ 1021 * 2 ^ 52 + (2 ^ 53 - 1) := by
      rw [← hone, units_eq, unitsOf_strictMono.lt_iff_lt] at hlt
      omega
    have hle := unitsOf_strictMono.monotone hmag
    rw [unitsOf_shifted (by decide) (.inr (by decide)), ← units_eq] at hle
    have hle : (units s : ℝ) ≤ (2 ^ 53 - 1 : ℕ) * 2 ^ 1021 := by exact_mod_cast hle
    have hbelow : toReal s ≤ 1 - 1 / 2 ^ 53 := by
      rw [hreal, div_le_iff₀ hpos, show 1074 = 53 + 1021 from rfl, pow_add]
      refine hle.trans (le_of_eq ?_)
      generalize (2 : ℝ) ^ 1021 = p
      norm_num
      ring
    have hlog := Real.log_le_sub_one_of_pos hs
    exact le_abs.2 (.inr (by linarith))
  · have hmag : 1022 * 2 ^ 52 + (2 ^ 52 + 1) ≤ magBits s := by
      rw [← hone, units_eq, unitsOf_strictMono.lt_iff_lt] at hgt
      omega
    have hle := unitsOf_strictMono.monotone hmag
    rw [unitsOf_shifted (by decide) (.inr (by decide)), ← units_eq] at hle
    have hle : ((2 ^ 52 + 1 : ℕ) : ℝ) * 2 ^ 1022 ≤ units s := by exact_mod_cast hle
    have habove : 1 + 1 / 2 ^ 52 ≤ toReal s := by
      rw [hreal, le_div_iff₀ hpos, show 1074 = 52 + 1022 from rfl, pow_add]
      refine le_trans (le_of_eq ?_) hle
      generalize (2 : ℝ) ^ 1022 = p
      norm_num
      ring
    have hlog := (Real.one_sub_inv_le_log_of_pos (by norm_num)).trans (Real.log_le_log (by norm_num) habove)
    refine le_abs.2 (.inl (le_trans ?_ hlog))
    norm_num

theorem two_pow_dvd_value {y : F64} {k : Nat} (h : 2 ^ (52 + k) ≤ units y) : (2 ^ k : Int) ∣ value y := by
  rw [← Int.dvd_natAbs, natAbs_value]
  exact_mod_cast two_pow_dvd_unitsOf h

theorem two_pow_le_units {y : F64} (h : 1 / 2 ^ 54 ≤ |toReal y|) : 2 ^ (52 + 968) ≤ units y := by
  rw [abs_toReal, le_div_iff₀ (by positivity), show 1074 = 54 + (52 + 968) from rfl, pow_add, ← mul_assoc,
    one_div_mul_cancel (by positivity), one_mul] at h
  exact_mod_cast h

/-- Two different values of at least 2^-54 are whole multiples of 2^-106, so they are that far apart. -/
theorem le_sub_of_toReal_lt {y z : F64} (hy : 1 / 2 ^ 54 ≤ |toReal y|) (hz : 1 / 2 ^ 54 ≤ |toReal z|)
    (h : toReal y < toReal z) : 1 / 2 ^ 106 ≤ toReal z - toReal y := by
  have hlt : 0 < value z - value y := by
    rw [toReal, toReal, div_lt_div_iff_of_pos_right (by positivity), Int.cast_lt] at h
    omega
  have hdvd := dvd_sub (two_pow_dvd_value (two_pow_le_units hz)) (two_pow_dvd_value (two_pow_le_units hy))
  have hle := (Int.cast_le (R := ℝ)).2 (Int.le_of_dvd hlt hdvd)
  rw [Int.cast_pow, Int.cast_ofNat, Int.cast_sub] at hle
  rwa [toReal, toReal, ← sub_div, le_div_iff₀ (by positivity), show 1074 = 106 + 968 from rfl, pow_add, ← mul_assoc,
    one_div_mul_cancel (by positivity), one_mul]

/-- Of two values between the bounds of a logarithm none is greater than the other. -/
theorem lnBounds_narrow {s : F64} (h : 0 < key s) (hf : isFinite s = true) {y z : F64} (hy : (lnLo s : ℝ) ≤ toReal y)
    (hz : toReal z ≤ lnHi s) : toReal z ≤ toReal y := by
  by_contra hlt
  rw [not_le] at hlt
  by_cases h1 : units s = 2 ^ 1074
  · obtain ⟨hlo, hhi⟩ := lnBounds_one h1
    rw [hlo, Rat.cast_zero] at hy
    rw [hhi, Rat.cast_zero] at hz
    linarith
  · obtain ⟨hlo, hhi⟩ := log_between h
    have hwidth : ((lnHi s - lnLo s : ℚ) : ℝ) ≤ (1 / 2 ^ 190 : ℚ) := Rat.cast_le.2 (lnHi_sub_lnLo_le h hf)
    push_cast at hwidth
    have hfar {w : ℝ} (hw0 : (lnLo s : ℝ) ≤ w) (hw1 : w ≤ lnHi s) : 1 / 2 ^ 54 ≤ |w| := by
      have hnear : |Real.log (toReal s) - w| ≤ 1 / 2 ^ 190 := abs_le.2 ⟨by linarith, by linarith⟩
      have htri := abs_sub_abs_le_abs_sub (Real.log (toReal s)) w
      have hlog := le_abs_log h h1
      norm_num at *
      linarith
    have hgap := le_sub_of_toReal_lt (hfar hy (hlt.le.trans hz)) (hfar (hy.trans hlt.le) hz) hlt
    norm_num at *
    linarith

theorem inLogDomain_b64_iff {s : F64} : inLogDomain b64 s = true ↔ isFinite s = true ∧ flt (ofInt 0) s = true := by
  simp only [inLogDomain, b64, Bool.and_eq_true]

theorem fln_faithfulTo {s : F64} (h : inLogDomain b64 s = true) : faithfulTo (fln s) (Real.log (toReal s)) := by
  obtain ⟨hf, hlt⟩ := inLogDomain_b64_iff.1 h
  have hkey := (zero_flt_iff (not_isNaN_of_finite hf)).1 hlt
  obtain ⟨hlo, hhi⟩ := log_between hkey
  obtain ⟨hlo18, hhi18⟩ := abs_lnBounds_le (units_pos_of_key_pos hkey) hf
  refine faithfulTo_of_narrow hlo hhi (fun y z _ _ => lnBounds_narrow hkey hf) (fln_below h).1 ?_
  rcases fln_cases h with he | he <;> rw [he]
  · exact .inr (ceilRat_spec (ofRatWith_below (by rwa [abs_neg])).1)
  · exact .inl (floorRat_spec (ofRatWith_below hhi18).1)

end Sys2Proof.Machine.B64

open Sys2Proof Sys2Proof.Machine

/-- Settles O55: the answer is the floor of an upper bound or the ceiling of a lower bound, and the bounds are too close for
two values between them. -/
theorem logCurveIsFaithful : Obligations.LogCurveIsFaithful := by
  intro s hf hpos
  have hdomain := B64.inLogDomain_b64_iff.2 ⟨hf, hpos⟩
  exact ⟨(B64.fln_below hdomain).1, B64.fln_faithfulTo hdomain⟩

end

section
/-! SUPPORT. The accuracy that `B64` states (40_numerics.md R106, N8): the logarithm is within a unit in the last place, the
distance of two neighbours. -/

namespace Sys2Proof.Machine.B64

/-- Above every value but the greatest there is one at most a unit in the last place away. -/
theorem exists_above {r : F64} (h : magBits r + 1 < infBits) :
    ∃ y, isFinite y = true ∧ toReal r < toReal y ∧ toReal y ≤ toReal r + ulp r := by
  have hpos : (0 : ℝ) < 2 ^ 1074 := by positivity
  have hgap (k : Nat) : (0 : ℝ) < gap k := by exact_mod_cast gap_pos k
  by_cases hs : sign r = true ∧ magBits r ≠ 0
  · obtain ⟨k, hk⟩ := Nat.exists_eq_succ_of_ne_zero hs.2
    have hmono : (gap k : ℝ) ≤ gap (k + 1) := by exact_mod_cast gap_mono (Nat.le_succ k)
    refine ⟨mk true k, isFinite_mk (by omega), ?_⟩
    rw [ulp_eq, toReal, toReal, value_mk (by omega), value_cast r, hs.1, hk, Nat.succ_eq_add_one, unitsOf_succ, signed,
      signed, if_pos rfl, if_pos rfl, Nat.cast_add, ← add_div, div_lt_div_iff_of_pos_right hpos,
      div_le_div_iff_of_pos_right hpos]
    constructor <;> linarith [hgap k]
  · have hvalue : (value r : ℝ) = unitsOf (magBits r) := by
      rw [value_cast, signed]
      split
      · next h => rw [not_not.1 (not_and.1 hs h), unitsOf_zero, Nat.cast_zero, neg_zero]
      · rfl
    refine ⟨mk false (magBits r + 1), isFinite_mk h, ?_⟩
    rw [ulp_eq, toReal, toReal, value_mk h.le, hvalue, unitsOf_succ, signed, if_neg Bool.false_ne_true, Nat.cast_add,
      ← add_div, div_lt_div_iff_of_pos_right hpos]
    exact ⟨by linarith [hgap (magBits r)], le_rfl⟩

/-- A neighbour of a number is within a unit in its last place of it. -/
theorem abs_sub_le_ulp_of_faithfulTo {r : F64} {x : ℝ} (hr : magBits r + 1 < infBits) (h : faithfulTo r x) :
    |toReal r - x| ≤ ulp r := by
  rcases faithfulTo_iff.1 h with ⟨hle, hgreatest⟩ | ⟨hge, hleast⟩
  · obtain ⟨y, hy, hlt, hnear⟩ := exists_above hr
    have hxy : x < toReal y := not_le.1 fun hyx => hlt.not_ge (hgreatest y hy hyx)
    exact abs_le.2 ⟨by linarith, by linarith⟩
  · obtain ⟨y, hy, hlt, hnear⟩ := exists_above (r := neg r) (by rwa [magBits_neg])
    rw [toReal_neg] at hlt hnear
    have hulp : ulp (neg r) = ulp r := by rw [ulp_eq, ulp_eq, magBits_neg]
    have hxy : toReal (neg y) < x := not_le.1 fun hxy => by
      have := hleast (neg y) (isFinite_neg hy) hxy
      rw [toReal_neg] at this
      linarith
    rw [toReal_neg] at hxy
    exact abs_le.2 ⟨by linarith, by linarith⟩

/-- A value far below the greatest has one above it. -/
theorem Below.magBits_succ_lt {x : F64} {k : Nat} (h : Below x k) (hk : k ≤ 2096) : magBits x + 1 < infBits := by
  by_contra hge
  have hexp : 2046 ≤ magBits x / 2 ^ 52 := by
    unfold infBits at hge
    omega
  have hlow := (le_unitsOf (mag := magBits x) (by omega)).trans_lt h.2
  have := (Nat.pow_lt_pow_iff_right (by decide)).1 hlow
  omega

theorem abs_fln_sub_log_le {s : F64} (h : inLogDomain b64 s = true) :
    |toReal (fln s) - Real.log (toReal s)| ≤ ulp (fln s) :=
  abs_sub_le_ulp_of_faithfulTo ((fln_below h).magBits_succ_lt (by decide)) (fln_faithfulTo h)

theorem accurate : NumAccurate b64 b64Accuracy where
  toNumLawful := lawful
  int_exact k hk := by
    simp only [b64, b64Accuracy]
    exact (ofInt_exact (hk.trans_lt (by decide))).2
  lt_iff x y hx hy := flt_iff_toReal_lt hx hy
  add_error x y hx hy := (fadd_rounded hx hy).abs_sub_le
  sub_error x y hx hy := (fsub_rounded hx hy).abs_sub_le
  mul_error x y hx hy := (fmul_rounded hx hy).abs_sub_le
  div_error x y hx hy h0 := (fdiv_rounded hx hy h0).abs_sub_le
  ln_error s hs hpos := abs_fln_sub_log_le (Bool.and_eq_true_iff.2 ⟨hs, hpos⟩)

end Sys2Proof.Machine.B64

open Sys2Proof Sys2Proof.Machine

/-- Settles O58: every operation errs by half a unit in the last place at most and the logarithm by one, and the figure of
the spec's scenario follows from these. -/
theorem b64MeetsStatedAccuracy : Obligations.B64MeetsStatedAccuracy where
  toNumAccurate := B64.accurate
  end_to_end := b64_meetsFigure B64.accurate
  claimed := fun _ h => absurd h (Set.notMem_empty _)

end

section
/-! SUPPORT. What the unpacker computes (41_unpack.md R122 to R129): a sample as a number, the marker test, and the bytes that
a valid geometry lets it read. -/

namespace Sys2Proof.Machine

/-! A sample (R125 to R127). -/

/-- Widened first, a byte loses no bit to the shift (R128). -/
theorem toNat_widenShift (b : Byte) : (widenShift b).toNat = 4 * b.toNat := by
  rw [widenShift, BitVec.toNat_shiftLeft, BitVec.toNat_setWidth, Nat.shiftLeft_eq]
  omega

theorem toNat_and_three {w : Nat} (x : BitVec (w + 2)) : (x &&& 0b11).toNat = x.toNat % 4 := by
  have h3 : (0b11 : BitVec (w + 2)).toNat = 2 ^ 2 - 1 :=
    Nat.mod_eq_of_lt ((by decide : 3 < 2 ^ 2).trans_le (Nat.pow_le_pow_right (by decide) (Nat.le_add_left _ _)))
  rw [BitVec.toNat_and, h3, Nat.and_two_pow_sub_one_eq_mod]

/-- The shift by `(4 - p) * 2` of the widened fifth byte undoes the shift left by 2 (R126). -/
theorem toNat_lowField (b4 : Byte) {p : Nat} (hp : p < 4) :
    (lowField (widenShift b4) p).toNat = b4.toNat / 2 ^ (6 - 2 * p) % 4 := by
  have hpow : 2 ^ ((4 - p) * 2) = 4 * 2 ^ (6 - 2 * p) := by
    rw [show (4 - p) * 2 = 2 + (6 - 2 * p) by omega, pow_add]
    rfl
  rw [lowField, toNat_and_three, BitVec.toNat_ushiftRight, Nat.shiftRight_eq_div_pow, toNat_widenShift, hpow,
    Nat.mul_div_mul_left _ _ (by decide)]

/-- The low bits of a sample on the raw fifth byte (R126). -/
theorem lowField_widenShift (b4 : Byte) {p : Nat} (hp : p < 4) :
    lowField (widenShift b4) p = ((b4 >>> (6 - 2 * p)) &&& 0b11).setWidth 16 := by
  apply BitVec.eq_of_toNat_eq
  rw [toNat_lowField b4 hp, BitVec.toNat_setWidth, toNat_and_three, BitVec.toNat_ushiftRight, Nat.shiftRight_eq_div_pow]
  omega

/-- The union never meets a 1 with a 1, so it is the sum (R126). -/
theorem toNat_unpackSample (b b4 : Byte) {p : Nat} (hp : p < 4) :
    (unpackSample b b4 p).toNat = 4 * b.toNat + b4.toNat / 2 ^ (6 - 2 * p) % 4 := by
  rw [unpackSample, BitVec.toNat_or, toNat_widenShift, toNat_lowField b4 hp]
  exact (Nat.two_pow_add_eq_or_of_lt (i := 2) (Nat.mod_lt _ (by decide)) _).symm

/-- Every ten-bit number is a sample, at each position (R127). -/
theorem exists_unpackSample {p v : Nat} (hp : p < 4) (hv : v ≤ 1023) :
    ∃ b b4 : Byte, (unpackSample b b4 p).toNat = v := by
  have hfield : v % 4 * 2 ^ (6 - 2 * p) < 2 ^ 8 := calc
    v % 4 * 2 ^ (6 - 2 * p) < 4 * 2 ^ (6 - 2 * p) :=
      Nat.mul_lt_mul_of_pos_right (Nat.mod_lt _ (by decide)) (Nat.two_pow_pos _)
    _ ≤ 4 * 2 ^ 6 := Nat.mul_le_mul_left _ (Nat.pow_le_pow_right (by decide) (Nat.sub_le _ _))
  refine ⟨BitVec.ofNat 8 (v / 4), BitVec.ofNat 8 (v % 4 * 2 ^ (6 - 2 * p)), ?_⟩
  rw [toNat_unpackSample _ _ hp, BitVec.toNat_ofNat, BitVec.toNat_ofNat, Nat.mod_eq_of_lt hfield,
    Nat.mul_div_cancel _ (Nat.two_pow_pos _)]
  omega

/-- The sample at a row and a column on the raw bytes (R126). -/
theorem unpackAt_eq (g : Geometry) (ib : Nat → Byte) (base r c : Nat) : unpackAt g ib base r c =
    ((ib (base + g.hdrLen + r * g.stride + 5 * (c / 4) + c % 4)).setWidth 16 <<< 2) |||
      ((ib (base + g.hdrLen + r * g.stride + 5 * (c / 4) + 4) >>> (6 - 2 * (c % 4))) &&& 0b11).setWidth 16 := by
  rw [unpackAt, unpackSample, lowField_widenShift _ (Nat.mod_lt _ (by decide)), widenShift, byteGrid, byteGrid,
    ← Nat.add_assoc, ← Nat.add_assoc]

/-! The marker (R122). -/

theorem magicMatches_iff {g : Geometry} {ib : Nat → Byte} {base : Nat} :
    magicMatches g ib base = true ↔ ∀ k (hk : k < 4), ib (base + k) = g.magic[k] := by
  simp only [magicMatches, beq_iff_eq, List.ext_getElem_iff, List.length_map, List.length_range, Vector.length_toList,
    List.getElem_map, List.getElem_range, Vector.getElem_toList, true_and]
  exact ⟨fun h k hk => h k hk hk, fun h k hk _ => h k hk⟩

theorem magicMatches_congr (g : Geometry) {ib jb : Nat → Byte} {base : Nat} (h : ∀ k, k < 4 → ib (base + k) = jb (base + k)) :
    magicMatches g ib base = magicMatches g jb base := by
  rw [magicMatches, magicMatches, List.map_congr_left fun k hk => h k (List.mem_range.1 hk)]

/-! The bytes read (R123, R124, R129). -/

/-- The constraints of R8, one by one. -/
theorem geometry_wellFormed_iff {g : Geometry} : g.wellFormed = true ↔
    g.dumpLen = g.hdrLen + g.bufRows * g.stride ∧ (∀ b ∈ g.magic.toList, b.toNat ≤ 127) ∧ 4 ≤ g.hdrLen ∧
    g.actRows ≤ g.bufRows ∧ g.actBytes ≤ g.stride ∧ 2 ≤ g.actRows ∧ (g.actBytes % 5 = 0 ∧ 5 ≤ g.actBytes) ∧
    g.dumpLen ≤ g.inCap ∧ g.inCap < 2 ^ 32 := by
  simp only [Geometry.wellFormed, Geometry.dumpLenExact, Geometry.magicAscii, Geometry.headerHoldsMagic, Geometry.rowsFit,
    Geometry.bytesFit, Geometry.rowsEnough, Geometry.wholeBlocks, Geometry.capacityEnough, Geometry.capacityFits,
    Bool.and_eq_true, beq_iff_eq, decide_eq_true_eq, List.all_eq_true, and_assoc]

/-- The marker lies inside the retained window. -/
theorem magicByte_lt {g : Geometry} (hg : g.wellFormed = true) {k : Nat} (hk : k < 4) : k < g.dumpLen := by
  obtain ⟨hdump, -, hhdr, -⟩ := geometry_wellFormed_iff.1 hg
  omega

/-- The active area lies inside the retained window. -/
theorem activeByte_lt {g : Geometry} (hg : g.wellFormed = true) {r j : Nat} (hr : r < g.h) (hj : j < g.actBytes) :
    g.hdrLen + r * g.stride + j < g.dumpLen := by
  obtain ⟨hdump, -, -, hrows, hbytes, -⟩ := geometry_wellFormed_iff.1 hg
  have hrow : (r + 1) * g.stride ≤ g.bufRows * g.stride := Nat.mul_le_mul_right _ (Nat.le_trans hr hrows)
  rw [Nat.succ_mul] at hrow
  omega

/-- A block of which some column is inside the mosaic lies inside the active bytes (R124). -/
theorem blockByte_lt {g : Geometry} (hg : g.wellFormed = true) {c k : Nat} (hc : c < g.w) (hk : k < 5) :
    5 * (c / 4) + k < g.actBytes := by
  obtain ⟨-, -, -, -, -, -, ⟨hblocks, -⟩, -⟩ := geometry_wellFormed_iff.1 hg
  have hc' : c < g.actBytes * 4 / 5 := hc
  omega

theorem mosaicOf_congr {α : Type} {g : Geometry} {f f' : Nat → Nat → α} (h : ∀ r c, r < g.h → c < g.w → f r c = f' r c) :
    mosaicOf g f = mosaicOf g f' := by
  refine List.map_congr_left fun e he => ?_
  have he' : e < g.w * g.h := (List.mem_range.1 he).trans_eq (Nat.mul_comm _ _)
  exact h _ _ (Nat.div_lt_of_lt_mul he') (Nat.mod_lt _ (Nat.pos_of_lt_mul_right he'))

/-- A whole mosaic written over a canonical memory reads as that mosaic (R51). -/
theorem read_writeAll_mosaicOf {m : Memory 16} (hm : Memory.wf m) {g : Geometry} (f : Nat → Nat → Sample) {r c : Nat}
    (hr : r < g.h) (hc : c < g.w) : Memory.read (Memory.writeAll m (mosaicOf g f)) (g.mosaicIndex r c) = f r c := by
  rw [Memory.read_writeAll_within hm ((mosaicIndex_lt hr hc).trans_eq (length_mosaicOf _ _).symm),
    getD_mosaicOf g f 0 hr hc]

theorem unpackGrid_ok {g : Geometry} {ib : Nat → Byte} {len : Nat} (hlen : g.dumpLen ≤ len)
    (hmagic : magicMatches g ib (len - g.dumpLen) = true) :
    unpackGrid g ib len = .ok (mosaicOf g (unpackAt g ib (len - g.dumpLen))) := by
  rw [unpackGrid, if_neg (Nat.not_lt.2 hlen), if_pos hmagic]

/-- The unpacker answers by the marker's bytes and the active area alone (R130). -/
theorem unpackGrid_congr {g : Geometry} (hg : g.wellFormed = true) {ib jb : Nat → Byte} {len : Nat}
    (hmagic : ∀ k, k < 4 → ib (len - g.dumpLen + k) = jb (len - g.dumpLen + k))
    (hactive : ∀ r j, r < g.h → j < g.actBytes →
      byteGrid g ib (len - g.dumpLen) r j = byteGrid g jb (len - g.dumpLen) r j) :
    unpackGrid g ib len = unpackGrid g jb len := by
  have hgrid : mosaicOf g (unpackAt g ib (len - g.dumpLen)) = mosaicOf g (unpackAt g jb (len - g.dumpLen)) := by
    refine mosaicOf_congr fun r c hr hc => ?_
    rw [unpackAt, unpackAt, hactive r _ hr (blockByte_lt hg hc (by omega)), hactive r _ hr (blockByte_lt hg hc (by decide))]
  rw [unpackGrid, unpackGrid, magicMatches_congr g hmagic, hgrid]

end Sys2Proof.Machine

open Sys2Proof Sys2Proof.Machine

/-- Settles O10: the low bits of a sample are a field below 4, its other bits the data byte. -/
theorem sampleIsTenBitNumber : Obligations.SampleIsTenBitNumber := fun p hp =>
  ⟨fun b b4 => ⟨toNat_unpackSample b b4 hp, unpackSample_le b b4 p⟩, fun _ hv => exists_unpackSample hp hv⟩

/-- Settles O13: the marker and the active area lie inside the retained window, which ends at `IN_LEN`. -/
theorem unpackIndicesInRange : Obligations.UnpackIndicesInRange := by
  intro g len hg hlen
  refine ⟨fun k hk => ?_, fun r j hr hj => ?_, fun r c hr hc =>
    ⟨blockByte_lt hg hc (by omega), blockByte_lt hg hc (by decide), mosaicIndex_lt hr hc⟩⟩
  · have := magicByte_lt hg hk
    omega
  · have := activeByte_lt hg hr hj
    omega

end

section
/-! SUPPORT. The command UNPACK (41_unpack.md R120, R130): its next state where it completes, and that `IBUF` reaches it
through the unpacker alone. -/

namespace Sys2Proof.Machine

variable {fw : Nat} {s : Block.State fw}

/-- UNPACK of a long enough frame with its marker (R120). -/
theorem doUnpack_ok (ha : s.accepts) (hv : s.valid.ibuf = true) (hlen : s.cfg.geom.dumpLen ≤ s.inLen.toNat)
    (hmagic : magicMatches s.cfg.geom (Memory.read s.ibuf) (windowBase s) = true) :
    doUnpack s = { s with
      mosaic := Memory.writeAll s.mosaic (mosaicOf s.cfg.geom (unpackAt s.cfg.geom (Memory.read s.ibuf) (windowBase s)))
      valid := { s.valid with mosaic := true, f0 := false, f1 := false, f2 := false }, response := .done } := by
  rw [doUnpack, command_accepted ha, unpackBody_ok (s := startCommand s) hv (unpackGrid_ok hlen hmagic), ha.1]
  rfl

/-- Where the unpacker answers the same for another `IBUF`, so does the stage, which leaves `IBUF` alone. -/
theorem unpackBody_with_ibuf {m : Memory 8}
    (h : unpackGrid s.cfg.geom (Memory.read m) s.inLen.toNat =
      unpackGrid s.cfg.geom (Memory.read s.ibuf) s.inLen.toNat) :
    unpackBody { s with ibuf := m } = { unpackBody s with ibuf := m } := by
  cases hv : s.valid.ibuf with
  | false =>
    rw [unpackBody_notValid hv, unpackBody_notValid (s := { s with ibuf := m }) hv]
    rfl
  | true =>
    cases hg : unpackGrid s.cfg.geom (Memory.read s.ibuf) s.inLen.toNat with
    | error c =>
      rw [unpackBody_error hv hg, unpackBody_error (s := { s with ibuf := m }) hv (h.trans hg)]
      rfl
    | ok samples =>
      rw [unpackBody_ok hv hg, unpackBody_ok (s := { s with ibuf := m }) hv (h.trans hg)]
      rfl

theorem doUnpack_with_ibuf {m : Memory 8}
    (h : unpackGrid s.cfg.geom (Memory.read m) s.inLen.toNat =
      unpackGrid s.cfg.geom (Memory.read s.ibuf) s.inLen.toNat) :
    doUnpack { s with ibuf := m } = { doUnpack s with ibuf := m } := by
  by_cases ha : s.accepts
  · rw [doUnpack, doUnpack, command_accepted ha, command_accepted (s := { s with ibuf := m }) ha]
    exact congrArg endCommand (unpackBody_with_ibuf (s := startCommand s) h)
  · rw [doUnpack, doUnpack, command_refused ha, command_refused (s := { s with ibuf := m }) ha]
    rfl

end Sys2Proof.Machine

open Sys2Proof Sys2Proof.Machine

/-- Settles O9: the two tests pass, and the sample at each row and column is read back from the whole-buffer write. -/
theorem unpackWritesSamples : Obligations.UnpackWritesSamples := by
  intro s ha hv hm hlen hmagic
  refine ⟨_, congrArg _ (doUnpack_ok ha hv hlen (magicMatches_iff.2 hmagic)), fun r c hr hc => ?_, fun e he =>
    Memory.read_writeAll_beyond hm ((length_mosaicOf _ _).trans_le he)⟩
  exact (read_writeAll_mosaicOf hm _ hr hc).trans (unpackAt_eq ..)

/-- Settles O14: the unpacker answers the same for both frames, and nothing else of UNPACK looks at `IBUF`. -/
theorem unpackIgnoresUnreadBytes : Obligations.UnpackIgnoresUnreadBytes := by
  intro s u hg hu hmagic hactive
  obtain ⟨m, rfl⟩ : ∃ m, u = { s with ibuf := m } := ⟨_, hu⟩
  exact ⟨_, rfl, congrArg _ (doUnpack_with_ibuf (unpackGrid_congr hg hmagic hactive))⟩

end

section
/-! SUPPORT. The Bayer stencil (42_demosaic.md R140 to R144): the colour of a site by its parities, the four sites of a
window in each parity case, and a pixel from its sites. -/

namespace Sys2Proof.Machine

variable {r c : Nat}

/-! The layout (R140). -/

theorem siteColour_green (h : r % 2 = c % 2) : siteColour r c = .green := if_pos (by omega)

theorem siteColour_red (hr : r % 2 = 1) (hc : c % 2 = 0) : siteColour r c = .red := by
  rw [siteColour, if_neg (by omega), if_pos hr]

theorem siteColour_blue (hr : r % 2 = 0) (hc : c % 2 = 1) : siteColour r c = .blue := by
  rw [siteColour, if_neg (by omega), if_neg (by omega)]

/-! The window (R142). -/

theorem greenSites_main (h : r % 2 = c % 2) : greenSites r c = ((r, c), (r + 1, c + 1)) := if_pos h

theorem greenSites_anti (h : r % 2 ≠ c % 2) : greenSites r c = ((r, c + 1), (r + 1, c)) := if_neg h

theorem siteColour_redSite (r c : Nat) : siteColour (redSite r c).1 (redSite r c).2 = .red :=
  siteColour_red (by simp only [redSite]; omega) (by simp only [redSite]; omega)

theorem siteColour_blueSite (r c : Nat) : siteColour (blueSite r c).1 (blueSite r c).2 = .blue :=
  siteColour_blue (by simp only [blueSite]; omega) (by simp only [blueSite]; omega)

theorem siteColour_greenSites (r c : Nat) : siteColour (greenSites r c).1.1 (greenSites r c).1.2 = .green ∧
    siteColour (greenSites r c).2.1 (greenSites r c).2.2 = .green := by
  by_cases h : r % 2 = c % 2
  · have h' : (r + 1) % 2 = (c + 1) % 2 := by omega
    rw [greenSites_main h]
    exact ⟨siteColour_green h, siteColour_green h'⟩
  · have h₁ : r % 2 = (c + 1) % 2 := by omega
    have h₂ : (r + 1) % 2 = c % 2 := by omega
    rw [greenSites_anti h]
    exact ⟨siteColour_green h₁, siteColour_green h₂⟩

theorem greenSites_diagonal (r c : Nat) :
    (greenSites r c).1.1 ≠ (greenSites r c).2.1 ∧ (greenSites r c).1.2 ≠ (greenSites r c).2.2 := by
  by_cases h : r % 2 = c % 2
  · simp [greenSites_main h]
  · simp [greenSites_anti h]

/-! The rows of the table of parity cases (R144). -/

theorem sites_even_even (hr : r % 2 = 0) (hc : c % 2 = 0) : redSite r c = (r + 1, c) ∧
    greenSites r c = ((r, c), (r + 1, c + 1)) ∧ blueSite r c = (r, c + 1) := by
  simp [redSite, greenSites, blueSite, hr, hc]

theorem sites_even_odd (hr : r % 2 = 0) (hc : c % 2 = 1) : redSite r c = (r + 1, c + 1) ∧
    greenSites r c = ((r, c + 1), (r + 1, c)) ∧ blueSite r c = (r, c) := by
  simp [redSite, greenSites, blueSite, hr, hc]

theorem sites_odd_even (hr : r % 2 = 1) (hc : c % 2 = 0) : redSite r c = (r, c) ∧
    greenSites r c = ((r, c + 1), (r + 1, c)) ∧ blueSite r c = (r + 1, c + 1) := by
  simp [redSite, greenSites, blueSite, hr, hc]

theorem sites_odd_odd (hr : r % 2 = 1) (hc : c % 2 = 1) : redSite r c = (r, c + 1) ∧
    greenSites r c = ((r, c), (r + 1, c + 1)) ∧ blueSite r c = (r + 1, c) := by
  simp [redSite, greenSites, blueSite, hr, hc]

/-- The sites of the window are the four taps in another order, in each parity case. -/
theorem mem_window_iff (site : Nat × Nat) : site ∈ [(r, c), (r, c + 1), (r + 1, c), (r + 1, c + 1)] ↔
    site ∈ [redSite r c, blueSite r c, (greenSites r c).1, (greenSites r c).2] := by
  rcases Nat.mod_two_eq_zero_or_one r with hr | hr <;> rcases Nat.mod_two_eq_zero_or_one c with hc | hc
  · simp only [sites_even_even hr hc, List.mem_cons, List.not_mem_nil, or_false]
    tauto
  · simp only [sites_even_odd hr hc, List.mem_cons, List.not_mem_nil, or_false]
    tauto
  · simp only [sites_odd_even hr hc, List.mem_cons, List.not_mem_nil, or_false]
    tauto
  · simp only [sites_odd_odd hr hc, List.mem_cons, List.not_mem_nil, or_false]
    tauto

/-- The pixel of a window whose sites are known, the two greens in either order (R143). -/
theorem demosaicPixel_of_sites {F : Type} (n : Num F) (k : Consts F) (m : Nat → Nat → Nat) {red g1 g2 blue : Nat × Nat}
    (hred : redSite r c = red) (hgreen : greenSites r c = (g1, g2) ∨ greenSites r c = (g2, g1))
    (hblue : blueSite r c = blue) : demosaicPixel n k m r c =
      ⟨n.fmul k.wr (n.ofInt (m red.1 red.2)), n.fmul (n.fmul k.half k.wg) (n.ofInt (m g1.1 g1.2 + m g2.1 g2.2)),
        n.fmul k.wb (n.ofInt (m blue.1 blue.2))⟩ := by
  subst hred hblue
  rcases hgreen with hgreen | hgreen
  · rw [demosaicPixel, hgreen]
    rfl
  · rw [demosaicPixel, hgreen, Nat.add_comm]
    rfl

end Sys2Proof.Machine

open Sys2Proof Sys2Proof.Machine

/-- Settles O15: the colours of the taps by their parities, the diagonal, and the window site by site. -/
theorem demosaicSitesHaveTheirColour : Obligations.DemosaicSitesHaveTheirColour := by
  intro r c
  obtain ⟨hgreen₁, hgreen₂⟩ := siteColour_greenSites r c
  obtain ⟨hrow, hcol⟩ := greenSites_diagonal r c
  exact ⟨siteColour_redSite r c, siteColour_blueSite r c, hgreen₁, hgreen₂, hrow, hcol, mem_window_iff⟩

/-- Settles O17: the stage at `B64` (O60) writes the pixel of the model's stencil, which each row of the table of parity
cases names; for odd rows the table lists the greens in the other order. -/
theorem demosaicWritesPixels : Obligations.DemosaicWritesPixels := by
  intro s ha hv hm
  obtain ⟨m, hnext, hpixel, hrest⟩ := (anyNumStagesWriteResults 64 b64 s ha).1 hv hm
  rw [execOf_b64] at hnext
  refine ⟨m, hnext, fun r c hrow hcol => ?_, hrest⟩
  have taps {red g1 g2 blue} (hred : redSite r c = red)
      (hgreen : greenSites r c = (g1, g2) ∨ greenSites r c = (g2, g1)) (hblue : blueSite r c = blue) :=
    (hpixel r c hrow hcol).trans (demosaicPixel_of_sites b64 _ _ hred hgreen hblue)
  refine ⟨fun hr hc => ?_, fun hr hc => ?_, fun hr hc => ?_, fun hr hc => ?_⟩
  · obtain ⟨hred, hgreen, hblue⟩ := sites_even_even hr hc
    exact (taps hred (.inl hgreen) hblue :)
  · obtain ⟨hred, hgreen, hblue⟩ := sites_even_odd hr hc
    exact (taps hred (.inl hgreen) hblue :)
  · obtain ⟨hred, hgreen, hblue⟩ := sites_odd_even hr hc
    exact (taps hred (.inr hgreen) hblue :)
  · obtain ⟨hred, hgreen, hblue⟩ := sites_odd_odd hr hc
    exact (taps hred (.inr hgreen) hblue :)

/-- Settles O16, from the colour by parities. -/
theorem mosaicLayoutByParity : Obligations.MosaicLayoutByParity := fun _ _ =>
  ⟨siteColour_green (by omega), siteColour_blue (by omega) (by omega), siteColour_red (by omega) (by omega),
    siteColour_green (by omega)⟩

/-- Settles O18: the weights 1, 7/10 and 9/10 and the factor 1/2 as real numbers, multiplied channel by channel. -/
theorem demosaicRealReference : Obligations.DemosaicRealReference := by
  intro ccm m r c
  simp only [demosaicPixel, sourceConsts, realNum, Rgb.mk.injEq]
  push_cast
  refine ⟨?_, ?_, ?_⟩ <;> ring

end

section
/-! SUPPORT. The colour transform (43_correct.md R161, R164): operations of `B64` whose exact result is a value of the format,
such as products by 1 and by 0, and a channel under `REAL` as a linear form of the pixel. -/

namespace Sys2Proof.Machine

namespace B64

theorem abs_signed (s : Bool) (x : ℝ) : |signed s x| = |x| := by
  cases s
  · rfl
  · exact abs_neg x

/-- A finite value that is exactly the real number `x`. -/
def Exactly (r : F64) (x : ℝ) : Prop := isFinite r = true ∧ toReal r = x

theorem Exactly.of_isFinite {r : F64} (h : isFinite r = true) : Exactly r (toReal r) := ⟨h, rfl⟩

/-- Rounding does not change a number that is a value of the format (R104), but for the sign of a zero. -/
theorem Rounded.exactly {r c : F64} {x : ℝ} (h : Rounded r x) (hc : Exactly c x) : Exactly r x := by
  obtain ⟨hfin, rfl⟩ := hc
  obtain ⟨s, num, den, hd, rfl, hreal⟩ := h
  have hmag : magBits c < infBits := of_decide_eq_true hfin
  have hsigned : (value c : ℝ) = signed s ((num : ℝ) / den) := (div_left_inj' (by positivity)).1 hreal
  have hunits : (num : ℝ) / den = unitsOf (magBits c) := calc
    (num : ℝ) / den = |signed s ((num : ℝ) / den)| := by rw [abs_signed, abs_of_nonneg (by positivity)]
    _ = |(value c : ℝ)| := by rw [hsigned]
    _ = unitsOf (magBits c) := by rw [value_cast, abs_signed, Nat.abs_cast]
  have hnum : num = unitsOf (magBits c) * den := by
    exact_mod_cast (div_eq_iff (Nat.cast_ne_zero.2 hd.ne')).1 hunits
  rw [hnum, roundMag_unitsOf .nearest hd hmag.le]
  refine ⟨isFinite_mk hmag, ?_⟩
  rw [toReal, toReal, value_mk hmag.le, hsigned, hunits]

theorem Exactly.ofRat_zero : Exactly (ofRat 0) 0 := by
  rw [show ofRat 0 = ofInt 0 by decide +kernel]
  exact_mod_cast ofInt_exact (k := 0) (by decide)

theorem Exactly.ofRat_one : Exactly (ofRat 1) 1 := by
  rw [show ofRat 1 = ofInt 1 by decide +kernel]
  exact_mod_cast ofInt_exact (k := 1) (by decide)

section
variable {a b : F64} {x y : ℝ}

theorem Exactly.fmul_rounded (ha : Exactly a x) (hb : Exactly b y) : Rounded (fmul a b) (x * y) :=
  ha.2 ▸ hb.2 ▸ B64.fmul_rounded ha.1 hb.1

theorem Exactly.fadd_rounded (ha : Exactly a x) (hb : Exactly b y) : Rounded (fadd a b) (x + y) :=
  ha.2 ▸ hb.2 ▸ B64.fadd_rounded ha.1 hb.1

theorem Exactly.fmul_one (ha : Exactly a x) : Exactly (fmul a (ofRat 1)) x :=
  (mul_one x ▸ ha.fmul_rounded ofRat_one).exactly ha

theorem Exactly.fmul_zero (ha : Exactly a x) : Exactly (fmul a (ofRat 0)) 0 :=
  (mul_zero x ▸ ha.fmul_rounded ofRat_zero).exactly ofRat_zero

theorem Exactly.fadd_zero (ha : Exactly a x) (hb : Exactly b 0) : Exactly (fadd a b) x :=
  (add_zero x ▸ ha.fadd_rounded hb).exactly ha

theorem Exactly.zero_fadd (ha : Exactly a 0) (hb : Exactly b x) : Exactly (fadd a b) x :=
  (zero_add x ▸ ha.fadd_rounded hb).exactly hb

/-- `feq` holds of two values that are one real number (R100). -/
theorem Exactly.feq (ha : Exactly a x) (hb : Exactly b x) : feq a b = true := by
  have hreal : toReal a = toReal b := ha.2.trans hb.2.symm
  rw [feq_iff (not_isNaN_of_finite ha.1) (not_isNaN_of_finite hb.1)]
  exact le_antisymm (toReal_le_toReal_iff.1 hreal.le) (toReal_le_toReal_iff.1 hreal.ge)

end

end B64

/-- Under `REAL` a channel is linear in the pixel (R164). -/
theorem correctChannel_real_linear (q : Rgb (Rgb ℝ)) (x y : Rgb ℝ) (a b : ℝ) (j : Nat) :
    correctChannel realNum q ⟨a * x.r + b * y.r, a * x.g + b * y.g, a * x.b + b * y.b⟩ j =
      a * correctChannel realNum q x j + b * correctChannel realNum q y j := by
  simp only [correctChannel, realNum]
  ring

end Sys2Proof.Machine

open Sys2Proof Sys2Proof.Machine

/-- Settles O20: the stage at `B64` (O60) writes the pixel times the matrix, whose channel `j` reads column `j` (R161). -/
theorem correctWritesProducts : Obligations.CorrectWritesProducts := by
  intro s ha hv hm
  obtain ⟨m, hnext, hpixel, hrest⟩ := (anyNumStagesWriteResults 64 b64 s ha).2.1 hv hm
  rw [execOf_b64] at hnext
  exact ⟨m, hnext, hpixel, hrest⟩

/-- Settles O22: of the three products of a channel one is the channel itself and two are zeros, so each sum is exact. -/
theorem correctIdentityMatrix : Obligations.CorrectIdentityMatrix := by
  intro x hx
  simp only [rgbAll, Bool.and_eq_true] at hx
  obtain ⟨⟨hr, hg⟩, hb⟩ := hx
  replace hr := B64.Exactly.of_isFinite hr
  replace hg := B64.Exactly.of_isFinite hg
  replace hb := B64.Exactly.of_isFinite hb
  exact ⟨((hr.fmul_one.fadd_zero hg.fmul_zero).fadd_zero hb.fmul_zero).feq hr,
    ((hr.fmul_zero.zero_fadd hg.fmul_one).fadd_zero hb.fmul_zero).feq hg,
    ((hr.fmul_zero.fadd_zero hg.fmul_zero).zero_fadd hb.fmul_one).feq hb⟩

/-- Settles O21, channel by channel. -/
theorem correctLinearReal : Obligations.CorrectLinearReal := by
  intro q x y a b
  simp only [correctPixel, correctChannel_real_linear]

end

section
/-! SUPPORT. The tone mapper's answers by the test that decides each (44_tonemap.md R173, R177, R180), and the domain test
of an image in memory element by element. -/

namespace Sys2Proof.Machine

section

variable {F : Type} {n : Num F} {off : F} {xs : List F}

theorem tonemapImage_logDomain (hd : allInDomain n off xs = false) : tonemapImage n off xs = .error .logDomain := by
  simp [tonemapImage, hd]

theorem tonemapImage_zeroRange (hd : allInDomain n off xs = true)
    (hf : n.feq (greatestOf n (logImage n off xs)) (leastOf n (logImage n off xs)) = true) :
    tonemapImage n off xs = .error .zeroRange := by
  simp [tonemapImage, hd, hf]

theorem tonemapImage_ok (hd : allInDomain n off xs = true)
    (hf : n.feq (greatestOf n (logImage n off xs)) (leastOf n (logImage n off xs)) = false) :
    tonemapImage n off xs = .ok ⟨leastOf n (logImage n off xs), greatestOf n (logImage n off xs),
      (logImage n off xs).map (normalise n (leastOf n (logImage n off xs)) (greatestOf n (logImage n off xs)))⟩ := by
  simp [tonemapImage, hd, hf]

end

variable {fw : Nat} {n : Num (BitVec fw)} {off : BitVec fw} {g : Geometry} {m : Memory fw}

theorem allInDomain_imageElems_iff : allInDomain n off (imageElems g m) = true ↔
    ∀ e, e < g.imageCount → inLogDomain n (n.fadd (Memory.read m e) off) = true := by
  simp [allInDomain, imageElems, logArgument]

theorem getD_map_logImage (f : BitVec fw → BitVec fw) {e : Nat} (he : e < g.imageCount) :
    ((logImage n off (imageElems g m)).map f).getD e 0 = f (n.fln (n.fadd (Memory.read m e) off)) := by
  simp [logImage, logArgument, imageElems, he]

/-- The domain test under the default `NUM` (R173). -/
theorem allInDomain_b64_iff {off : F64} {g : Geometry} {m : Memory 64} : allInDomain b64 off (imageElems g m) = true ↔
    ∀ e, e < g.imageCount → B64.isFinite (B64.fadd (Memory.read m e) off) = true ∧
      B64.flt (B64.ofInt 0) (B64.fadd (Memory.read m e) off) = true :=
  allInDomain_imageElems_iff.trans (forall₂_congr fun _ _ => B64.inLogDomain_b64_iff)

end Sys2Proof.Machine

open Sys2Proof Sys2Proof.Machine

/-- Settles O23: the stage at `B64` (O60) writes the image that passes both tests. -/
theorem tonemapWritesNormalisedImage : Obligations.TonemapWritesNormalisedImage := by
  intro s ha hv hm logs mn mx hdom hrange
  have ht := tonemapImage_ok (allInDomain_b64_iff.2 hdom) hrange
  obtain ⟨m, hnext, hout, hrest⟩ := ((anyNumStagesWriteResults 64 b64 s ha).2.2 hv hm).1 _ ht
  rw [execOf_b64] at hnext
  exact ⟨m, hnext, fun e he => (hout e he).trans (getD_map_logImage _ he), hrest⟩

/-- Settles O24: were the test of the whole image passed, the one element would be in the domain (R176). -/
theorem tonemapDomainFaults : Obligations.TonemapDomainFaults := by
  intro s e ha hv he hout
  have hd : allInDomain b64 s.cfg.consts.logOffset (imageElems s.cfg.geom s.f1) = false := by
    refine Bool.eq_false_iff.2 fun hall => ?_
    obtain ⟨hfin, hpos⟩ := allInDomain_b64_iff.1 hall e he
    exact hout.elim (ne_false_of_eq_true hfin) (ne_false_of_eq_true hpos)
  rw [← execOf_b64]
  exact ⟨_, _, _, execOf_tonemap_error ha hv (tonemapImage_logDomain hd)⟩

/-- Settles O25: the domain test passes, and the range test fails. -/
theorem tonemapZeroRangeFaults : Obligations.TonemapZeroRangeFaults := by
  intro s ha hv logs hdom hrange
  have ht := tonemapImage_zeroRange (allInDomain_b64_iff.2 hdom) hrange
  rw [← execOf_b64]
  exact ⟨_, _, _, execOf_tonemap_error ha hv ht⟩

/-- Settles O26: a fold that keeps one of two values keeps a member (`foldl_choose_mem`), and an extreme one
(`foldl_choose_extreme`). -/
theorem reductionFindsExtremes : Obligations.ReductionFindsExtremes := fun _ n _ hn hne hfin =>
  ⟨leastOf_mem n hne, greatestOf_mem n hne, fun x hx => ⟨leastOf_extreme hn hfin x hx, greatestOf_extreme hn hfin x hx⟩⟩

end

section
/-! SUPPORT. Pass 2 over any `NUM` with the properties of R106 (44_tonemap.md R179): normalisation is monotone and sends the
least logarithm to 0 and the greatest to 1. `n.flt b a = false` is read as `a` at most `b`. -/

namespace Sys2Proof.Machine

section

variable {F : Type} {n : Num F}

theorem NumLawful.feq_refl (hn : NumLawful n) {a : F} (ha : n.isFinite a = true) : n.feq a a = true :=
  (hn.eq_iff a a ha ha).2 ⟨hn.lt_irrefl a ha, hn.lt_irrefl a ha⟩

theorem NumLawful.zero_finite (hn : NumLawful n) : n.isFinite (n.ofInt 0) = true := hn.int_finite 0 (by decide)

theorem NumLawful.one_finite (hn : NumLawful n) : n.isFinite (n.ofInt 1) = true := hn.int_finite 1 (by decide)

theorem NumLawful.isFinite_fln (hn : NumLawful n) {x : F} (h : inLogDomain n x = true) : n.isFinite (n.fln x) = true := by
  rw [inLogDomain, Bool.and_eq_true] at h
  exact hn.ln_finite x h.1 h.2

/-- An image in the domain has finite logarithms (N6). -/
theorem isFinite_of_mem_logImage (hn : NumLawful n) {off : F} {xs : List F} (hd : allInDomain n off xs = true) :
    ∀ v ∈ logImage n off xs, n.isFinite v = true :=
  List.forall_mem_map.2 fun v hv => hn.isFinite_fln (List.all_eq_true.1 hd v hv)

/-- The range of two different extremes is strictly positive (R177): monotone subtraction keeps it from being negative, and
no difference underflows to zero. -/
theorem NumLawful.range_pos (hn : NumLawful n) {mn mx : F} (hmn : n.isFinite mn = true) (hmx : n.isFinite mx = true)
    (hzero : n.isFinite (n.fsub mn mn) = true) (hrng : n.isFinite (n.fsub mx mn) = true) (hle : n.flt mx mn = false)
    (hne : n.feq mx mn = false) : n.flt (n.ofInt 0) (n.fsub mx mn) = true := by
  have hselfzero := (hn.eq_iff _ _ hzero hn.zero_finite).1 (hn.sub_self mn hmn)
  have hnonneg : n.flt (n.fsub mx mn) (n.ofInt 0) = false :=
    hn.not_lt_trans _ _ _ hn.zero_finite hzero hrng hselfzero.1 (hn.sub_mono mn mx mn hmn hmx hmn hle)
  by_contra hpos
  have heq := (hn.eq_iff _ _ hrng hn.zero_finite).2 ⟨hnonneg, Bool.eq_false_iff.2 hpos⟩
  exact ne_false_of_eq_true ((hn.sub_zero_iff mx mn hmx hmn).1 heq) hne

/-- Two finite extremes with a finite, positive range, and values whose differences from the least one are finite: what pass
2 works on where no difference overflows. -/
structure Rangeable (n : Num F) (mn mx : F) (logs : List F) : Prop where
  mn_mem : mn ∈ logs
  mx_mem : mx ∈ logs
  isFinite : ∀ v ∈ logs, n.isFinite v = true
  sub_finite : ∀ v ∈ logs, n.isFinite (n.fsub v mn) = true
  mn_le : ∀ v ∈ logs, n.flt v mn = false
  le_mx : ∀ v ∈ logs, n.flt mx v = false
  range_pos : n.flt (n.ofInt 0) (n.fsub mx mn) = true

namespace Rangeable

variable {mn mx : F} {logs : List F}

theorem range_finite (h : Rangeable n mn mx logs) : n.isFinite (n.fsub mx mn) = true := h.sub_finite mx h.mx_mem

theorem normalise_mono (h : Rangeable n mn mx logs) (hn : NumLawful n) {u v : F} (hu : u ∈ logs) (hv : v ∈ logs)
    (huv : n.flt v u = false) : n.flt (normalise n mn mx v) (normalise n mn mx u) = false :=
  hn.div_mono _ _ _ (h.sub_finite u hu) (h.sub_finite v hv) h.range_finite h.range_pos
    (hn.sub_mono u v mn (h.isFinite u hu) (h.isFinite v hv) (h.isFinite mn h.mn_mem) huv)

theorem normalise_feq_zero (h : Rangeable n mn mx logs) (hn : NumLawful n) {v : F} (hv : v ∈ logs)
    (heq : n.feq v mn = true) : n.feq (normalise n mn mx v) (n.ofInt 0) = true :=
  hn.zero_div _ _ (h.sub_finite v hv) ((hn.sub_zero_iff v mn (h.isFinite v hv) (h.isFinite mn h.mn_mem)).2 heq)
    h.range_finite h.range_pos

theorem normalise_mx (h : Rangeable n mn mx logs) (hn : NumLawful n) : normalise n mn mx mx = n.ofInt 1 :=
  hn.div_self _ h.range_finite h.range_pos

/-- An output is at most 1. -/
theorem normalise_le_one (h : Rangeable n mn mx logs) (hn : NumLawful n) {v : F} (hv : v ∈ logs) :
    n.flt (n.ofInt 1) (normalise n mn mx v) = false :=
  h.normalise_mx hn ▸ h.normalise_mono hn hv h.mx_mem (h.le_mx v hv)

theorem normalise_feq_one (h : Rangeable n mn mx logs) (hn : NumLawful n) {v : F} (hv : v ∈ logs)
    (hfin : n.isFinite (normalise n mn mx v) = true) (heq : n.feq v mx = true) :
    n.feq (normalise n mn mx v) (n.ofInt 1) = true := by
  have hge : n.flt (normalise n mn mx v) (n.ofInt 1) = false :=
    h.normalise_mx hn ▸ h.normalise_mono hn h.mx_mem hv
      ((hn.eq_iff v mx (h.isFinite v hv) (h.isFinite mx h.mx_mem)).1 heq).1
  exact (hn.eq_iff _ _ hfin hn.one_finite).2 ⟨hge, h.normalise_le_one hn hv⟩

/-- An output is at least that of the least logarithm, which is 0. -/
theorem zero_le_normalise (h : Rangeable n mn mx logs) (hn : NumLawful n) {v : F} (hv : v ∈ logs)
    (hfin : ∀ u ∈ logs, n.isFinite (normalise n mn mx u) = true) : n.flt (normalise n mn mx v) (n.ofInt 0) = false := by
  have hmn := hfin mn h.mn_mem
  have hzero := h.normalise_feq_zero hn h.mn_mem (hn.feq_refl (h.isFinite mn h.mn_mem))
  exact hn.not_lt_trans _ _ _ hn.zero_finite hmn (hfin v hv) ((hn.eq_iff _ _ hmn hn.zero_finite).1 hzero).1
    (h.normalise_mono hn h.mn_mem hv (h.mn_le v hv))

end Rangeable

/-- What TONEMAP completes with (R170, R177), where no difference of logarithms overflows. -/
theorem rangeable_of_tonemapImage (hn : NumLawful n) {off : F} {xs : List F} {t : Toned F} (hne : xs ≠ [])
    (h : tonemapImage n off xs = .ok t)
    (hsub : ∀ a ∈ logImage n off xs, ∀ b ∈ logImage n off xs, n.isFinite (n.fsub a b) = true) :
    Rangeable n t.mn t.mx (logImage n off xs) ∧ t.out = (logImage n off xs).map (normalise n t.mn t.mx) := by
  rcases tonemapImage_cases n off xs with ⟨-, he⟩ | ⟨-, -, he⟩ | ⟨hd, hf, he⟩ <;> rw [he] at h <;> cases h
  have hlogs : logImage n off xs ≠ [] := mt List.map_eq_nil_iff.1 hne
  have hfin := isFinite_of_mem_logImage hn hd
  have hmn := leastOf_mem n hlogs
  have hmx := greatestOf_mem n hlogs
  have hleast := leastOf_extreme hn hfin
  exact ⟨⟨hmn, hmx, hfin, fun v hv => hsub v hv _ hmn, hleast, greatestOf_extreme hn hfin,
    hn.range_pos (hfin _ hmn) (hfin _ hmx) (hsub _ hmn _ hmn) (hsub _ hmx _ hmn) (hleast _ hmx) hf⟩, rfl⟩

theorem logImage_replicate (off v : F) (k : Nat) :
    logImage n off (List.replicate k v) = List.replicate k (n.fln (n.fadd v off)) := List.map_replicate

theorem allInDomain_replicate (off v : F) {k : Nat} (hk : 0 < k) :
    allInDomain n off (List.replicate k v) = inLogDomain n (n.fadd v off) := by
  simp [allInDomain, logArgument, hk.ne']

/-- Every member of a uniform list is its one value, the two extremes too. -/
theorem extremes_replicate (n : Num F) (x : F) {k : Nat} (hk : 0 < k) :
    leastOf n (List.replicate k x) = x ∧ greatestOf n (List.replicate k x) = x :=
  have hne : List.replicate k x ≠ [] := List.ne_nil_of_length_pos (List.length_replicate.symm ▸ hk)
  ⟨List.eq_of_mem_replicate (leastOf_mem n hne), List.eq_of_mem_replicate (greatestOf_mem n hne)⟩

end

end Sys2Proof.Machine

open Sys2Proof Sys2Proof.Machine

/-- Settles O28: pass 2 is monotone, and every logarithm lies between the two extremes. -/
theorem tonemapBounds : Obligations.TonemapBounds := by
  intro F n off xs t hn hne ht hsub hfin
  obtain ⟨hrange, hout⟩ := rangeable_of_tonemapImage hn hne ht hsub
  rw [hout, List.forall_mem_map] at hfin
  rw [hout, List.forall_mem_map]
  have hmx := hrange.mx_mem
  have hmn := hrange.mn_mem
  exact ⟨by simp [logImage],
    fun v hv => ⟨hfin v hv, hrange.zero_le_normalise hn hv hfin, hrange.normalise_le_one hn hv⟩,
    fun v hv heq => hrange.normalise_feq_zero hn hv heq,
    fun v hv heq => hrange.normalise_feq_one hn hv (hfin v hv) heq,
    ⟨_, List.mem_map_of_mem hmn, hrange.normalise_feq_zero hn hmn (hn.feq_refl (hrange.isFinite _ hmn))⟩,
    ⟨_, List.mem_map_of_mem hmx, hrange.normalise_feq_one hn hmx (hfin _ hmx) (hn.feq_refl (hrange.isFinite _ hmx))⟩⟩

/-- Settles O29: both extremes are the one logarithm, which is equal to itself as it is finite. -/
theorem uniformImageFaults : Obligations.UniformImageFaults := by
  intro F n off v k hn hk
  have hdom := allInDomain_replicate (n := n) off v hk
  cases hv : inLogDomain n (n.fadd v off) with
  | false => exact tonemapImage_logDomain (hdom.trans hv)
  | true =>
    rw [if_pos rfl]
    refine tonemapImage_zeroRange (hdom.trans hv) ?_
    obtain ⟨hleast, hgreatest⟩ := extremes_replicate n (n.fln (n.fadd v off)) hk
    rw [logImage_replicate, hleast, hgreatest]
    exact hn.feq_refl (hn.isFinite_fln hv)

end

section
/-! SUPPORT. The sequence of stages (45_control.md R190, R191): no stage looks at `BUSY`, at the host's script or at the last
answer, so a stage command after another command is the next stage of RUN, but for what the host got back. -/

namespace Sys2Proof.Machine

variable {fw : Nat} {n : Num (BitVec fw)} {body : Block.State fw → Block.State fw}

/-- A state with another `BUSY` and the model's fields of the host's side, its script and the last answer. -/
def Block.State.withHost (s : Block.State fw) (b : Bool) (k : List (TransactionOf fw)) (r : ResponseOf fw) :
    Block.State fw :=
  { s with busy := b, script := k, response := r }

/-- A body whose effect does not depend on `BUSY`, the script and the last answer, and that leaves the script alone. -/
def HostBlind (body : Block.State fw → Block.State fw) : Prop :=
  ∀ s b k r, ∃ b' r', body (s.withHost b k r) = (body s).withHost b' k r'

theorem hostBlind_unpackBody : HostBlind (unpackBody (fw := fw)) := by
  intro s b k r
  cases hv : s.valid.ibuf with
  | false =>
    rw [unpackBody_notValid hv, unpackBody_notValid (s := s.withHost b k r) hv]
    exact ⟨false, r, rfl⟩
  | true =>
    cases hg : unpackGrid s.cfg.geom (Memory.read s.ibuf) s.inLen.toNat with
    | error c =>
      rw [unpackBody_error hv hg, unpackBody_error (s := s.withHost b k r) hv hg]
      exact ⟨false, r, rfl⟩
    | ok samples =>
      rw [unpackBody_ok hv hg, unpackBody_ok (s := s.withHost b k r) hv hg]
      exact ⟨b, r, rfl⟩

theorem hostBlind_demosaicBody : HostBlind (demosaicBody n) := by
  intro s b k r
  cases hv : s.valid.mosaic with
  | false =>
    rw [demosaicBody_notValid n hv, demosaicBody_notValid n (s := s.withHost b k r) hv]
    exact ⟨false, r, rfl⟩
  | true =>
    rw [demosaicBody_ok n hv, demosaicBody_ok n (s := s.withHost b k r) hv]
    exact ⟨b, r, rfl⟩

theorem hostBlind_correctBody : HostBlind (correctBody n) := by
  intro s b k r
  cases hv : s.valid.f0 with
  | false =>
    rw [correctBody_notValid n hv, correctBody_notValid n (s := s.withHost b k r) hv]
    exact ⟨false, r, rfl⟩
  | true =>
    rw [correctBody_ok n hv, correctBody_ok n (s := s.withHost b k r) hv]
    exact ⟨b, r, rfl⟩

theorem hostBlind_tonemapBody : HostBlind (tonemapBody n) := by
  intro s b k r
  cases hv : s.valid.f1 with
  | false =>
    rw [tonemapBody_notValid n hv, tonemapBody_notValid n (s := s.withHost b k r) hv]
    exact ⟨false, r, rfl⟩
  | true =>
    cases ht : tonemapImage n s.cfg.consts.logOffset (imageElems s.cfg.geom s.f1) with
    | error c =>
      rw [tonemapBody_error n hv ht, tonemapBody_error n (s := s.withHost b k r) hv ht]
      exact ⟨false, r, rfl⟩
    | ok t =>
      rw [tonemapBody_ok n hv ht, tonemapBody_ok n (s := s.withHost b k r) hv ht]
      exact ⟨b, r, rfl⟩

namespace HostBlind

theorem thenStage {next : Block.State fw → Block.State fw} (hbody : HostBlind body) (hnext : HostBlind next) :
    HostBlind fun s => Machine.thenStage next (body s) := by
  intro s b k r
  obtain ⟨b', r', h⟩ := hbody s b k r
  simp only [h]
  by_cases he : (body s).err = 0
  · rw [thenStage_clean he, thenStage_clean (s := (body s).withHost b' k r') he]
    exact hnext (body s) b' k r'
  · rw [thenStage_faulted he, thenStage_faulted (s := (body s).withHost b' k r') he]
    exact ⟨b', r', rfl⟩

theorem runBody : HostBlind (runBody n) :=
  ((hostBlind_unpackBody.thenStage hostBlind_demosaicBody).thenStage hostBlind_correctBody).thenStage
    hostBlind_tonemapBody

/-- The end of a command makes good what `BUSY` and the last answer were before it. -/
theorem endCommand (h : HostBlind body) (s : Block.State fw) (b : Bool) (k : List (TransactionOf fw))
    (r : ResponseOf fw) : endCommand (body (s.withHost b k r)) = { Machine.endCommand (body s) with script := k } := by
  obtain ⟨b', r', hs⟩ := h s b k r
  rw [hs]
  rfl

/-- A command does the same whatever the host will issue after it. -/
theorem command_with_script (h : HostBlind body) (s : Block.State fw) (k : List (TransactionOf fw)) :
    command body { s with script := k } = { command body s with script := k } := by
  by_cases ha : s.accepts
  · rw [command_accepted ha, command_accepted (s := { s with script := k }) ha]
    exact h.endCommand (startCommand s) true k s.response
  · rw [command_refused ha, command_refused (s := { s with script := k }) ha]
    rfl

/-- A command issued after another one does what the next stage of RUN does: its body where no fault was raised (R84),
nothing where one was (R190). -/
theorem command_after (h : HostBlind body) (s : Block.State fw) (r : ResponseOf fw) :
    ∃ r', command body (respond r (Machine.endCommand s)) =
      respond r' (Machine.endCommand (Machine.thenStage body s)) := by
  by_cases he : s.err = 0
  · have ha : (respond r (Machine.endCommand s)).accepts := ⟨rfl, he⟩
    rw [thenStage_clean he, command_accepted ha]
    refine ⟨.done, ?_⟩
    exact (h.endCommand s true s.script r).trans (h.endCommand s s.busy s.script s.response).symm
  · have hr : ¬ (respond r (Machine.endCommand s)).accepts := fun ha => he ha.2
    rw [thenStage_faulted he, command_refused hr]
    exact ⟨.refused, rfl⟩

end HostBlind

/-- The four stage commands in order leave what RUN leaves, but for the last answer (R191). -/
theorem stageCommands_eq_doRun (n : Num (BitVec fw)) (s : Block.State fw) :
    ∃ r, doTonemap n (doCorrect n (doDemosaic n (doUnpack s))) = respond r (doRun n s) := by
  by_cases ha : s.accepts
  · obtain ⟨r₁, h₁⟩ := (hostBlind_demosaicBody (n := n)).command_after (unpackBody (startCommand s)) .done
    obtain ⟨r₂, h₂⟩ := (hostBlind_correctBody (n := n)).command_after _ r₁
    obtain ⟨r₃, h₃⟩ := (hostBlind_tonemapBody (n := n)).command_after _ r₂
    have hunpack : doUnpack s = respond .done (endCommand (unpackBody (startCommand s))) := command_accepted ha _
    have hrun : doRun n s = endCommand (runBody n (startCommand s)) := command_accepted ha _
    rw [hunpack, doDemosaic, h₁, doCorrect, h₂, doTonemap, h₃, hrun]
    exact ⟨r₃, rfl⟩
  · have hrefuse (body : Block.State fw → Block.State fw) : command body (refuse s) = refuse s :=
      command_refused (s := refuse s) ha body
    rw [doUnpack, command_refused ha, doDemosaic, hrefuse, doCorrect, hrefuse, doTonemap, hrefuse, doRun,
      command_refused ha]
    exact ⟨.refused, rfl⟩

/-- One step of a script that begins with a command other than CLEAR. -/
theorem run_scriptCmd_cons {body : State → State} (h : HostBlind body) {i : Instr}
    (hi : ∀ s, exec i s = .next (command body s)) (j : Nat) (s : State) (k : List Transaction) :
    Host.Core.run Sys2Proof.core (j + 1) { s with script := scriptCmd i :: k } =
      Host.Core.run Sys2Proof.core j { command body s with script := k } := by
  have hstep : Sys2Proof.core.step { s with script := scriptCmd i :: k } = .next { command body s with script := k } := calc
    step { s with script := scriptCmd i :: k } = exec i { s with script := k } :=
      stepRunsDecodedCommand.2.2.1 _ (encode i) i k rfl (decode_encode i)
    _ = .next { command body s with script := k } := by rw [hi, h.command_with_script]
  simp only [Host.Core.run, hstep]

end Sys2Proof.Machine

open Sys2Proof Sys2Proof.Machine

/-- Settles O33: both scripts are run command by command, and the four commands compose to RUN's body. -/
theorem runEqualsStages : Obligations.RunEqualsStages := by
  intro s rest
  obtain ⟨r, hstages⟩ := stageCommands_eq_doRun b64 s
  refine ⟨{ doRun b64 s with script := rest }, { respond r (doRun b64 s) with script := rest },
    run_scriptCmd_cons .runBody (fun _ => rfl) 0 s rest, ?_, rfl, rfl⟩
  rw [← hstages]
  calc Host.Core.run Sys2Proof.core 4 { s with script := scriptStages ++ rest }
      = Host.Core.run Sys2Proof.core 3 { doUnpack s with
          script := scriptCmd .demosaic :: scriptCmd .correct :: scriptCmd .tonemap :: rest } :=
        run_scriptCmd_cons hostBlind_unpackBody (fun _ => rfl) 3 s _
    _ = Host.Core.run Sys2Proof.core 2 { doDemosaic b64 (doUnpack s) with
          script := scriptCmd .correct :: scriptCmd .tonemap :: rest } :=
        run_scriptCmd_cons hostBlind_demosaicBody (fun _ => rfl) 2 _ _
    _ = Host.Core.run Sys2Proof.core 1 { doCorrect b64 (doDemosaic b64 (doUnpack s)) with
          script := scriptCmd .tonemap :: rest } :=
        run_scriptCmd_cons hostBlind_correctBody (fun _ => rfl) 1 _ _
    _ = .next { doTonemap b64 (doCorrect b64 (doDemosaic b64 (doUnpack s))) with script := rest } :=
        run_scriptCmd_cons hostBlind_tonemapBody (fun _ => rfl) 0 _ rest

end

section
/-! SUPPORT. The four stages of RUN on one frame (45_control.md R190): a stage whose input buffer holds given elements
writes what the pure functions of those elements say. -/

namespace Sys2Proof.Machine

/-! Reading a buffer that holds given elements (20_memory.md R51). -/

theorem Memory.holds_writeAll {w : Nat} {m : Memory w} (hm : Memory.wf m) (vs : List (BitVec w)) :
    (Memory.writeAll m vs).holds vs m := Memory.read_writeAll hm vs

theorem Memory.holds.read {w : Nat} {m old : Memory w} {vs : List (BitVec w)} (h : m.holds vs old) {e : Nat}
    (he : e < vs.length) : Memory.read m e = vs.getD e 0 :=
  (h e).trans (if_pos he)

theorem mosaicAt_of_holds {g : Geometry} {m old : Memory 16} {samples : List Sample} (h : m.holds samples old)
    (hlen : samples.length = g.mosaicCount) {r c : Nat} (hr : r < g.h) (hc : c < g.w) :
    mosaicAt g m r c = (samples.getD (g.mosaicIndex r c) 0).toNat :=
  congrArg BitVec.toNat (h.read ((mosaicIndex_lt hr hc).trans_eq hlen.symm))

theorem pixelAt_of_holds {g : Geometry} {m old : Memory 64} {xs : List F64} (h : m.holds xs old)
    (hlen : xs.length = g.imageCount) {r c : Nat} (hr : r < g.h - 1) (hc : c < g.w - 1) :
    pixelAt g m r c = pixelOf g xs r c := by
  have hread {k : Nat} (hk : k < 3) : Memory.read m (g.imageIndex r c k) = xs.getD (g.imageIndex r c k) 0 :=
    h.read ((imageIndex_lt hr hc hk).trans_eq hlen.symm)
  rw [pixelAt, hread (by decide), hread (by decide), hread (by decide), pixelOf]

theorem imageElems_of_holds {fw : Nat} {g : Geometry} {m old : Memory fw} {xs : List (BitVec fw)} (h : m.holds xs old)
    (hlen : xs.length = g.imageCount) : imageElems g m = xs := by
  refine List.ext_getElem ((length_imageElems g m).trans hlen.symm) fun e _ he => ?_
  simp only [imageElems, List.getElem_map, List.getElem_range]
  rw [h.read he, List.getD_eq_getElem _ _ he]

/-! Images by their pixels. -/

theorem imageOf_congr {α : Type} {g : Geometry} {f f' : Nat → Nat → Rgb α}
    (h : ∀ r c, r < g.h - 1 → c < g.w - 1 → f r c = f' r c) : imageOf g f = imageOf g f' := by
  refine List.map_congr_left fun e he => ?_
  have hpix : e / 3 < (g.w - 1) * (g.h - 1) := by
    rw [Nat.mul_comm]
    exact Nat.div_lt_of_lt_mul ((List.mem_range.1 he).trans_eq (Nat.mul_comm _ _))
  rw [h _ _ (Nat.div_lt_of_lt_mul hpix) (Nat.mod_lt _ (Nat.pos_of_lt_mul_right hpix))]

/-- A pixel depends on the samples of its window alone (R142). -/
theorem demosaicPixel_congr {F : Type} (n : Num F) (k : Consts F) {m m' : Nat → Nat → Nat} {r c : Nat}
    (h : ∀ i j, i ≤ r + 1 → j ≤ c + 1 → m i j = m' i j) : demosaicPixel n k m r c = demosaicPixel n k m' r c := by
  have hwindow (site : Nat × Nat) (hsite : site ∈ [(r, c), (r, c + 1), (r + 1, c), (r + 1, c + 1)]) :
      sampleOf m site = sampleOf m' site := by
    simp only [List.mem_cons, List.not_mem_nil, or_false] at hsite
    rcases hsite with rfl | rfl | rfl | rfl <;> exact h _ _ (by simp) (by simp)
  have htap (site : Nat × Nat) (hsite : site ∈ [redSite r c, blueSite r c, (greenSites r c).1, (greenSites r c).2]) :
      sampleOf m site = sampleOf m' site := hwindow site ((mem_window_iff site).2 hsite)
  rw [demosaicPixel, demosaicPixel, htap (redSite r c) (by simp), htap (blueSite r c) (by simp),
    htap (greenSites r c).1 (by simp), htap (greenSites r c).2 (by simp)]

/-! The stages on given elements. -/

variable {s : State}

theorem length_of_unpackGrid {g : Geometry} {ib : Nat → Byte} {len : Nat} {samples : List Sample}
    (h : unpackGrid g ib len = .ok samples) : samples.length = g.mosaicCount := by
  rcases unpackGrid_cases g ib len with ⟨-, hg⟩ | ⟨-, -, hg⟩ | ⟨-, -, hg⟩ <;> cases hg.symm.trans h
  exact length_mosaicOf _ _

theorem demosaicBody_of_holds {old : Memory 16} {samples : List Sample} (hv : s.valid.mosaic = true)
    (h : s.mosaic.holds samples old) (hlen : samples.length = s.cfg.geom.mosaicCount) :
    demosaicBody b64 s = { s with
      f0 := Memory.writeAll s.f0 (rawImageOf s.cfg samples)
      valid := { s.valid with f0 := true, f1 := false, f2 := false } } := by
  have himage : imageOf s.cfg.geom (demosaicPixel b64 s.cfg.consts (mosaicAt s.cfg.geom s.mosaic)) =
      rawImageOf s.cfg samples :=
    imageOf_congr fun r c hr hc => demosaicPixel_congr _ _ fun i j hi hj =>
      mosaicAt_of_holds h hlen (by omega) (by omega)
  rw [demosaicBody_ok b64 hv, himage]
  rfl

theorem correctBody_of_holds {old : Memory 64} {raw : List F64} (hv : s.valid.f0 = true) (h : s.f0.holds raw old)
    (hlen : raw.length = s.cfg.geom.imageCount) :
    correctBody b64 s = { s with
      f1 := Memory.writeAll s.f1 (correctedImageOf s.cfg raw), valid := { s.valid with f1 := true, f2 := false } } := by
  have himage : (imageOf s.cfg.geom fun r c => correctPixel b64 s.cfg.consts.ccm (pixelAt s.cfg.geom s.f0 r c)) =
      correctedImageOf s.cfg raw :=
    imageOf_congr fun r c hr hc => congrArg _ (pixelAt_of_holds h hlen hr hc)
  rw [correctBody_ok b64 hv, himage]
  rfl

theorem thenStage_of_eq {fw : Nat} {s u : Block.State fw} {body : Block.State fw → Block.State fw} (h : s = u)
    (he : u.err = 0) : thenStage body s = body u :=
  h ▸ thenStage_clean he body

/-- On a frame that unpacks, RUN comes to the tone mapper with the three earlier buffers written and their flags 1 (R190). -/
theorem runBody_eq_tonemapBody {samples : List Sample} (he : s.err = 0) (hs : s.canonical) (hv : s.valid.ibuf = true)
    (hg : unpackGrid s.cfg.geom (Memory.read s.ibuf) s.inLen.toNat = .ok samples) :
    ∃ m a b, runBody b64 s = tonemapBody b64 { s with
        mosaic := m, f0 := a, f1 := b, valid := ⟨true, true, true, true, false⟩ } ∧
      m.holds samples s.mosaic ∧ a.holds (rawImageOf s.cfg samples) s.f0 ∧
      b.holds (correctedImageOf s.cfg (rawImageOf s.cfg samples)) s.f1 := by
  obtain ⟨-, hwm, hw0, hw1, -⟩ := hs
  have hm := Memory.holds_writeAll hwm samples
  have ha := Memory.holds_writeAll hw0 (rawImageOf s.cfg samples)
  have hb := Memory.holds_writeAll hw1 (correctedImageOf s.cfg (rawImageOf s.cfg samples))
  have hflags : flagsDone s.valid .mosaic = ⟨true, true, false, false, false⟩ := by
    simp [flagsDone, setValid, invalidateFrom, hv]
  have hunpack : unpackBody s = { s with
      mosaic := Memory.writeAll s.mosaic samples, valid := ⟨true, true, false, false, false⟩ } := by
    rw [unpackBody_ok hv hg, ← hflags]
    rfl
  have hdemosaic := (thenStage_of_eq hunpack he).trans (demosaicBody_of_holds rfl hm (length_of_unpackGrid hg))
  have hcorrect := (thenStage_of_eq hdemosaic he).trans (correctBody_of_holds rfl ha (length_imageOf _ _))
  exact ⟨_, _, _, thenStage_of_eq hcorrect he, hm, ha, hb⟩

end Sys2Proof.Machine

open Sys2Proof Sys2Proof.Machine

/-- Settles O34: the tone mapper reads the corrected image from `F1` and accepts it. -/
theorem runWritesAllBuffers : Obligations.RunWritesAllBuffers := by
  intro s samples t ha hs hv hg ht
  obtain ⟨m, a, b, hrun, hm, ha0, hb⟩ := runBody_eq_tonemapBody (s := startCommand s) ha.2 hs hv hg
  have himage : imageElems s.cfg.geom b = correctedImageOf s.cfg (rawImageOf s.cfg samples) :=
    imageElems_of_holds hb (length_imageOf _ _)
  rw [← himage] at ht
  refine ⟨m, a, b, _, (next_command ha _).trans ?_, hm, ha0, hb, Memory.holds_writeAll hs.2.2.2.2 t.out⟩
  rw [hrun, tonemapBody_ok b64 rfl ht, ha.1]
  rfl

/-- Settles O35: the tone mapper reads the corrected image from `F1` and takes its fault; the model then keeps `F2`, `MIN`
and `MAX` (log entry 7). -/
theorem runStopsAtTonemapFault : Obligations.RunStopsAtTonemapFault := by
  intro s samples k ha hs hv hg ht
  obtain ⟨m, a, b, hrun, hm, ha0, hb⟩ := runBody_eq_tonemapBody (s := startCommand s) ha.2 hs hv hg
  have himage : imageElems s.cfg.geom b = correctedImageOf s.cfg (rawImageOf s.cfg samples) :=
    imageElems_of_holds hb (length_imageOf _ _)
  rw [← himage] at ht
  refine ⟨m, a, b, s.f2, s.minReg, s.maxReg, (next_command ha _).trans ?_, hm, ha0, hb⟩
  rw [hrun, tonemapBody_error b64 rfl ht, ha.1]
  rfl

end

section
/-! SUPPORT. CLEAR and the reserved words (45_control.md R192, R194). -/

namespace Sys2Proof.Machine

variable {fw : Nat} {s : Block.State fw}

/-- CLEAR of an idle block changes the flags, `IN_LEN` and `ERR` (R192). -/
theorem doClear_idle (hb : s.busy = false) :
    doClear s = { s with valid := ValidFlags.none, inLen := 0, err := 0, response := .done } := by
  rw [doClear, clearCommand_idle hb, hb]
  rfl

end Sys2Proof.Machine

open Sys2Proof Sys2Proof.Machine

/-- Settles O36: CLEAR of an idle block depends on no field that it clears. -/
theorem clearDiscardsFrame : Obligations.ClearDiscardsFrame := by
  intro s hb t
  exact ⟨congrArg _ (doClear_idle hb), congrArg _ (doClear_idle (s := t) hb)⟩

/-- Settles O5: an idle block accepts the word where `ERR` is 0 (`reservedCommand_accepted`) and refuses it elsewhere. -/
theorem reservedWordFaults : Obligations.ReservedWordFaults := by
  intro s w e rest hs hd hb
  have hstep : step s = .next (reservedCommand { s with script := rest }) :=
    (nextTransaction_cons hs).trans (writeCmd_of_reserved hd _)
  refine ⟨fun he => ?_, fun he => ?_⟩
  · rw [hstep, reservedCommand_accepted (s := { s with script := rest }) ⟨hb, he⟩]
  · have ha : ¬ Block.State.accepts { s with script := rest } := fun ha => he ha.2
    rw [hstep, reservedCommand, command_refused ha]
    rfl

end

section
/-! SUPPORT. The faulted state (60_exceptions.md R201 to R212): what a command leaves where it takes a fault, and that a
faulted block changes no state but by CLEAR and the reset event. -/

namespace Sys2Proof.Machine

/-! Fault entry (R210). -/

section

variable {fw : Nat} {n : Num (BitVec fw)} {s : Block.State fw} {body : Block.State fw → Block.State fw} {b : Space}
  {c : Cause}

/-- A command that takes a fault leaves its chain invalidation and the code (R27, R210). -/
theorem next_command_fault (ha : s.accepts)
    (h : body (startCommand s) = faultEntry c (beginWrite b (startCommand s))) :
    (.next (command body s) : Host.Outcome (Block.State fw) Fault Refusal) =
      .next { s with valid := invalidateFrom s.valid b, err := causeCode c, response := .done } := by
  rw [next_command ha, h, ha.1]
  rfl

/-- RUN ends with a fault of its first stage (R190). -/
theorem runBody_of_unpackBody_fault (h : unpackBody s = faultEntry c (beginWrite .mosaic s)) :
    runBody n s = faultEntry c (beginWrite .mosaic s) := by
  have he : (faultEntry c (beginWrite .mosaic s)).err ≠ 0 := causeCode_ne_zero c
  rw [runBody, h, thenStage_faulted he, thenStage_faulted he, thenStage_faulted he]

end

/-! The faults of the unpacker (R202, R203). -/

theorem unpackGrid_short {g : Geometry} {ib : Nat → Byte} {len : Nat} (hlen : len < g.dumpLen) :
    unpackGrid g ib len = .error .short := if_pos hlen

theorem unpackGrid_magic {g : Geometry} {ib : Nat → Byte} {len : Nat} (hlen : g.dumpLen ≤ len)
    (hmagic : magicMatches g ib (len - g.dumpLen) = false) : unpackGrid g ib len = .error .magic := by
  rw [unpackGrid, if_neg (Nat.not_lt.2 hlen), if_neg (by simp [hmagic])]

/-- UNPACK and RUN where the unpacker rejects a VALID frame. -/
theorem exec_unpackGrid_error {s : State} {i : Instr} {c : Cause} (hi : i = .unpack ∨ i = .run) (ha : s.accepts)
    (hv : s.valid.ibuf = true) (hg : unpackGrid s.cfg.geom (Memory.read s.ibuf) s.inLen.toNat = .error c) :
    exec i s = .next { s with
      valid := invalidateFrom s.valid .mosaic, err := causeCode c, response := .done } := by
  have hbody := unpackBody_error (s := startCommand s) hv hg
  rcases hi with rfl | rfl
  · exact next_command_fault ha hbody
  · exact next_command_fault ha (runBody_of_unpackBody_fault hbody)

/-! The faults of the stages (R201, R209). -/

section

variable {fw : Nat} {s t : Block.State fw} {body : Block.State fw → Block.State fw} {b : Space} {c : Cause}

/-- A body that raises a fault only by a fault entry after its chain invalidation, with a code other than that of a reserved
word (R201, R210). -/
def FaultsAsStage (body : Block.State fw → Block.State fw) (b : Space) : Prop :=
  ∀ s, s.err = 0 → (body s).err ≠ 0 → ∃ c, c ≠ .illegalCommand ∧ body s = faultEntry c (beginWrite b s)

theorem ne_illegalCommand_of_unpackGrid {g : Geometry} {ib : Nat → Byte} {len : Nat}
    (h : unpackGrid g ib len = .error c) : c ≠ .illegalCommand := by
  rcases unpackGrid_cases g ib len with ⟨-, hg⟩ | ⟨-, -, hg⟩ | ⟨-, -, hg⟩ <;> cases hg.symm.trans h <;> decide

theorem ne_illegalCommand_of_tonemapImage {F : Type} {n : Num F} {off : F} {xs : List F}
    (h : tonemapImage n off xs = .error c) : c ≠ .illegalCommand := by
  rcases tonemapImage_cases n off xs with ⟨-, ht⟩ | ⟨-, -, ht⟩ | ⟨-, -, ht⟩ <;> cases ht.symm.trans h <;> decide

theorem faultsAsStage_unpackBody : FaultsAsStage (unpackBody (fw := fw)) .mosaic := by
  intro s he hf
  cases hv : s.valid.ibuf with
  | false => exact ⟨_, by decide, unpackBody_notValid hv⟩
  | true =>
    cases hg : unpackGrid s.cfg.geom (Memory.read s.ibuf) s.inLen.toNat with
    | error c => exact ⟨c, ne_illegalCommand_of_unpackGrid hg, unpackBody_error hv hg⟩
    | ok samples =>
      rw [unpackBody_ok hv hg] at hf
      exact absurd he hf

theorem faultsAsStage_demosaicBody (n : Num (BitVec fw)) : FaultsAsStage (demosaicBody n) .f0 := by
  intro s he hf
  cases hv : s.valid.mosaic with
  | false => exact ⟨_, by decide, demosaicBody_notValid n hv⟩
  | true =>
    rw [demosaicBody_ok n hv] at hf
    exact absurd he hf

theorem faultsAsStage_correctBody (n : Num (BitVec fw)) : FaultsAsStage (correctBody n) .f1 := by
  intro s he hf
  cases hv : s.valid.f0 with
  | false => exact ⟨_, by decide, correctBody_notValid n hv⟩
  | true =>
    rw [correctBody_ok n hv] at hf
    exact absurd he hf

theorem faultsAsStage_tonemapBody (n : Num (BitVec fw)) : FaultsAsStage (tonemapBody n) .f2 := by
  intro s he hf
  cases hv : s.valid.f1 with
  | false => exact ⟨_, by decide, tonemapBody_notValid n hv⟩
  | true =>
    cases ht : tonemapImage n s.cfg.consts.logOffset (imageElems s.cfg.geom s.f1) with
    | error c => exact ⟨c, ne_illegalCommand_of_tonemapImage ht, tonemapBody_error n hv ht⟩
    | ok t =>
      rw [tonemapBody_ok n hv ht] at hf
      exact absurd he hf

/-- All that an accepted stage command has changed where it raised a fault (R210). -/
theorem FaultsAsStage.of_command (hbody : FaultsAsStage body b) (ha : s.accepts)
    (ht : (.next (command body s) : Host.Outcome (Block.State fw) Fault Refusal) = .next t) (he : t.err ≠ 0) :
    ∃ c, c ≠ .illegalCommand ∧
      t = { s with valid := invalidateFrom s.valid b, err := causeCode c, response := .done } := by
  have hend : endCommand (body (startCommand s)) = t :=
    Host.Outcome.next.inj ((next_command ha body).symm.trans ht)
  obtain ⟨c, hc, hfault⟩ := hbody (startCommand s) ha.2 (by rwa [← hend] at he)
  exact ⟨c, hc, Host.Outcome.next.inj (ht.symm.trans (next_command_fault ha hfault))⟩

/-- Every fault but that of a reserved word has one of the five codes of the stages (R201). -/
theorem causeCode_mem_of_ne_illegalCommand (hc : c ≠ .illegalCommand) :
    causeCode c ∈ [0x10, 0x11, 0x20, 0x21, 0x30] := by
  cases c with
  | short | magic | logDomain | zeroRange | sizeMismatch => decide
  | illegalCommand => exact absurd rfl hc

/-- Chain invalidation takes the flags from its buffer on, and no other (R27). -/
theorem validOf_invalidateFrom_eq (v : ValidFlags) {a : Space} (ha : a ≠ .csr) (b : Space) :
    validOf (invalidateFrom v a) b = if pipelineRank a ≤ pipelineRank b then false else validOf v b := by
  cases a with
  | csr => exact absurd rfl ha
  | ibuf | mosaic | f0 | f1 | f2 => cases b <;> rfl

end

/-- The next state of a stage command that raises a fault. -/
theorem exec_stage_fault {s t : State} {i : Instr} (hi : i = .unpack ∨ i = .demosaic ∨ i = .correct ∨ i = .tonemap)
    (ha : s.accepts) (ht : exec i s = .next t) (he : t.err ≠ 0) :
    ∃ c, c ≠ .illegalCommand ∧
      t = { s with valid := invalidateFrom s.valid (stageOutput i), err := causeCode c, response := .done } := by
  rcases hi with rfl | rfl | rfl | rfl
  · exact faultsAsStage_unpackBody.of_command ha ht he
  · exact (faultsAsStage_demosaicBody b64).of_command ha ht he
  · exact (faultsAsStage_correctBody b64).of_command ha ht he
  · exact (faultsAsStage_tonemapBody b64).of_command ha ht he

/-! The faulted state (R211, R212). -/

/-- A faulted block is read, and refuses all else but CLEAR and the reset event. -/
theorem transactOf_faulted {fw : Nat} (n : Num (BitVec fw)) {s : Block.State fw} (he : s.err ≠ 0)
    {x : TransactionOf fw} (hreset : x ≠ .reset) (hclear : x ≠ .writeCsr 0 6) :
    ∃ r k, transactOf n x s = .next { s with response := r, draws := k } := by
  have ha : ¬ s.accepts := fun ha => he ha.2
  cases x with
  | reset => exact absurd rfl hreset
  | loadIbuf | loadMosaic | loadF0 | loadF1 =>
    exact ⟨.refused, s.draws, congrArg _ (load_outside (.inl ha) _)⟩
  | loadF2 => exact ⟨.refused, s.draws, rfl⟩
  | writeCsr k w =>
    refine ⟨.refused, s.draws, ?_⟩
    by_cases hk : k = 0
    · have hw : w ≠ encode .clear := fun hw => hclear (by rw [hk, hw]; rfl)
      exact (if_pos hk).trans (writeCmdWith_refused n ha hw)
    · exact if_neg hk
  | read sp i =>
    obtain ⟨r, k, h⟩ := hostRead_frame sp i s
    exact ⟨r, k, congrArg _ h⟩

end Sys2Proof.Machine

open Sys2Proof Sys2Proof.Machine

/-- Settles O11: the length test is the unpacker's first. -/
theorem unpackShortInputFaults : Obligations.UnpackShortInputFaults := fun _ _ hi ha hv hlen =>
  exec_unpackGrid_error hi ha hv (unpackGrid_short hlen)

/-- Settles O12: one byte that differs fails the marker test. -/
theorem unpackMagicMismatchFaults : Obligations.UnpackMagicMismatchFaults := by
  intro s i k hk hi ha hv hlen hne
  have hmagic : magicMatches s.cfg.geom (Memory.read s.ibuf) (windowBase s) = false :=
    Bool.eq_false_iff.2 fun hm => hne (magicMatches_iff.1 hm k hk)
  exact exec_unpackGrid_error hi ha hv (unpackGrid_magic hlen hmagic)

/-- Settles O30: each stage tests the flag of its input right after its chain invalidation, which leaves that flag alone, and
RUN ends with the fault of UNPACK. -/
theorem stageInputNotValidFaults : Obligations.StageInputNotValidFaults := by
  intro s i hi ha hv
  cases i with
  | unpack => exact next_command_fault ha (unpackBody_notValid hv)
  | demosaic => exact next_command_fault ha (demosaicBody_notValid b64 hv)
  | correct => exact next_command_fault ha (correctBody_notValid b64 hv)
  | tonemap => exact next_command_fault ha (tonemapBody_notValid b64 hv)
  | run => exact next_command_fault ha (runBody_of_unpackBody_fault (unpackBody_notValid hv))
  | clear => exact absurd rfl hi

/-- Settles O31: a fault leaves the chain invalidation and the code (`exec_stage_fault`), so nothing upstream is touched. -/
theorem stageFaultLeavesNoOutput : Obligations.StageFaultLeavesNoOutput := by
  intro s t i hi ha ht he
  have hout : stageOutput i ≠ .csr := by rcases hi with rfl | rfl | rfl | rfl <;> decide
  obtain ⟨c, hc, rfl⟩ := exec_stage_fault hi ha ht he
  exact ⟨fun b hb => (validOf_invalidateFrom_eq s.valid hout b).trans (if_pos hb),
    fun b hb => (validOf_invalidateFrom_eq s.valid hout b).trans (if_neg (Nat.not_le.2 hb)),
    rfl, rfl, fun _ => rfl, fun _ => rfl, fun _ => rfl, causeCode_mem_of_ne_illegalCommand hc, ha.1⟩

/-- Settles O48: the step is the next transaction, which a faulted block refuses or answers as a read. -/
theorem faultClearedOnlyByClearOrReset : Obligations.FaultClearedOnlyByClearOrReset := by
  intro s t x rest he hs hreset hclear ht
  obtain ⟨r, k, h⟩ := transactOf_faulted b64 (s := { s with script := rest }) he hreset hclear
  rw [transactOf_b64] at h
  exact ⟨r, k, Host.Outcome.next.inj (ht.symm.trans ((nextTransaction_cons hs).trans h))⟩

end

section
/-! SUPPORT. Reset and liveness (70_reset_and_hazards.md R230, R231, R241): the reset event as CLEAR, and that every
command, transaction and step has a next state. -/

namespace Sys2Proof.Machine

variable {fw : Nat}

/-- The two ways of discarding a frame leave one state: BUSY, which only CLEAR raises, is 0 again after both (R231). -/
theorem resetEvent_eq_doClear {s : Block.State fw} (hb : s.busy = false) : resetEvent s = doClear s := by
  rw [doClear, clearCommand_idle hb]
  rfl

theorem execOf_answers (n : Num (BitVec fw)) (i : Instr) (s : Block.State fw) : ∃ t, execOf n i s = .next t := by
  cases i with
  | unpack | demosaic | correct | tonemap | run | clear => exact ⟨_, rfl⟩

/-- A command word runs its command, and a reserved one takes a fault or is refused (R83, R85). -/
theorem writeCmdWith_execOf_answers (n : Num (BitVec fw)) (w : Word) (s : Block.State fw) :
    ∃ t, writeCmdWith (execOf n) w s = .next t := by
  cases hd : decode w with
  | ok i =>
    rw [writeCmdWith_of_decode hd]
    exact execOf_answers n i s
  | error e => exact ⟨_, writeCmdWith_of_reserved hd s⟩

theorem transactOf_answers (n : Num (BitVec fw)) (x : TransactionOf fw) (s : Block.State fw) :
    ∃ t, transactOf n x s = .next t := by
  cases x with
  | reset | loadIbuf | loadMosaic | loadF0 | loadF1 | loadF2 | read => exact ⟨_, rfl⟩
  | writeCsr k w =>
    by_cases hk : k = 0
    · obtain ⟨t, ht⟩ := writeCmdWith_execOf_answers n w s
      exact ⟨t, (if_pos hk).trans ht⟩
    · exact ⟨refuse s, if_neg hk⟩

theorem stepOf_answers (n : Num (BitVec fw)) (s : Block.State fw) : ∃ t, stepOf n s = .next t := by
  cases hs : s.script with
  | nil => exact ⟨s, nextTransactionWith_nil hs⟩
  | cons x rest =>
    rw [stepOf, nextTransactionWith_cons hs]
    exact transactOf_answers n x _

end Sys2Proof.Machine

open Sys2Proof Sys2Proof.Machine

/-- Settles O8: an idle block makes no difference between the two (`resetEvent_eq_doClear`), and the reset event has no
condition on the state. -/
theorem resetEventEqualsClear : Obligations.ResetEventEqualsClear := fun s =>
  ⟨fun hb => congrArg _ (resetEvent_eq_doClear hb), resetEvent s, rfl, rfl, rfl, rfl, rfl, rfl⟩

/-- Settles O46: a step with no transaction left keeps the state, and each transaction answers. -/
theorem everyStepAnswers : Obligations.EveryStepAnswers := by
  intro s
  rw [← stepOf_b64, ← execOf_b64]
  exact ⟨stepOf_answers b64 s, fun i => execOf_answers b64 i s⟩

end
